-- ==== Sys2Proof/Word.lean ====
section
/-! DEFINITION. The word types of HUFFCORE (spec/00_scope.md R5, R7; spec/30_encoding.md R80). -/

namespace Sys2Proof

/-- A command word: 32 bits (R80). -/
abbrev Word := BitVec 32

/-- A byte of IN or OUT, and a symbol: "an integer in [0, 255]" (R5, R12). -/
abbrev Byte := BitVec 8

/-- A bit sequence (R7): a finite ordered list of bits, the first bit first; `true` is the bit 1. -/
abbrev Bits := List Bool

/-- A table indexed by symbol, 256 entries (R35, R38). -/
abbrev Table (α : Type) := Vector α 256

end Sys2Proof
end

