-- ==== Sys2Proof/Config.lean ====
section
/-! DEFINITION. What an implementation of HUFFCORE fixes (spec/00_scope.md R6) and the free values: every
value the spec leaves unspecified (spec/93_implementation_defined.md U1, U2, U3). -/

namespace Sys2Proof

/-- The parameters of R6 that the spec leaves OPEN (92_eei_decisions.md D2, 93 U14), with its defaults.
They are arguments of the whole model: they stand in State, every step leaves them as they are, and a
statement about every state is a statement about every choice of them (log entry 1). -/
structure Params where
  /-- LEN_W: width in bits of a byte count (IN_LEN, OUT_LEN, every frequency). -/
  lenW : Nat := 32
  /-- IN_CAP: capacity of the IN buffer in bytes. -/
  inCap : Nat := 2 ^ 32 - 1
  /-- OUT_CAP: capacity of the OUT buffer in bytes. -/
  outCap : Nat := 2 ^ 32 - 1
  /-- BITS_CAP: capacity of the BITS buffer in bits. -/
  bitsCap : Nat := 255 * (2 ^ 32 - 1)
  deriving DecidableEq, Repr

/-- BITPOS_W = LEN_W + 8 (R6). -/
def Params.bitposW (p : Params) : Nat := p.lenW + 8

/-- NODE_CAP, fixed at 2 × NSYM − 1 (R6). -/
def Config.nodeCap : Nat := 511

/-- PQ_CAP, fixed at NSYM (R6, R124). -/
def Config.pqCap : Nat := 256

/-- CODE_MAX: "codes longer than 255 bits are a hard limit of this format" (R5). -/
def Config.codeMax : Nat := 255

/-- What a free value stands for: one constructor for each kind of thing the spec leaves unspecified.
The indexed ones name elements of the buffers and tables (U1, U3), and with an index outside the space what a
host read there returns (U2); then the registers an abort leaves unspecified (U3), and ERR_INFO where the
word it should record does not fit (log entry 10). -/
inductive FreeSource where
  | inByte (i : Nat) | outByte (i : Nat) | payloadBit (i : Nat)
  | nodeKind (i : Nat) | nodeSym (i : Nat) | nodeFreq (i : Nat) | nodeLeft (i : Nat) | nodeRight (i : Nat)
  | freqCount (s : Nat)
  | codeValid (s : Nat) | codeLen (s : Nat) | codeBit (s j : Nat)
  | queueMember (i : Nat)
  | symCount | padLen | root | nodeCount | bitsLen
  | errInfo
  deriving DecidableEq, Repr

/-- The free values. `Config.free seed src` is the value the thing `src` holds in the period numbered
`seed`; it has no body, so nothing can be proved of the value, and a statement that holds, holds whatever
it is. The seeds come from State's counter `draw` (log entry 4); whoever uses the number reduces it to
the range the spec gives the element. DESIGN CHOICE in form only: U1 to U3 say `any value`. -/
opaque Config.free (seed : Nat) (src : FreeSource) : Nat

end Sys2Proof
end

