-- ==== Sys2Proof/Syntax.lean ====
section
/-! DEFINITION. The commands of HUFFCORE: one constructor for each row of spec/opcode_table.json
(spec/30_encoding.md R81). A command word carries no operands (R82), so no constructor has arguments. -/

namespace Sys2Proof

/-- The eleven commands, in the order of the opcode map (R81). -/
inductive Instr where
  /-- RESET, 0x01 (R191): return every piece of state to its reset value; IN keeps its bytes. -/
  | reset
  /-- COUNT, 0x02 (R111): IN[0 : IN_LEN] to the frequency table FREQ. -/
  | count
  /-- BUILD, 0x03 (R126): FREQ to the Huffman tree in NODE. -/
  | build
  /-- ASSIGN, 0x04 (R142): the tree to the code table CODE. -/
  | assign
  /-- ENCODE, 0x05 (R151): IN[0 : IN_LEN] and CODE to the payload in BITS. -/
  | encode
  /-- SERIALIZE, 0x06 (R172): CODE and BITS to the container blob in OUT. -/
  | serialize
  /-- DESERIALIZE, 0x07 (R176): the blob in IN to CODE and BITS. -/
  | deserialize
  /-- DECODE, 0x08 (R162): CODE and BITS to the bytes in OUT. -/
  | decode
  /-- COMPRESS, 0x09 (R193): COUNT, BUILD, ASSIGN, ENCODE and SERIALIZE as one command. -/
  | compress
  /-- DECOMPRESS, 0x0A (R195): DESERIALIZE and DECODE as one command. -/
  | decompress
  /-- NOP, 0x0B (R197): the state becomes DONE, nothing else changes. -/
  | nop
  deriving DecidableEq, Repr

end Sys2Proof
end

