-- ==== Sys2Proof/WellFormed.lean ====
section
/-! DEFINITION. The well-formedness checks: of a command, of the parameters (spec/00_scope.md R6) and of a
code table entry (spec/10_state.md R38). The check of a host access stands with the host port's types in
Machine/State.lean. -/

namespace Sys2Proof

/-- A command carries no operands (R82), so each of the eleven is well formed. -/
def Instr.wellFormed : Instr → Bool
  | .reset | .count | .build | .assign | .encode | .serialize | .deserialize | .decode
  | .compress | .decompress | .nop => true

/-- The constraints R6 puts on the parameters. -/
def Params.wf (p : Params) : Bool :=
  decide (1 ≤ p.lenW) &&
  (decide (1 ≤ p.inCap) && decide (p.inCap ≤ 2 ^ p.lenW - 1)) &&
  (decide (1 ≤ p.outCap) && decide (p.outCap ≤ 2 ^ p.lenW - 1)) &&
  decide (1 ≤ p.bitsCap)

/-- A valid code is a bit sequence of length 1 to 255 (R38). -/
def codeWellFormed (c : Bits) : Bool :=
  decide (1 ≤ c.length) && decide (c.length ≤ Config.codeMax)

end Sys2Proof
end

