-- ==== Sys2Proof/Decode.lean ====
section
/-! DEFINITION. The decoder of the command word, total and rejecting by name, and the encoder written from
the same opcode map (spec/30_encoding.md R80, R81, R83). -/

namespace Sys2Proof

/-- Why a word is no command (R83). Safe: dispatch raises IllegalCommand on either, as R202 says. -/
inductive DecodeError where
  /-- Bits [31:8], the field `zero`, are not all 0. Raised by `decode`; safe. -/
  | zeroFieldNotZero
  /-- The opcode is 0x00 or 0x0C to 0xFF. Raised by `decode`; safe. -/
  | unknownOpcode (op : BitVec 8)
  deriving DecidableEq, Repr

/-- `CMD[7:0]`, the field `opcode` (R80). -/
def opcodeField (w : Word) : BitVec 8 := w.extractLsb' 0 8

/-- `CMD[31:8]`, the field `zero` (R80). -/
def zeroField (w : Word) : BitVec 24 := w.extractLsb' 8 24

/-- The opcode map, read (R81). -/
def decodeOpcode (op : BitVec 8) : Except DecodeError Instr :=
  match op.toNat with
  | 0x01 => .ok .reset
  | 0x02 => .ok .count
  | 0x03 => .ok .build
  | 0x04 => .ok .assign
  | 0x05 => .ok .encode
  | 0x06 => .ok .serialize
  | 0x07 => .ok .deserialize
  | 0x08 => .ok .decode
  | 0x09 => .ok .compress
  | 0x0A => .ok .decompress
  | 0x0B => .ok .nop
  | _ => .error (.unknownOpcode op)

/-- The decoder: reads all 32 bits of the one word (R80, R83). -/
def decode (w : Word) : Except DecodeError Instr :=
  if zeroField w = 0 then decodeOpcode (opcodeField w) else .error .zeroFieldNotZero

/-- The opcode map, written (R81). -/
def opcodeOf : Instr → BitVec 8
  | .reset => 0x01
  | .count => 0x02
  | .build => 0x03
  | .assign => 0x04
  | .encode => 0x05
  | .serialize => 0x06
  | .deserialize => 0x07
  | .decode => 0x08
  | .compress => 0x09
  | .decompress => 0x0A
  | .nop => 0x0B

/-- The command word of a command: the opcode in bits [7:0] and zeros above (R80). -/
def encode (i : Instr) : Word := (opcodeOf i).setWidth 32

/-- What the decoder reads from a table row's word: bit 0 is the least significant bit of the one 32-bit
word, bits above `nbits` are 0, and a number that is wider than a command word is no command. -/
def decodeTableWord (nbits w : Nat) : Option Instr :=
  let v := w % 2 ^ nbits
  if v < 2 ^ 32 then (decode (BitVec.ofNat 32 v)).toOption else none

end Sys2Proof
end

