-- ==== Sys2Proof/Machine/State.lean ====
section
/-! DEFINITION. The state of HUFFCORE as plain data (spec/10_state.md R20 to R46), why a step can stop, and
the state right after hardware reset (R44, R230). -/

namespace Sys2Proof.Machine

/-- STATUS.state (R24): IDLE 0, BUSY 1, DONE 2, ERROR 3. A command is one atomic step (R68), so no step
leaves BUSY behind; the value exists because the register's field has it. -/
inductive SeqState where
  | idle | busy | done | error
  deriving DecidableEq, Repr

/-- The five valid flags of STATUS (R24, R34). -/
structure Flags where
  freqValid : Bool
  treeValid : Bool
  codeValid : Bool
  bitsValid : Bool
  outValid : Bool
  deriving DecidableEq, Repr

/-- The kind field of a NODE record (R36): 0 leaf, 1 internal node. -/
inductive NodeKind where
  | leaf | internal
  deriving DecidableEq, Repr

/-- A NODE record (R36). `freq` is LEN_W bits wide in the spec and a natural number here, since nothing
wraps (R9, R45; log entry 13). -/
structure NodeEntry where
  kind : NodeKind
  sym : Byte
  freq : Nat
  left : BitVec 9
  right : BitVec 9
  deriving DecidableEq, Repr

/-- A CODE record, held as R38 asks: none when not valid, else the code's bit sequence; `len` is its
length (log entry 18). -/
abbrev CodeEntry := Option Bits

/-- A buffer or table some elements of which may hold no specified value (U1): the elements that do, as
(index, value) pairs, indices strictly rising; every unlisted element holds no value. `seed` numbers the
free values the unlisted elements are read as through the host port (log entries 4, 6). -/
structure Store (α : Type) where
  cells : List (Nat × α)
  seed : Nat
  deriving DecidableEq, Repr

/-- A byte buffer: its cells are a list of `Host.Cell`. -/
abbrev Memory := Store Byte

/-- The address spaces the host reaches one element at a time (R60). -/
inductive Space where
  | reg | inBuf | outBuf | freq | node | code | bits
  deriving DecidableEq, Repr

/-- One element of an address space, as a host read returns it (R60, R62). -/
inductive Datum where
  | reg (v : Nat)
  | byte (b : Byte)
  | count (n : Nat)
  | node (e : NodeEntry)
  | code (c : CodeEntry)
  | bit (b : Bool)
  deriving DecidableEq, Repr

/-- The host's accesses, one element each (R61, R62): `HostRead(space, i)` and `HostWrite(space, i, v)`,
the latter with one constructor for each space so that the value has the element's kind. -/
inductive HostAccess where
  | read (sp : Space) (i : Nat)
  | writeReg (n : Nat) (v : Nat)
  | writeIn (i : Nat) (b : Byte)
  | writeOut (i : Nat) (b : Byte)
  | writeFreq (i : Nat) (v : Nat)
  | writeNode (i : Nat) (e : NodeEntry)
  | writeCode (i : Nat) (c : CodeEntry)
  | writeBits (i : Nat) (b : Bool)
  deriving DecidableEq, Repr

/-- What the outside world can do to the block: an access at the host port (R61), or asserting the reset
input (R230). -/
inductive HostInput where
  | access (a : HostAccess)
  | hardReset
  deriving DecidableEq, Repr

/-- The state. Registers R22 to R33, flags R34, tables and buffers R35 to R41; CMD holds nothing (R23) and
the bit cursor is not state between commands (R21), so neither has a field. The last three fields and
`cfg` are the model's own (log entries 1 to 4). -/
structure State where
  /-- The parameters of R6; no step changes them. -/
  cfg : Params
  /-- STATUS.state (R24). -/
  seq : SeqState
  /-- STATUS[8:4] (R24, R34). -/
  flags : Flags
  /-- ERR (R25): 0 when no error stands. -/
  err : BitVec 4
  /-- ERR_INFO (R26), BITPOS_W bits. -/
  errInfo : Nat
  /-- IN_LEN (R27), LEN_W bits. -/
  inLen : Nat
  /-- OUT_LEN (R28), LEN_W bits. -/
  outLen : Nat
  /-- BITS_LEN (R29), BITPOS_W bits. -/
  bitsLen : Nat
  /-- SYM_COUNT (R30). -/
  symCount : BitVec 9
  /-- PAD_LEN (R31). -/
  padLen : BitVec 3
  /-- ROOT (R32). -/
  root : BitVec 9
  /-- NODE_COUNT (R33). -/
  nodeCount : BitVec 10
  /-- FREQ (R35), LEN_W bits an entry. -/
  freq : Table Nat
  /-- NODE (R36). -/
  node : Store NodeEntry
  /-- PQ (R37): the set of NODE indices as a strictly rising list. -/
  pq : List Nat
  /-- CODE (R38). -/
  code : Table CodeEntry
  /-- BITS (R39). -/
  bits : Store Bool
  /-- IN (R40). -/
  inBuf : Memory
  /-- OUT (R41). -/
  outBuf : Memory
  /-- The model's own: what the host does next, oldest first (log entry 2). -/
  inputs : List HostInput
  /-- The model's own: the element the last host read returned (log entry 3). -/
  portData : Option Datum
  /-- The model's own: the number of the next period of free values (log entry 4). -/
  draw : Nat
  deriving DecidableEq, Repr

/-- Why the machine stops with a fault. -/
inductive Fault where
  /-- A command read IN[i], which the host has not written since hardware reset: "a model should give such
  a byte no value and refuse or fault the read" (R232, U1). Raised by COUNT, ENCODE, DESERIALIZE,
  COMPRESS and DECOMPRESS; safe. -/
  | unwrittenInput (i : Nat)
  /-- A command read element i of NODE or BITS and the element holds no specified value (U1). Raised by
  ASSIGN, SERIALIZE and DECODE, only in a state no run reaches (log entry 6); safe. -/
  | unspecifiedRead (sp : Space) (i : Nat)
  /-- WALK went deeper than NODE has entries: the entries at ROOT form no tree. Raised by ASSIGN, only in
  a state no run reaches (log entry 12); safe. -/
  | walkDoesNotEnd
  /-- DECODE made BITS_LEN matches and has not reached the payload's end: a code has length 0. Raised by
  DECODE, only in a state no run reaches (log entry 12); safe. -/
  | decodeDoesNotEnd
  deriving DecidableEq, Repr

/-- Why the machine refuses. -/
inductive Refusal where
  /-- The instruction has no meaning yet. Raised by the arms of `exec`; safe. -/
  | notModelled (mnemonic : String)
  /-- A command was issued while BUSY. "A write while BUSY cannot happen" (R23): the port holds it (R67),
  and a platform that does not is to be refused (U17). Raised by every meaning, never by `step`; safe. -/
  | commandWhileBusy
  /-- The host wrote a register a value that does not fit the register's width, which is no access of the
  spec (R62). Raised by the host port; safe (log entry 9). -/
  | accessTooWide
  deriving DecidableEq, Repr

/-- A store none of whose elements holds a value. -/
def Store.empty {α : Type} (seed : Nat) : Store α := { cells := [], seed := seed }

/-- No flag set. -/
def Flags.clear : Flags :=
  { freqValid := false, treeValid := false, codeValid := false, bitsValid := false, outValid := false }

/-- The machine right after hardware reset with parameters `p`: the first column of R44's table. NODE,
BITS, OUT and IN hold no value; the period numbered 0 supplies the free values of their elements. -/
def State.resetWith (p : Params) : State :=
  { cfg := p, seq := .idle, flags := Flags.clear, err := 0, errInfo := 0, inLen := 0, outLen := 0,
    bitsLen := 0, symCount := 0, padLen := 0, root := 0, nodeCount := 0,
    freq := Vector.replicate 256 0, node := Store.empty 0, pq := [],
    code := Vector.replicate 256 none, bits := Store.empty 0, inBuf := Store.empty 0,
    outBuf := Store.empty 0, inputs := [], portData := none, draw := 1 }

/-- The machine right after reset (R44, R230), with the default parameters of R6. -/
def State.reset : State := State.resetWith {}

end Sys2Proof.Machine
end

