-- ==== Sys2Proof/Machine/Ops.lean ====
section
/-! DEFINITION. The operations shared by every command: tables and stores (spec/20_memory.md R61), the free
values, how a command runs and ends (spec/47_top_level.md R190), the abort (spec/60_exceptions.md R207) and
the recovery from it (R210, spec/10_state.md R44). -/

namespace Sys2Proof.Machine

/-! ## Tables indexed by symbol -/

/-- Element `s` of a table. -/
def tableGet {α : Type} (t : Table α) (s : Byte) : α := t[s.toNat]'s.isLt

/-- The table with element `s` replaced. -/
def tableSet {α : Type} (t : Table α) (s : Byte) (v : α) : Table α := t.set s.toNat v s.isLt

/-- The table with element `f s` at each symbol `s`. -/
def tableOf {α : Type} (f : Byte → α) : Table α := Vector.ofFn fun i => f (BitVec.ofFin i)

/-- `s in 0..255`, ascending, both ends included (R10). -/
def allSymbols : List Byte := (List.range 256).map (BitVec.ofNat 8)

/-! ## Stores: `MemRead` and `MemWrite` (R61) -/

/-- The value listed at index `i`. -/
def cellsGet {α : Type} : List (Nat × α) → Nat → Option α
  | [], _ => none
  | (k, v) :: rest, i => if k = i then some v else cellsGet rest i

/-- The list with `v` at index `i`: replaced where it is listed, else put where the order has its place. -/
def cellsSet {α : Type} : List (Nat × α) → Nat → α → List (Nat × α)
  | [], i, v => [(i, v)]
  | (k, w) :: rest, i, v =>
    if i < k then (i, v) :: (k, w) :: rest
    else if k = i then (i, v) :: rest
    else (k, w) :: cellsSet rest i v

/-- The indices strictly rise, from `lo` on. -/
def cellsRiseFrom {α : Type} : Nat → List (Nat × α) → Bool
  | _, [] => true
  | lo, (k, _) :: rest => decide (lo ≤ k) && cellsRiseFrom (k + 1) rest

/-- The cells that hold the list `l` at indices `i`, `i + 1`, ... -/
def cellsFrom {α : Type} : Nat → List α → List (Nat × α)
  | _, [] => []
  | i, v :: rest => (i, v) :: cellsFrom (i + 1) rest

/-- Element `i`, none where it holds no specified value. -/
def Store.get? {α : Type} (m : Store α) (i : Nat) : Option α := cellsGet m.cells i

/-- `MemWrite(space, i, v)`. -/
def Store.set {α : Type} (m : Store α) (i : Nat) (v : α) : Store α :=
  { m with cells := cellsSet m.cells i v }

/-- The store that holds the list `l` from index 0 on and no specified value above it; `seed` numbers the
free values of what lies above. -/
def Store.ofList {α : Type} (l : List α) (seed : Nat) : Store α := { cells := cellsFrom 0 l, seed := seed }

/-- The canonical form: indices strictly rising (so none is listed twice) and below the capacity. An
unlisted element has no value, so no listed one equals what an unlisted one reads as. -/
def Store.wf {α : Type} (m : Store α) (cap : Nat) : Bool :=
  cellsRiseFrom 0 m.cells && m.cells.all fun c => decide (c.1 < cap)

/-- The canonical form of a byte buffer of `cap` bytes. -/
def Memory.wf (m : Memory) (cap : Nat) : Bool := Store.wf m cap

/-! ## The free values, each reduced to its element's range -/

/-- A free byte. -/
def freeByte (seed : Nat) (src : FreeSource) : Byte := BitVec.ofNat 8 (Config.free seed src)

/-- A free bit. -/
def freeBit (seed : Nat) (src : FreeSource) : Bool := decide (Config.free seed src % 2 = 1)

/-- A free count of LEN_W bits. -/
def freeCount (p : Params) (seed : Nat) (src : FreeSource) : Nat := Config.free seed src % 2 ^ p.lenW

/-- A free NODE record: every field any value of its width (R36). -/
def freeNode (p : Params) (seed i : Nat) : NodeEntry :=
  { kind := if freeBit seed (.nodeKind i) then .internal else .leaf
    sym := freeByte seed (.nodeSym i)
    freq := freeCount p seed (.nodeFreq i)
    left := BitVec.ofNat 9 (Config.free seed (.nodeLeft i))
    right := BitVec.ofNat 9 (Config.free seed (.nodeRight i)) }

/-- A free CODE record: not valid, or any bit sequence of at most 255 bits (R38). -/
def freeCode (seed s : Nat) : CodeEntry :=
  if freeBit seed (.codeValid s) then
    some ((List.range (Config.free seed (.codeLen s) % 256)).map fun j => freeBit seed (.codeBit s j))
  else none

/-- A free queue: any set of at most 256 NODE indices (R37). -/
def freeQueue (seed : Nat) : List Nat :=
  ((List.range Config.nodeCap).filter fun i => freeBit seed (.queueMember i)).take Config.pqCap

/-! ## How a command's body ends -/

/-- The eight error kinds (R200, R201). -/
inductive Err where
  | emptyInput | malformedContainer | unknownCode | codeLengthOverflow
  | illegalCommand | badSequence | missingCode | bufferOverflow
  deriving DecidableEq, Repr

/-- The value of ERR for each kind (R200, R201); 0 means no error. -/
def Err.code : Err → BitVec 4
  | .emptyInput => 1
  | .malformedContainer => 2
  | .unknownCode => 3
  | .codeLengthOverflow => 4
  | .illegalCommand => 5
  | .badSequence => 6
  | .missingCode => 7
  | .bufferOverflow => 8

/-- What ends a command's body early: `raise E(info)` (R207), or the model has no value to go on with. -/
inductive Stop where
  | raise (e : Err) (info : Nat)
  | fault (f : Fault)
  deriving DecidableEq, Repr

/-- ERR_INFO is BITPOS_W bits wide (R26). Every value the rules record fits it but one: a 32-bit illegal
word where BITPOS_W is below 32. The spec states no value for that, so it is free (log entry 10). -/
def errInfoValue (p : Params) (seed info : Nat) : Nat :=
  if info < 2 ^ p.bitposW then info else Config.free seed .errInfo % 2 ^ p.bitposW

/-- Abort, the block's trap entry (R207): ERR and ERR_INFO record the error, the state becomes ERROR, all
five flags and OUT_LEN become 0. FREQ, NODE, NODE_COUNT, ROOT, PQ, CODE, BITS, BITS_LEN, SYM_COUNT, PAD_LEN
and the bytes of OUT become unspecified: free values of a new period (U3; log entry 7), within the ranges
R30 to R33 give. IN and IN_LEN are unchanged. -/
def abort (e : Err) (info : Nat) (s : State) : State :=
  { s with
    seq := .error
    flags := Flags.clear
    err := e.code
    errInfo := errInfoValue s.cfg s.draw info
    outLen := 0
    bitsLen := Config.free s.draw .bitsLen % 2 ^ s.cfg.bitposW
    symCount := BitVec.ofNat 9 (Config.free s.draw .symCount % 257)
    padLen := BitVec.ofNat 3 (Config.free s.draw .padLen)
    root := BitVec.ofNat 9 (Config.free s.draw .root % Config.nodeCap)
    nodeCount := BitVec.ofNat 10 (Config.free s.draw .nodeCount % (Config.nodeCap + 1))
    freq := tableOf fun b => freeCount s.cfg s.draw (.freqCount b.toNat)
    node := Store.empty s.draw
    pq := freeQueue s.draw
    code := tableOf fun b => freeCode s.draw b.toNat
    bits := Store.empty s.draw
    outBuf := Store.empty s.draw
    draw := s.draw + 1 }

/-- Recovery, the block's trap return, and the soft reset (R191, R210): every register, flag and table takes
the value of the second column of R44's table. IN keeps its bytes; NODE, BITS and OUT become unspecified. -/
def recover (s : State) : State :=
  { State.resetWith s.cfg with
    node := Store.empty s.draw
    bits := Store.empty s.draw
    outBuf := Store.empty s.draw
    inBuf := s.inBuf
    inputs := s.inputs
    portData := s.portData
    draw := s.draw + 1 }

/-- Hardware reset (R230): as the soft reset, and the bytes of IN become unspecified too (R231). -/
def hardwareReset (s : State) : State :=
  { recover s with inBuf := Store.empty s.draw }

/-- The end of a command that was issued in state `s` (R190): DONE, or the abort. What an aborted body
wrote is not in the abort state, since R207 leaves all of it unspecified. -/
def finish (s : State) : Except Stop State → Host.Outcome State Fault Refusal
  | .ok t => .next { t with seq := .done }
  | .error (.raise e info) => .next (abort e info s)
  | .error (.fault f) => .fault f

/-- Dispatch of a command other than RESET (R190, R209): in ERROR nothing changes; in IDLE and DONE the
state becomes BUSY and the body runs, to DONE or to ERROR, as one atomic step (R68). BUSY itself cannot be
met (R23, R67; log entry 11). -/
def runCommand (body : State → Except Stop State) (s : State) : Host.Outcome State Fault Refusal :=
  match s.seq with
  | .error => .next s
  | .busy => .refused .commandWhileBusy
  | .idle | .done => finish s (body { s with seq := .busy })

end Sys2Proof.Machine
end

