-- ==== Sys2Proof/Machine/Flags.lean ====
section
/-! DEFINITION. The STATUS register (spec/10_state.md R24) and the flag table of all commands (R34). There
are no condition codes: the valid flags are the only flags. -/

namespace Sys2Proof.Machine

/-- The value of STATUS.state (R24). -/
def SeqState.code : SeqState → BitVec 2
  | .idle => 0
  | .busy => 1
  | .done => 2
  | .error => 3

/-- STATUS as the host reads it (R24): state in [1:0], 0 in [3:2], FREQ_VALID to OUT_VALID in [4] to [8]. -/
def statusWord (s : State) : BitVec 9 :=
  BitVec.ofBool s.flags.outValid ++ BitVec.ofBool s.flags.bitsValid ++ BitVec.ofBool s.flags.codeValid ++
    BitVec.ofBool s.flags.treeValid ++ BitVec.ofBool s.flags.freqValid ++ (0 : BitVec 2) ++ s.seq.code

/-- All five flags set. -/
def Flags.all : Flags :=
  { freqValid := true, treeValid := true, codeValid := true, bitsValid := true, outValid := true }

/-- Every flag of `need` is set in `f`. -/
def Flags.covers (f need : Flags) : Bool :=
  (f.freqValid || !need.freqValid) && (f.treeValid || !need.treeValid) &&
  (f.codeValid || !need.codeValid) && (f.bitsValid || !need.bitsValid) && (f.outValid || !need.outValid)

/-- `f` with the flags of `m` cleared. -/
def Flags.without (f m : Flags) : Flags :=
  { freqValid := f.freqValid && !m.freqValid
    treeValid := f.treeValid && !m.treeValid
    codeValid := f.codeValid && !m.codeValid
    bitsValid := f.bitsValid && !m.bitsValid
    outValid := f.outValid && !m.outValid }

/-- `f` with the flags of `m` set. -/
def Flags.plus (f m : Flags) : Flags :=
  { freqValid := f.freqValid || m.freqValid
    treeValid := f.treeValid || m.treeValid
    codeValid := f.codeValid || m.codeValid
    bitsValid := f.bitsValid || m.bitsValid
    outValid := f.outValid || m.outValid }

/-- R34's column "needs set (else BadSequence)". -/
def flagsNeeded : Instr → Flags
  | .build => { Flags.clear with freqValid := true }
  | .assign => { Flags.clear with treeValid := true }
  | .encode => { Flags.clear with codeValid := true }
  | .serialize => { Flags.clear with codeValid := true, bitsValid := true }
  | .decode => { Flags.clear with codeValid := true, bitsValid := true }
  | .reset | .count | .deserialize | .compress | .decompress | .nop => Flags.clear

/-- R34's column "cleared at start". -/
def flagsCleared : Instr → Flags
  | .build => { Flags.all with freqValid := false }
  | .assign => { Flags.clear with codeValid := true, bitsValid := true, outValid := true }
  | .encode => { Flags.clear with bitsValid := true, outValid := true }
  | .serialize => { Flags.clear with outValid := true }
  | .decode => { Flags.clear with outValid := true }
  | .reset | .count | .deserialize | .compress | .decompress => Flags.all
  | .nop => Flags.clear

/-- R34's column "set on success". -/
def flagsSet : Instr → Flags
  | .count => { Flags.clear with freqValid := true }
  | .build => { Flags.clear with treeValid := true }
  | .assign => { Flags.clear with codeValid := true }
  | .encode => { Flags.clear with bitsValid := true }
  | .serialize => { Flags.clear with outValid := true }
  | .deserialize => { Flags.clear with codeValid := true, bitsValid := true }
  | .decode => { Flags.clear with outValid := true }
  | .compress => Flags.all
  | .decompress => { Flags.clear with codeValid := true, bitsValid := true, outValid := true }
  | .reset | .nop => Flags.clear

/-- The frame every body has (R34): its first action is the flag check, BadSequence with the opcode as
ERR_INFO (R203); then its flags are cleared; on success its flags are set. -/
def stage (i : Instr) (effect : State → Except Stop State) (s : State) : Except Stop State :=
  if s.flags.covers (flagsNeeded i) then do
    let t ← effect { s with flags := s.flags.without (flagsCleared i) }
    return { t with flags := t.flags.plus (flagsSet i) }
  else .error (.raise .badSequence (opcodeOf i).toNat)

end Sys2Proof.Machine
end

