-- ==== Sys2Proof/Machine/Operands.lean ====
section
/-! DEFINITION. Where commands take their operands from (spec/30_encoding.md R82): fixed homes, read by
`MemRead` (spec/20_memory.md R61). -/

namespace Sys2Proof.Machine

/-- The `n` elements of a store from index `i` on, in ascending order; `f` says how a read of an element
with no value stops. -/
def readFrom {α : Type} (m : Store α) (f : Nat → Fault) : Nat → Nat → Except Stop (List α)
  | _, 0 => .ok []
  | i, n + 1 =>
    match m.get? i with
    | none => .error (.fault (f i))
    | some v =>
      match readFrom m f (i + 1) n with
      | .ok l => .ok (v :: l)
      | .error e => .error e

/-- IN[0 : IN_LEN], the raw input or the blob (R27, R40); a byte the host never wrote stops the command
(R232; log entry 5). -/
def readInput (s : State) : Except Stop (List Byte) := readFrom s.inBuf .unwrittenInput 0 s.inLen

/-- BITS[0 : BITS_LEN], the payload (R29, R39). -/
def readPayload (s : State) : Except Stop Bits := readFrom s.bits (.unspecifiedRead .bits) 0 s.bitsLen

/-- The check every command that reads IN makes first (R205): IN_LEN above IN_CAP is BufferOverflow(0). -/
def checkInputLength (s : State) : Except Stop Unit :=
  if s.inLen > s.cfg.inCap then .error (.raise .bufferOverflow 0) else .ok ()

end Sys2Proof.Machine
end

