-- ==== Sys2Proof/Machine/BitStream.lean ====
section
/-! DEFINITION. The BitStream primitives, unit BS (spec/40_bitstream.md R100 to R106), the notation functions
`bitsN` and `val` (spec/00_scope.md R8) and the packing of bits into bytes (spec/20_memory.md R63, R64).
They are primitives: no command word selects one. -/

namespace Sys2Proof.Machine

/-- `bitsN(v)` (R8): the N-bit sequence that spells v, most significant bit first. -/
def bitsN : Nat → Nat → Bits
  | 0, _ => []
  | n + 1, v => decide (v / 2 ^ n % 2 = 1) :: bitsN n v

/-- `val` over the bits read so far, first bit most significant. -/
def valFrom : Nat → Bits → Nat
  | acc, [] => acc
  | acc, b :: rest => valFrom (2 * acc + b.toNat) rest

/-- `val(b)` (R8): the natural number a bit sequence spells; `val("") = 0`. -/
def val (b : Bits) : Nat := valFrom 0 b

/-- `zeros(n)` (R7). -/
def zeros (n : Nat) : Bits := List.replicate n false

/-- BS.APPEND (R101). -/
def bsAppend (b x : Bits) : Bits := b ++ x

/-- BS.SLICE (R102): `b[i:j]`. -/
def bsSlice (b : Bits) (i j : Nat) : Bits := (b.drop i).take (j - i)

/-- The pad length of a bit count (R9, R87): `(8 − (a mod 8)) mod 8`. -/
def padLength (a : Nat) : Nat := (8 - a % 8) % 8

/-- BS.PAD (R103): zero bits to the next byte boundary, and how many. -/
def bsPad (b : Bits) : Bits × Nat := (b ++ zeros (padLength b.length), padLength b.length)

/-- BS.PUT (R104): a field of `n` bits. -/
def bsPut (b : Bits) (n v : Nat) : Bits := b ++ bitsN n v

/-- BS.GET (R105): the `n` bits at the cursor and the advanced cursor, or FAIL. -/
def bsGet (b : Bits) (cur n : Nat) : Option (Bits × Nat) :=
  if cur + n > b.length then none else some (bsSlice b cur (cur + n), cur + n)

/-- BS.TOBYTES (R64, R106): bit i of the sequence is bit 7 − (i mod 8) of byte i div 8. The sequence's
length is a multiple of 8; a shorter rest than 8 bits is not reached. -/
def bsToBytes : Bits → List Byte
  | b0 :: b1 :: b2 :: b3 :: b4 :: b5 :: b6 :: b7 :: rest =>
    BitVec.ofNat 8 (val [b0, b1, b2, b3, b4, b5, b6, b7]) :: bsToBytes rest
  | _ => []

/-- BS.FROMBYTES (R64, R106). -/
def bsFromBytes : List Byte → Bits
  | [] => []
  | b :: rest => bitsN 8 b.toNat ++ bsFromBytes rest

end Sys2Proof.Machine
end

