-- ==== Sys2Proof/Machine/Frequency.lean ====
section
/-! DEFINITION. The frequency counter, unit FT: COUNT (spec/41_frequency.md R110 to R112). -/

namespace Sys2Proof.Machine

/-- `FREQ[s] <- FREQ[s] + 1` (R111). -/
def countByte (f : Table Nat) (s : Byte) : Table Nat := tableSet f s (tableGet f s + 1)

/-- The table of a byte list, counted in ascending order of index from the all-zero table (R110, R111). -/
def freqOf (input : List Byte) : Table Nat := input.foldl countByte (Vector.replicate 256 0)

/-- The number of symbols with a count above 0 (R30, R111). -/
def distinctSymbols (f : Table Nat) : Nat := (allSymbols.filter fun s => decide (0 < tableGet f s)).length

/-- COUNT after the flags are cleared (R111); an empty input gives the empty table without error (R112). -/
def countEffect (s : State) : Except Stop State := do
  checkInputLength s
  let input ← readInput s
  return { s with freq := freqOf input, symCount := BitVec.ofNat 9 (distinctSymbols (freqOf input)) }

/-- The body of COUNT with its flags (R34, R111). -/
def countBody (s : State) : Except Stop State := stage .count countEffect s

/-- COUNT (R111, R112). -/
def execCount (s : State) : Host.Outcome State Fault Refusal := runCommand countBody s

end Sys2Proof.Machine
end

