-- ==== Sys2Proof/Machine/TreeBuilder.lean ====
section
/-! DEFINITION. The Huffman tree builder and its priority queue, unit TB: PQ.EXTRACT_MIN, PQ.INSERT, COMBINE
and BUILD (spec/42_tree_builder.md R120 to R129). -/

namespace Sys2Proof.Machine

/-- What BUILD works on: NODE[0 : NODE_COUNT] and PQ (R126). The queue is a set of NODE indices (R120),
held as a strictly rising list (log entry 20). -/
structure Forest where
  nodes : List NodeEntry
  pq : List Nat
  deriving DecidableEq, Repr

/-- NODE[i].freq. -/
def nodeFreq (nodes : List NodeEntry) (i : Nat) : Nat :=
  match nodes[i]? with
  | some e => e.freq
  | none => 0

/-- The order of keys (freq, index): by freq, then by index (R121). -/
def keyLess (nodes : List NodeEntry) (i j : Nat) : Bool :=
  decide (nodeFreq nodes i < nodeFreq nodes j) ||
    (decide (nodeFreq nodes i = nodeFreq nodes j) && decide (i < j))

/-- The index of a queue whose key is least (R121, R122). -/
def leastIndex (nodes : List NodeEntry) : List Nat → Option Nat
  | [] => none
  | i :: rest =>
    match leastIndex nodes rest with
    | none => some i
    | some m => if keyLess nodes m i then some m else some i

/-- PQ.EXTRACT_MIN (R122): the least index and the queue without it; none on an empty queue, on which
BUILD never calls it. -/
def extractMin (nodes : List NodeEntry) (pq : List Nat) : Option (Nat × List Nat) :=
  match leastIndex nodes pq with
  | none => none
  | some m => some (m, pq.filter fun i => decide (i ≠ m))

/-- PQ.INSERT (R123): PQ ∪ {i}. -/
def pqInsert (i : Nat) : List Nat → List Nat
  | [] => [i]
  | j :: rest => if i < j then i :: j :: rest else if i = j then j :: rest else j :: pqInsert i rest

/-- The leaf BUILD writes for a symbol (R126). -/
def leafNode (s : Byte) (freq : Nat) : NodeEntry :=
  { kind := .leaf, sym := s, freq := freq, left := 0, right := 0 }

/-- The internal node COMBINE writes: the first index extracted is the left child (R125). -/
def internalNode (nodes : List NodeEntry) (a b : Nat) : NodeEntry :=
  { kind := .internal, sym := 0, freq := nodeFreq nodes a + nodeFreq nodes b,
    left := BitVec.ofNat 9 a, right := BitVec.ofNat 9 b }

/-- One turn of BUILD's first loop: a leaf for a symbol that occurs, at the next free index (R126). -/
def insertLeaf (freq : Table Nat) (f : Forest) (s : Byte) : Forest :=
  if 0 < tableGet freq s then
    { nodes := f.nodes ++ [leafNode s (tableGet freq s)], pq := pqInsert f.nodes.length f.pq }
  else f

/-- The leaves in ascending symbol value (R126). -/
def leafForest (freq : Table Nat) : Forest :=
  allSymbols.foldl (insertLeaf freq) { nodes := [], pq := [] }

/-- COMBINE (R125) and PQ.INSERT of the index it returns: NODE[k] is written at k = NODE_COUNT. -/
def combine (a b : Nat) (nodes : List NodeEntry) (pq : List Nat) : Forest :=
  { nodes := nodes ++ [internalNode nodes a b], pq := pqInsert nodes.length pq }

/-- One turn of BUILD's second loop: extract two, combine, insert (R126). -/
def combineLeast (f : Forest) : Forest :=
  match extractMin f.nodes f.pq with
  | none => f
  | some (a, q) =>
    match extractMin f.nodes q with
    | none => f
    | some (b, r) => combine a b f.nodes r

/-- `while PQ holds more than one index` (R126), at most `fuel` turns. -/
def combineAll : Nat → Forest → Forest
  | 0, f => f
  | fuel + 1, f => if 1 < f.pq.length then combineAll fuel (combineLeast f) else f

/-- The whole of BUILD's loops. Each turn takes one index off the queue (R124), so the queue's length is
turns enough (R127: exactly n − 1 for n leaves). -/
def buildForest (freq : Table Nat) : Forest :=
  combineAll (leafForest freq).pq.length (leafForest freq)

/-- BUILD after the flags are checked and cleared (R126). NODE entries at or above NODE_COUNT hold no
specified value (R36). -/
def buildEffect (s : State) : Except Stop State :=
  if (leafForest s.freq).pq = [] then .error (.raise .emptyInput 0)
  else
    .ok { s with
      node := Store.ofList (buildForest s.freq).nodes s.draw
      nodeCount := BitVec.ofNat 10 (buildForest s.freq).nodes.length
      root := BitVec.ofNat 9 ((buildForest s.freq).pq.headD 0)
      pq := (buildForest s.freq).pq
      draw := s.draw + 1 }

/-- The body of BUILD with its flags (R34, R126). -/
def buildBody (s : State) : Except Stop State := stage .build buildEffect s

/-- BUILD (R126 to R128). -/
def execBuild (s : State) : Host.Outcome State Fault Refusal := runCommand buildBody s

end Sys2Proof.Machine
end

