-- ==== Sys2Proof/Machine/CodeTable.lean ====
section
/-! DEFINITION. The code-table generator, unit CG: WALK and ASSIGN (spec/43_code_table.md R140 to R145). -/

namespace Sys2Proof.Machine

/-- MemRead(NODE, i) by a command. -/
def readNode (s : State) (i : Nat) : Except Stop NodeEntry :=
  match s.node.get? i with
  | some e => .ok e
  | none => .error (.fault (.unspecifiedRead .node i))

/-- WALK (R142): the left subtree first (R141), the path a value handed down to each child. `fuel` bounds
the depth: a tree in NODE is at most 510 edges deep, and entries that form no tree stop the command (log
entry 12). -/
def walk (s : State) : Nat → Nat → Bits → Table CodeEntry → Except Stop (Table CodeEntry)
  | 0, _, _, _ => .error (.fault .walkDoesNotEnd)
  | fuel + 1, i, path, codes => do
    let e ← readNode s i
    match e.kind with
    | .leaf =>
      if path.length > Config.codeMax then .error (.raise .codeLengthOverflow e.sym.toNat)
      else .ok (tableSet codes e.sym (some path))
    | .internal =>
      let codes' ← walk s fuel e.left.toNat (path ++ [false]) codes
      walk s fuel e.right.toNat (path ++ [true]) codes'

/-- No symbol has a code. -/
def noCodes : Table CodeEntry := Vector.replicate 256 none

/-- The code table of the tree in NODE (R142): the single-leaf tree gets the 1-bit code "0" (R143). -/
def assignCodes (s : State) : Except Stop (Table CodeEntry) := do
  let r ← readNode s s.root.toNat
  match r.kind with
  | .leaf => .ok (tableSet noCodes r.sym (some [false]))
  | .internal => walk s Config.nodeCap s.root.toNat [] noCodes

/-- ASSIGN after the flags are checked and cleared (R142). -/
def assignEffect (s : State) : Except Stop State := do
  let codes ← assignCodes s
  return { s with code := codes }

/-- The body of ASSIGN with its flags (R34, R142). -/
def assignBody (s : State) : Except Stop State := stage .assign assignEffect s

/-- ASSIGN (R142 to R144). -/
def execAssign (s : State) : Host.Outcome State Fault Refusal := runCommand assignBody s

end Sys2Proof.Machine
end

