-- ==== Sys2Proof/Machine/Packer.lean ====
section
/-! DEFINITION. The bitstream packer, unit PK: ENCODE (spec/44_packer.md R150 to R152). -/

namespace Sys2Proof.Machine

/-- ENCODE's loop (R151): the codes of the `rem` input bytes from index `i` on, `n` bits being written so
far. Bytes are taken in ascending order and the first error met is the one raised (R208). -/
def packFrom (s : State) : (rem i n : Nat) → Except Stop Bits
  | 0, _, _ => .ok []
  | rem + 1, i, n =>
    match s.inBuf.get? i with
    | none => .error (.fault (.unwrittenInput i))
    | some b =>
      match tableGet s.code b with
      | none => .error (.raise .missingCode i)
      | some c =>
        if n + c.length > s.cfg.bitsCap then .error (.raise .bufferOverflow i)
        else
          match packFrom s rem (i + 1) (n + c.length) with
          | .ok rest => .ok (c ++ rest)
          | .error e => .error e

/-- ENCODE after the flags are checked and cleared (R151). Bits at or above BITS_LEN hold no specified value
(R39). -/
def encodeEffect (s : State) : Except Stop State := do
  checkInputLength s
  let payload ← packFrom s s.inLen 0 0
  return { s with bits := Store.ofList payload s.draw, bitsLen := payload.length, draw := s.draw + 1 }

/-- The body of ENCODE with its flags (R34, R151). -/
def encodeBody (s : State) : Except Stop State := stage .encode encodeEffect s

/-- ENCODE (R151, R152). -/
def execEncode (s : State) : Host.Outcome State Fault Refusal := runCommand encodeBody s

end Sys2Proof.Machine
end

