-- ==== Sys2Proof/Machine/Unpacker.lean ====
section
/-! DEFINITION. The bitstream unpacker, unit UP: MATCH and DECODE (spec/45_unpacker.md R160 to R165). -/

namespace Sys2Proof.Machine

/-- LENS (R160): the distinct code lengths of the valid entries, ascending. -/
def codeLengths (codes : Table CodeEntry) : List Nat :=
  (List.range (Config.codeMax + 1)).filter fun n => codes.toList.any fun c => c.map List.length == some n

/-- `min { s : CODE[s].valid = 1, CODE[s].len = len(w), CODE[s].bits = w }` (R161). -/
def symbolOf (codes : Table CodeEntry) (w : Bits) : Option Byte :=
  (codes.toList.findIdx? fun c => decide (c = some w)).map (BitVec.ofNat 8)

/-- MATCH over the lengths still to try (R161); a length that would pass the payload's end is skipped. -/
def matchLengths (codes : Table CodeEntry) (b : Bits) (cur : Nat) : List Nat → Option (Byte × Nat)
  | [] => none
  | n :: rest =>
    if cur + n ≤ b.length then
      match symbolOf codes (bsSlice b cur (cur + n)) with
      | some s => some (s, n)
      | none => matchLengths codes b cur rest
    else matchLengths codes b cur rest

/-- MATCH (R161): shortest length first, then lowest symbol; none is NONE. -/
def matchAt (codes : Table CodeEntry) (b : Bits) (cur : Nat) : Option (Byte × Nat) :=
  matchLengths codes b cur (codeLengths codes)

/-- DECODE's loop (R162): the bytes decoded from cursor `cur` on, `k` being emitted so far. Every match of a
code of length 1 or more moves the cursor, so `fuel` = BITS_LEN is turns enough (R240); a code of length 0,
which no valid table holds, stops the command (log entry 12). -/
def unpackFrom (codes : Table CodeEntry) (b : Bits) (outCap : Nat) :
    (fuel cur k : Nat) → Except Stop (List Byte)
  | 0, cur, _ => if cur < b.length then .error (.fault .decodeDoesNotEnd) else .ok []
  | fuel + 1, cur, k =>
    if cur < b.length then
      match matchAt codes b cur with
      | none => .error (.raise .unknownCode cur)
      | some (s, n) =>
        if k ≥ outCap then .error (.raise .bufferOverflow cur)
        else
          match unpackFrom codes b outCap fuel (cur + n) (k + 1) with
          | .ok rest => .ok (s :: rest)
          | .error e => .error e
    else .ok []

/-- DECODE after the flags are checked and cleared (R162). Bytes of OUT at or above OUT_LEN hold no specified
value (R41). -/
def decodeEffect (s : State) : Except Stop State := do
  let b ← readPayload s
  let out ← unpackFrom s.code b s.cfg.outCap s.bitsLen 0 0
  return { s with outBuf := Store.ofList out s.draw, outLen := out.length, draw := s.draw + 1 }

/-- The body of DECODE with its flags (R34, R162). -/
def decodeBody (s : State) : Except Stop State := stage .decode decodeEffect s

/-- DECODE (R162 to R165). -/
def execDecode (s : State) : Host.Outcome State Fault Refusal := runCommand decodeBody s

end Sys2Proof.Machine
end

