-- ==== Sys2Proof/Machine/Container.lean ====
section
/-! DEFINITION. The container serializer and deserializer, units CS and CD: SERIALIZE, READ, DESERIALIZE
(spec/46_container.md R170 to R181) over the blob format of spec/30_encoding.md R86 to R95. -/

namespace Sys2Proof.Machine

/-! ## The serializer -/

/-- The number of valid entries of a code table (R172). -/
def entryCount (codes : Table CodeEntry) : Nat :=
  (allSymbols.filter fun s => (tableGet codes s).isSome).length

/-- One turn of step 3 (R172): the entry of a symbol that has a code (R89). -/
def putEntry (codes : Table CodeEntry) (blob : Bits) (s : Byte) : Bits :=
  match tableGet codes s with
  | none => blob
  | some c => bsAppend (bsPut (bsPut blob 8 s.toNat) 8 c.length) c

/-- Steps 1 to 4 (R172): the blob with the pad_len field reserved and no pad yet. -/
def blobBeforePad (codes : Table CodeEntry) (payload : Bits) : Bits :=
  bsAppend (allSymbols.foldl (putEntry codes) (bsPut (zeros 3) 8 (entryCount codes % 256))) payload

/-- The blob and its pad length (R172): step 5 pads, then the reserved field is filled. -/
def blobOf (codes : Table CodeEntry) (payload : Bits) : Bits × Nat :=
  let (blob, pad) := bsPad (blobBeforePad codes payload)
  (bitsN 3 pad ++ bsSlice blob 3 blob.length, pad)

/-- SERIALIZE after the flags are checked and cleared (R172). -/
def serializeEffect (s : State) : Except Stop State := do
  let payload ← readPayload s
  let (blob, pad) := blobOf s.code payload
  if blob.length / 8 > s.cfg.outCap then .error (.raise .bufferOverflow 0)
  else
    return { s with
      outBuf := Store.ofList (bsToBytes blob) s.draw
      outLen := blob.length / 8
      padLen := BitVec.ofNat 3 pad
      draw := s.draw + 1 }

/-- The body of SERIALIZE with its flags (R34, R172). -/
def serializeBody (s : State) : Except Stop State := stage .serialize serializeEffect s

/-- SERIALIZE (R172 to R174). -/
def execSerialize (s : State) : Host.Outcome State Fault Refusal := runCommand serializeBody s

/-! ## The deserializer -/

/-- READ(N) (R175): the field and the cursor after it; a field that does not fit is MalformedContainer at
the bit where it starts. -/
def readField (b : Bits) (cur n : Nat) : Except Stop (Bits × Nat) :=
  match bsGet b cur n with
  | none => .error (.raise .malformedContainer cur)
  | some r => .ok r

/-- The entry loop of DESERIALIZE (R176) with its two checks (R177): the cursor after the last entry and the
table read. -/
def readEntries (b : Bits) : Nat → Nat → Table CodeEntry → Except Stop (Nat × Table CodeEntry)
  | 0, cur, codes => .ok (cur, codes)
  | k + 1, cur, codes => do
    let (ws, c1) ← readField b cur 8
    let sym := BitVec.ofNat 8 (val ws)
    if (tableGet codes sym).isSome then .error (.raise .malformedContainer cur)
    else do
      let (wl, c2) ← readField b c1 8
      if val wl = 0 then .error (.raise .malformedContainer c1)
      else do
        let (w, c3) ← readField b c2 (val wl)
        readEntries b k c3 (tableSet codes sym (some w))

/-- What DESERIALIZE reads out of a blob (R176). -/
structure Parsed where
  pad : Nat
  count : Nat
  codes : Table CodeEntry
  /-- The bit index where the payload starts (E of R86). -/
  start : Nat
  payload : Bits
  deriving DecidableEq, Repr

/-- The fields of a blob, read in order (R176, R179). -/
def parseBlob (bitsCap : Nat) (b : Bits) : Except Stop Parsed := do
  let (wp, c0) ← readField b 0 3
  let (wv, c1) ← readField b c0 8
  let n := if val wv = 0 then 256 else val wv
  let (cur, codes) ← readEntries b n c1 noCodes
  if cur + val wp > b.length then .error (.raise .malformedContainer cur)
  else if b.length - val wp - cur > bitsCap then .error (.raise .bufferOverflow cur)
  else
    return { pad := val wp, count := n, codes := codes, start := cur,
             payload := bsSlice b cur (b.length - val wp) }

/-- DESERIALIZE after the flags are cleared (R176). -/
def deserializeEffect (s : State) : Except Stop State := do
  checkInputLength s
  let input ← readInput s
  let p ← parseBlob s.cfg.bitsCap (bsFromBytes input)
  return { s with
    code := p.codes
    symCount := BitVec.ofNat 9 p.count
    padLen := BitVec.ofNat 3 p.pad
    bits := Store.ofList p.payload s.draw
    bitsLen := p.payload.length
    draw := s.draw + 1 }

/-- The body of DESERIALIZE with its flags (R34, R176). -/
def deserializeBody (s : State) : Except Stop State := stage .deserialize deserializeEffect s

/-- DESERIALIZE (R175 to R181). -/
def execDeserialize (s : State) : Host.Outcome State Fault Refusal := runCommand deserializeBody s

end Sys2Proof.Machine
end

