-- ==== Sys2Proof/Machine/TopLevel.lean ====
section
/-! DEFINITION. The whole-call and housekeeping commands, unit SEQ: RESET, COMPRESS, DECOMPRESS, NOP
(spec/47_top_level.md R191 to R197). -/

namespace Sys2Proof.Machine

/-- RESET (R191, R210): accepted in IDLE, DONE and ERROR; it ends in IDLE and cannot fail. -/
def execReset (s : State) : Host.Outcome State Fault Refusal :=
  match s.seq with
  | .busy => .refused .commandWhileBusy
  | .idle | .done | .error => .next (recover s)

/-- The body of COMPRESS (R193): five bodies in order as one command; the first that raises ends it. -/
def compressBody (s : State) : Except Stop State := do
  let s1 ← countBody { s with flags := s.flags.without (flagsCleared .compress) }
  let s2 ← buildBody s1
  let s3 ← assignBody s2
  let s4 ← encodeBody s3
  serializeBody s4

/-- COMPRESS (R192, R193). -/
def execCompress (s : State) : Host.Outcome State Fault Refusal := runCommand compressBody s

/-- The body of DECOMPRESS (R195): two bodies in order as one command. -/
def decompressBody (s : State) : Except Stop State := do
  let s1 ← deserializeBody { s with flags := s.flags.without (flagsCleared .decompress) }
  decodeBody s1

/-- DECOMPRESS (R194, R195). -/
def execDecompress (s : State) : Host.Outcome State Fault Refusal := runCommand decompressBody s

/-- NOP (R197): the state becomes DONE; every flag, register, table and buffer keeps its value. -/
def execNop (s : State) : Host.Outcome State Fault Refusal := runCommand .ok s

end Sys2Proof.Machine
end

