-- ==== Sys2Proof/Machine/HostPort.lean ====
section
/-! DEFINITION. The host port and the reset input: the registers by number (spec/10_state.md R22 to R33), host
reads and writes (spec/20_memory.md R60 to R62, R67, R69), and what a CMD write hands to dispatch
(spec/47_top_level.md R190, spec/60_exceptions.md R202, R209). -/

namespace Sys2Proof.Machine

/-- What a host read of register `n` returns (R22): CMD reads as 0, and so does a number that names no
register. -/
def regRead (s : State) (n : Nat) : Nat :=
  match n with
  | 1 => (statusWord s).toNat
  | 2 => s.err.toNat
  | 3 => s.errInfo
  | 4 => s.inLen
  | 5 => s.outLen
  | 6 => s.bitsLen
  | 7 => s.symCount.toNat
  | 8 => s.padLen.toNat
  | 9 => s.root.toNat
  | 10 => s.nodeCount.toNat
  | _ => 0

/-- The number of the period whose free value a host read of element `i` of a store returns where the
element has none of its own: the store's inside the space, the current one outside it (U1, U2; log
entries 6, 8). -/
def readSeed {α : Type} (s : State) (m : Store α) (cap i : Nat) : Nat := if i < cap then m.seed else s.draw

/-- Element `i` of a store of capacity `cap`, if it is inside the space and holds a value. -/
def readCell? {α : Type} (m : Store α) (cap i : Nat) : Option α := if i < cap then m.get? i else none

/-- `HostRead(space, i)` (R60, R61): the element, or a free value where the spec gives none. -/
def hostRead (s : State) (sp : Space) (i : Nat) : Datum :=
  match sp with
  | .reg => .reg (regRead s i)
  | .inBuf =>
    .byte ((readCell? s.inBuf s.cfg.inCap i).getD (freeByte (readSeed s s.inBuf s.cfg.inCap i) (.inByte i)))
  | .outBuf =>
    .byte ((readCell? s.outBuf s.cfg.outCap i).getD
      (freeByte (readSeed s s.outBuf s.cfg.outCap i) (.outByte i)))
  | .freq => .count (if i < 256 then tableGet s.freq (BitVec.ofNat 8 i) else freeCount s.cfg s.draw (.freqCount i))
  | .node =>
    .node ((readCell? s.node Config.nodeCap i).getD (freeNode s.cfg (readSeed s s.node Config.nodeCap i) i))
  | .code => .code (if i < 256 then tableGet s.code (BitVec.ofNat 8 i) else freeCode s.draw i)
  | .bits =>
    .bit ((readCell? s.bits s.cfg.bitsCap i).getD
      (freeBit (readSeed s s.bits s.cfg.bitsCap i) (.payloadBit i)))

/-- The values a register write may carry (R22, R62): a 32-bit word for CMD, a LEN_W-bit number for IN_LEN;
a write to any other register is ignored whatever it carries (log entry 9). -/
def HostAccess.fits (p : Params) : HostAccess → Bool
  | .writeReg 0 v => decide (v < 2 ^ 32)
  | .writeReg 4 v => decide (v < 2 ^ p.lenW)
  | _ => true

/-- `HostWrite(IN, i, b)` (R40, R60, R61): outside the buffer it changes nothing. -/
def writeInput (s : State) (i : Nat) (b : Byte) : State :=
  if i < s.cfg.inCap then { s with inBuf := s.inBuf.set i b } else s

/-- `HostWrite(REG, n, v)` for a register other than CMD (R22, R27): IN_LEN is stored as written, every other
write is ignored. -/
def writeRegister (s : State) (n v : Nat) : State :=
  match n with
  | 4 => { s with inLen := v }
  | _ => s

/-- What a host write other than a CMD write does. Writes to spaces the host may only read change nothing
(R60, R61). -/
def hostWrite (s : State) : HostAccess → State
  | .writeReg n v => writeRegister s n v
  | .writeIn i b => writeInput s i b
  | .read _ _ | .writeOut _ _ | .writeFreq _ _ | .writeNode _ _ | .writeCode _ _ | .writeBits _ _ => s

/-- The access at the port is taken; after a write a new period of free values begins (log entry 8). -/
def takeRead (s : State) (rest : List HostInput) : State := { s with inputs := rest }

/-- As `takeRead`, for a write. -/
def takeWrite (s : State) (rest : List HostInput) : State := { s with inputs := rest, draw := s.draw + 1 }

/-- Dispatch of an illegal word (R83, R190, R202): IllegalCommand with the word as ERR_INFO in IDLE and DONE,
nothing in ERROR (R209). -/
def illegalCommand (w : Word) (s : State) : Host.Outcome State Fault Refusal :=
  runCommand (fun _ => .error (.raise .illegalCommand w.toNat)) s

/-- What the next input comes to: a command to run, or an input that is dealt with at once. -/
inductive Fetched where
  | command (i : Instr) (s : State)
  | answered (o : Host.Outcome State Fault Refusal)

/-- A write of `v` to CMD (R23, R190). -/
def cmdWrite (v : Nat) (s : State) : Fetched :=
  match decode (BitVec.ofNat 32 v) with
  | .ok i => .command i s
  | .error _ => .answered (illegalCommand (BitVec.ofNat 32 v) s)

/-- One host access, with `rest` to follow it. While BUSY the port accepts none and holds it (R67). -/
def hostAccess (s : State) (rest : List HostInput) (a : HostAccess) : Fetched :=
  if s.seq = .busy then .answered (.next s)
  else if a.fits s.cfg then
    match a with
    | .writeReg 0 v => cmdWrite v (takeWrite s rest)
    | .read sp i => .answered (.next { takeRead s rest with portData := some (hostRead s sp i) })
    | a => .answered (.next (hostWrite (takeWrite s rest) a))
  else .answered (.refused .accessTooWide)

/-- The next input, oldest first (R69). With none the block "holds its state and does nothing" (R216). The
reset input is obeyed in every state (R230). -/
def fetch (s : State) : Fetched :=
  match s.inputs with
  | [] => .answered (.next s)
  | .hardReset :: rest => .answered (.next (hardwareReset (takeWrite s rest)))
  | .access a :: rest => hostAccess s rest a

end Sys2Proof.Machine
end

