-- ==== Sys2Proof/Machine/Step.lean ====
section
/-! DEFINITION. One step of the machine: one host input dealt with (spec/47_top_level.md R190, spec/20_memory.md
R68, R69). -/

namespace Sys2Proof.Machine

/-- One step: the next input; a CMD write of one of the eleven words runs that command to its end. -/
def step (s : State) : Host.Outcome State Fault Refusal :=
  match fetch s with
  | .command i t => exec i t
  | .answered o => o

/-- `s` with the table word `w` as the next thing the host writes to CMD, so that the next step runs it (log
entry 2). The block fetches no instructions (R21): a command comes in at the port. -/
def State.withFetchWord (s : State) (nbits w : Nat) : State :=
  { s with inputs := .access (.writeReg 0 (w % 2 ^ nbits % 2 ^ 32)) :: s.inputs }

end Sys2Proof.Machine
end

