-- ==== Sys2Proof/Safety.lean ====
section
/-! DEFINITION. The terms claims are stated in: when a command runs, what a buffer holds, what an abort leaves,
the pure functions the spec names (encode, the blob), and the invariant of the machine (spec/10_state.md
R45, R46). -/

namespace Sys2Proof.Machine

/-! ## States and buffers -/

/-- STATUS.state is IDLE or DONE: the states in which every command is legal (R84). -/
def Ready (s : State) : Prop := s.seq = .idle ∨ s.seq = .done

/-- The store holds the list from index 0 on. -/
def Store.Holds {α : Type} (m : Store α) (l : List α) : Prop := ∀ i, i < l.length → m.get? i = l[i]?

/-- The store holds the list from index 0 on, and no specified value anywhere else. -/
def Store.HoldsOnly {α : Type} (m : Store α) (l : List α) : Prop := ∀ i, m.get? i = l[i]?

/-- IN[0 : IN_LEN] is the byte list (R27, R40). -/
def InputIs (s : State) (input : List Byte) : Prop := s.inLen = input.length ∧ s.inBuf.Holds input

/-- BITS[0 : BITS_LEN] is the bit sequence (R29, R39). -/
def PayloadIs (s : State) (p : Bits) : Prop := s.bitsLen = p.length ∧ s.bits.Holds p

/-- OUT[0 : OUT_LEN] is the byte list (R28, R41). -/
def OutputIs (s : State) (out : List Byte) : Prop := s.outLen = out.length ∧ s.outBuf.Holds out

/-- Every register, flag and table at the value both columns of R44's table give it, and no element of NODE, BITS
and OUT with a value; IN is left open, since the columns differ there. -/
def AtResetValues (t : State) : Prop :=
  t.seq = .idle ∧ t.flags = Flags.clear ∧ t.err = 0 ∧ t.errInfo = 0 ∧ t.inLen = 0 ∧ t.outLen = 0 ∧
  t.bitsLen = 0 ∧ t.symCount = 0 ∧ t.padLen = 0 ∧ t.root = 0 ∧ t.nodeCount = 0 ∧
  (∀ b, tableGet t.freq b = 0) ∧ (∀ b, tableGet t.code b = none) ∧ t.pq = [] ∧
  t.node.HoldsOnly [] ∧ t.bits.HoldsOnly [] ∧ t.outBuf.HoldsOnly []

/-- What every abort of a command issued in `s` leaves in `t` (R207): ERR and ERR_INFO, state ERROR, no flag,
OUT_LEN 0; IN, IN_LEN and what is not the block's own stay. -/
def Aborted (code : BitVec 4) (info : Nat) (s t : State) : Prop :=
  t.seq = .error ∧ t.flags = Flags.clear ∧ t.err = code ∧ t.errInfo = info ∧ t.outLen = 0 ∧
  t.inBuf = s.inBuf ∧ t.inLen = s.inLen ∧ t.cfg = s.cfg ∧ t.inputs = s.inputs ∧ t.portData = s.portData

/-! ## Code tables and payloads -/

/-- A symbol's code, empty where it has none. -/
def codeOf (codes : Table CodeEntry) (b : Byte) : Bits := (tableGet codes b).getD []

/-- `encode(B, C)` (R150): the codes of the bytes, concatenated in input order. -/
def encodeBytes (codes : Table CodeEntry) (input : List Byte) : Bits := input.flatMap (codeOf codes)

/-- Every byte of the list has a code. -/
def AllCoded (codes : Table CodeEntry) (input : List Byte) : Prop :=
  ∀ b, b ∈ input → (tableGet codes b).isSome = true

/-- Every valid code has a length from 1 to 255 (R38). -/
def CodesInRange (codes : Table CodeEntry) : Prop :=
  ∀ b c, tableGet codes b = some c → codeWellFormed c = true

/-- No code is the beginning of another symbol's code (R12, R145). -/
def PrefixFree (codes : Table CodeEntry) : Prop :=
  ∀ a b ca cb, a ≠ b → tableGet codes a = some ca → tableGet codes b = some cb → ¬ ca <+: cb

/-- The valid entries in ascending symbol value (R90, R171). -/
def entriesOf (codes : Table CodeEntry) : List (Byte × Bits) :=
  allSymbols.filterMap fun b => (tableGet codes b).map fun c => (b, c)

/-- `E(s)`: one entry of the blob (R89, R171). -/
def entryBits (e : Byte × Bits) : Bits := bitsN 8 e.1.toNat ++ bitsN 8 e.2.length ++ e.2

/-- The table that has the listed entries and no other. -/
def tableOfEntries (es : List (Byte × Bits)) : Table CodeEntry :=
  tableOf fun b => (es.find? fun e => decide (e.1 = b)).map (·.2)

/-- Entries a deserializer accepts (R177): different symbols, code lengths 1 to 255. -/
def EntriesOk (es : List (Byte × Bits)) : Prop :=
  (es.map (·.1)).Nodup ∧ ∀ e, e ∈ es → codeWellFormed e.2 = true

/-- The header of a blob: the fields pad_len, symbol_count and the entries (R86). -/
def headerBits (pad count : Nat) (es : List (Byte × Bits)) : Bits :=
  bitsN 3 pad ++ bitsN 8 count ++ es.flatMap entryBits

/-- `serialize(C, p)` as one expression (R171), before it is cut into bytes. -/
def blobBits (codes : Table CodeEntry) (p : Bits) : Bits :=
  let body := bitsN 8 ((entriesOf codes).length % 256) ++ (entriesOf codes).flatMap entryBits ++ p
  let pad := (8 - (3 + body.length) % 8) % 8
  bitsN 3 pad ++ body ++ zeros pad

/-- From cursor `cur` on, MATCH after MATCH gives these symbols and brings the cursor to `stop` (R162). -/
def MatchRun (codes : Table CodeEntry) (p : Bits) : Nat → List Byte → Nat → Prop
  | cur, [], stop => cur = stop
  | cur, b :: rest, stop => ∃ n, matchAt codes p cur = some (b, n) ∧ MatchRun codes p (cur + n) rest stop

/-- From cursor `cur` on, MATCH after MATCH gives these symbols and comes to the payload's end exactly (R162). -/
def MatchesTo (codes : Table CodeEntry) (p : Bits) (cur : Nat) (out : List Byte) : Prop :=
  MatchRun codes p cur out p.length

/-! ## Commands one after another -/

/-- The commands, issued one after another from `s` on, each end in DONE, the last of them in `t`. -/
def RunStages : List Instr → State → State → Prop
  | [], s, t => s = t
  | i :: rest, s, t => ∃ u, exec i s = .next u ∧ u.seq = .done ∧ RunStages rest u t

/-- The bodies of COMPRESS, in order (R193). -/
def compressStages : List Instr := [.count, .build, .assign, .encode, .serialize]

/-- The bodies of DECOMPRESS, in order (R195). -/
def decompressStages : List Instr := [.deserialize, .decode]

/-- `u` is an error state with the error and the ERR_INFO that `t` has. -/
def SameError (t u : State) : Prop := u.seq = .error ∧ u.err = t.err ∧ u.errInfo = t.errInfo

/-! ## Trees -/

/-- The number of occurrences recorded for all symbols together. -/
def freqTotal (f : Table Nat) : Nat := (allSymbols.map (tableGet f)).sum

/-- `c` is a child of node `i`. -/
def IsChild (nodes : List NodeEntry) (i c : Nat) : Prop :=
  ∃ e, nodes[i]? = some e ∧ e.kind = .internal ∧ (e.left.toNat = c ∨ e.right.toNat = c)

/-- The index reached from index `i` along a path, 0 left and 1 right (R140). -/
def descend (nodes : List NodeEntry) : Nat → Bits → Option Nat
  | i, [] => some i
  | i, b :: path =>
    match nodes[i]? with
    | none => none
    | some e =>
      match e.kind with
      | .leaf => none
      | .internal => descend nodes (if b then e.right.toNat else e.left.toNat) path

/-! ## The invariant -/

/-- Every element of the store below `n` holds a value. -/
def Store.Specified {α : Type} (m : Store α) (n : Nat) : Prop := ∀ i, i < n → (m.get? i).isSome = true

/-- TREE_VALID: NODE, NODE_COUNT, ROOT and PQ are the result of a completed BUILD of FREQ (R24, R34). -/
structure TreeIsBuilt (s : State) : Prop where
  someSymbol : (leafForest s.freq).pq ≠ []
  nodes : s.node.HoldsOnly (buildForest s.freq).nodes
  count : s.nodeCount = BitVec.ofNat 10 (buildForest s.freq).nodes.length
  root : s.root = BitVec.ofNat 9 ((buildForest s.freq).pq.headD 0)
  queue : s.pq = (buildForest s.freq).pq

/-- The invariant every step keeps: the canonical forms, the widths and ranges of R22 to R46, and what the
valid flags promise (R24, R25, R26, R28, R46). -/
structure Inv (s : State) : Prop where
  /-- The parameters meet R6's constraints. -/
  params : s.cfg.wf = true
  /-- The buffers are canonical and within their capacities (R60). -/
  inBuf : Memory.wf s.inBuf s.cfg.inCap = true
  outBuf : Memory.wf s.outBuf s.cfg.outCap = true
  node : s.node.wf Config.nodeCap = true
  bits : s.bits.wf s.cfg.bitsCap = true
  /-- PQ is a set of at most 256 NODE indices (R37). -/
  queue : s.pq.Pairwise (· < ·) ∧ s.pq.length ≤ Config.pqCap ∧ ∀ i, i ∈ s.pq → i < Config.nodeCap
  /-- Between steps no command is running (R67, R68). -/
  notBusy : s.seq ≠ .busy
  /-- ERR and ERR_INFO are 0 unless the state is ERROR (R25, R26). -/
  noError : s.seq ≠ .error → s.err = 0 ∧ s.errInfo = 0
  /-- In ERROR, ERR is one of the codes 1 to 8, no flag is set and OUT_LEN is 0 (R25, R207). -/
  inError : s.seq = .error → 1 ≤ s.err.toNat ∧ s.err.toNat ≤ 8 ∧ s.flags = Flags.clear ∧ s.outLen = 0
  /-- The registers of parametric width fit it (R22, R45). -/
  widths : s.inLen < 2 ^ s.cfg.lenW ∧ s.outLen < 2 ^ s.cfg.lenW ∧ s.bitsLen < 2 ^ s.cfg.bitposW ∧
    s.errInfo < 2 ^ s.cfg.bitposW
  /-- SYM_COUNT, ROOT and NODE_COUNT are in range (R30, R32, R33). -/
  ranges : s.symCount.toNat ≤ 256 ∧ s.root.toNat ≤ 510 ∧ s.nodeCount.toNat ≤ 511
  /-- Every count fits LEN_W bits (R35, R45). -/
  freqWidth : ∀ b, tableGet s.freq b < 2 ^ s.cfg.lenW
  /-- Every code fits CODE's 255 bits (R38). -/
  codeWidth : ∀ b c, tableGet s.code b = some c → c.length ≤ Config.codeMax
  /-- FREQ_VALID: the counts add up to an input's length, and SYM_COUNT counts the symbols (R46 (a)). -/
  freqValid : s.flags.freqValid = true →
    freqTotal s.freq ≤ s.cfg.inCap ∧ s.symCount.toNat = distinctSymbols s.freq
  /-- TREE_VALID: there is a tree, built from FREQ (R46 (b), (c)). -/
  treeValid : s.flags.treeValid = true → s.flags.freqValid = true ∧ TreeIsBuilt s
  /-- CODE_VALID: SYM_COUNT valid entries, at least one, each code of length 1 to 255 (R46 (d), R173). -/
  codeValid : s.flags.codeValid = true →
    CodesInRange s.code ∧ 1 ≤ entryCount s.code ∧ s.symCount.toNat = entryCount s.code
  /-- CODE_VALID beside TREE_VALID: the codes are ASSIGN's, and so prefix-free (R46 (d)). -/
  codeOfTree : s.flags.treeValid = true → s.flags.codeValid = true → PrefixFree s.code
  /-- BITS_VALID: every bit of BITS[0 : BITS_LEN] has a value, and there is a code table (R24). -/
  bitsValid : s.flags.bitsValid = true → s.bits.Specified s.bitsLen ∧ s.flags.codeValid = true
  /-- OUT_VALID: every byte of OUT[0 : OUT_LEN] has a value (R24). -/
  outValid : s.flags.outValid = true → s.outBuf.Specified s.outLen ∧ s.outLen ≤ s.cfg.outCap

end Sys2Proof.Machine
end

