-- ==== Sys2Proof/Certificates/Slice0/Obligations.lean ====
section
/-! DEFINITION. The statements for the provers, in the order of OBLIGATIONS.json: the command word, reset and
dispatch, the host port, errors, then each command family, the whole calls, and the invariant. -/

open Sys2Proof Sys2Proof.Machine

/-! ## The command word (spec/30_encoding.md) -/

/-- R81: sample words of every command family, written out from the opcode map, decode to their commands, and
neighbours of them do not. -/
def Obligations.OpcodeWordsDecodeToTheirCommands : Prop :=
  decode 0x00000001#32 = .ok .reset ∧ decode 0x00000002#32 = .ok .count ∧
  decode 0x00000003#32 = .ok .build ∧ decode 0x00000004#32 = .ok .assign ∧
  decode 0x00000005#32 = .ok .encode ∧ decode 0x00000006#32 = .ok .serialize ∧
  decode 0x00000007#32 = .ok .deserialize ∧ decode 0x00000008#32 = .ok .decode ∧
  decode 0x00000009#32 = .ok .compress ∧ decode 0x0000000A#32 = .ok .decompress ∧
  decode 0x0000000B#32 = .ok .nop ∧
  (decode 0x00000000#32).toOption = none ∧ (decode 0x0000000C#32).toOption = none ∧
  (decode 0x00000109#32).toOption = none ∧ (decode 0xFFFFFFFF#32).toOption = none

/-- R83, R80: every word is one of the eleven commands or illegal. A word decodes to a command exactly when it
is that command's word, and it is illegal exactly when bits [31:8] are not all 0 or the opcode is 0x00 or
0x0C to 0xFF. -/
def Obligations.DecodeAcceptsExactlyTheElevenWords : Prop :=
  (∀ (w : Word) (i : Instr), decode w = .ok i ↔ w = encode i) ∧
  (∀ w : Word, (decode w).toOption = none ↔
    w.extractLsb 31 8 ≠ 0 ∨ w.extractLsb 7 0 = 0 ∨ 0x0B < (w.extractLsb 7 0).toNat)

/-! ## Reset and dispatch (spec/70_reset_and_hazards.md, spec/47_top_level.md) -/

/-- R44, first column: the state right after reset has every register, flag and table at its reset value and no
element of NODE, BITS, OUT or IN with a value. -/
def Obligations.ResetStateHasTheResetValues : Prop :=
  AtResetValues State.reset ∧ State.reset.inBuf.HoldsOnly []

/-- R230, R231: asserting the reset input, in any state, a command running or not, leaves every piece of state at
its reset value, IN's bytes unspecified too, and the block waiting for the host. -/
def Obligations.HardwareResetLeavesTheResetValues : Prop :=
  ∀ (s : State) (rest : List HostInput), s.inputs = .hardReset :: rest →
    ∃ t, step s = .next t ∧ AtResetValues t ∧ t.inBuf.HoldsOnly [] ∧ t.inputs = rest ∧ t.cfg = s.cfg

/-- R191, R44 (second column), R210: RESET, in IDLE, DONE and ERROR, returns every register, flag and table to
its reset value and ends in IDLE; IN keeps its bytes; NODE, BITS and OUT hold no value. -/
def Obligations.ResetCommandRestoresTheResetValues : Prop :=
  ∀ s : State, s.seq ≠ .busy →
    ∃ t, exec .reset s = .next t ∧ AtResetValues t ∧
      t.inBuf = s.inBuf ∧ t.inputs = s.inputs ∧ t.cfg = s.cfg ∧ t.portData = s.portData

/-- R190, R23: a host write to CMD of a word that decodes to command i runs exec of i, on the state with the
access taken (the model's own counter of free-value periods moves on too, log entry 8). -/
def Obligations.StepRunsTheDecodedCommand : Prop :=
  ∀ (s : State) (w : Word) (i : Instr) (rest : List HostInput),
    s.inputs = .access (.writeReg 0 w.toNat) :: rest → s.seq ≠ .busy → decode w = .ok i →
    step s = exec i { s with inputs := rest, draw := s.draw + 1 }

/-- R202, R83, R207: an illegal word written to CMD in IDLE or DONE raises IllegalCommand: the abort's state, with the
word as ERR_INFO where BITPOS_W bits hold it, as with the default widths. Where they do not, the spec states no value
and ERR_INFO is some number of BITPOS_W bits (the model's choice, log entry 10); all else is as ever. -/
def Obligations.IllegalWordRaisesIllegalCommand : Prop :=
  ∀ (s : State) (w : Word) (rest : List HostInput),
    s.inputs = .access (.writeReg 0 w.toNat) :: rest → Ready s →
    (w.extractLsb 31 8 ≠ 0 ∨ w.extractLsb 7 0 = 0 ∨ 0x0B < (w.extractLsb 7 0).toNat) →
    ∃ t, step s = .next t ∧ Aborted 5 t.errInfo { s with inputs := rest } t ∧
      (w.toNat < 2 ^ s.cfg.bitposW → t.errInfo = w.toNat) ∧ t.errInfo < 2 ^ s.cfg.bitposW

/-- R209: in ERROR a CMD write of any word but RESET's changes nothing, legal or illegal; host reads of REG and
of IN work as usual, and host writes to IN and IN_LEN are accepted. -/
def Obligations.ErrorStateIgnoresAllButReset : Prop :=
  ∀ (s : State) (rest : List HostInput), s.seq = .error →
    (∀ i : Instr, i ≠ .reset → exec i s = .next s) ∧
    (∀ w : Word, w ≠ 0x00000001#32 → s.inputs = .access (.writeReg 0 w.toNat) :: rest →
      step s = .next { s with inputs := rest, draw := s.draw + 1 }) ∧
    (∀ n, s.inputs = .access (.read .reg n) :: rest →
      step s = .next { s with inputs := rest, portData := some (.reg (regRead s n)) }) ∧
    (∀ i b, s.inputs = .access (.read .inBuf i) :: rest → i < s.cfg.inCap → s.inBuf.get? i = some b →
      step s = .next { s with inputs := rest, portData := some (.byte b) }) ∧
    (∀ i b, s.inputs = .access (.writeIn i b) :: rest → i < s.cfg.inCap →
      step s = .next { s with inputs := rest, draw := s.draw + 1, inBuf := s.inBuf.set i b }) ∧
    (∀ v, s.inputs = .access (.writeReg 4 v) :: rest → v < 2 ^ s.cfg.lenW →
      step s = .next { s with inputs := rest, draw := s.draw + 1, inLen := v })

/-- R197: NOP in IDLE or DONE makes the state DONE; every flag, register, table and buffer keeps its value. -/
def Obligations.NopOnlyMovesToDone : Prop :=
  ∀ s : State, Ready s → exec .nop s = .next { s with seq := .done }

/-- R216: with nothing presented the block does nothing. R67 as the model carries it out: in a state with BUSY the
port holds an access. The second clause is the model's choice (log entry 11): commands are atomic, and no run
reaches such a state. -/
def Obligations.BlockIdlesAndHoldsTheBusyPort : Prop :=
  ∀ s : State,
    (s.inputs = [] → step s = .next s) ∧
    (∀ (a : HostAccess) (rest : List HostInput), s.seq = .busy → s.inputs = .access a :: rest →
      step s = .next s)

/-! ## The host port (spec/10_state.md, spec/20_memory.md) -/

/-- R24: STATUS holds the state in bits [1:0], 0 in [3:2] and the five flags in [4] to [8]. -/
def Obligations.StatusWordFields : Prop :=
  ∀ s : State,
    (statusWord s).extractLsb 1 0 =
      (match s.seq with | .idle => 0#2 | .busy => 1#2 | .done => 2#2 | .error => 3#2) ∧
    (statusWord s).extractLsb 3 2 = 0#2 ∧
    (statusWord s).getLsbD 4 = s.flags.freqValid ∧ (statusWord s).getLsbD 5 = s.flags.treeValid ∧
    (statusWord s).getLsbD 6 = s.flags.codeValid ∧ (statusWord s).getLsbD 7 = s.flags.bitsValid ∧
    (statusWord s).getLsbD 8 = s.flags.outValid

/-- R22: a host read of a register returns it by its number; CMD and the numbers above 10 read as 0. No read
changes anything else (R61). -/
def Obligations.RegisterReadsByNumber : Prop :=
  ∀ (s : State) (rest : List HostInput) (n : Nat), s.seq ≠ .busy → s.inputs = .access (.read .reg n) :: rest →
    ∃ v, step s = .next { s with inputs := rest, portData := some (.reg v) } ∧
      (n = 0 → v = 0) ∧ (n = 1 → v = (statusWord s).toNat) ∧ (n = 2 → v = s.err.toNat) ∧
      (n = 3 → v = s.errInfo) ∧ (n = 4 → v = s.inLen) ∧ (n = 5 → v = s.outLen) ∧ (n = 6 → v = s.bitsLen) ∧
      (n = 7 → v = s.symCount.toNat) ∧ (n = 8 → v = s.padLen.toNat) ∧ (n = 9 → v = s.root.toNat) ∧
      (n = 10 → v = s.nodeCount.toNat) ∧ (10 < n → v = 0)

/-- R61, R60: a host read returns the element of a table or buffer where it has a value, and changes nothing
but the port's answer. -/
def Obligations.HostReadsReturnTheElement : Prop :=
  ∀ (s : State) (rest : List HostInput) (sp : Space) (i : Nat), s.seq ≠ .busy →
    s.inputs = .access (.read sp i) :: rest →
    ∃ d, step s = .next { s with inputs := rest, portData := some d } ∧
      (∀ b, sp = .inBuf → i < s.cfg.inCap → s.inBuf.get? i = some b → d = .byte b) ∧
      (∀ b, sp = .outBuf → i < s.cfg.outCap → s.outBuf.get? i = some b → d = .byte b) ∧
      (∀ e, sp = .node → i < 511 → s.node.get? i = some e → d = .node e) ∧
      (∀ b, sp = .bits → i < s.cfg.bitsCap → s.bits.get? i = some b → d = .bit b) ∧
      (sp = .freq → i < 256 → d = .count (tableGet s.freq (BitVec.ofNat 8 i))) ∧
      (sp = .code → i < 256 → d = .code (tableGet s.code (BitVec.ofNat 8 i)))

/-- R61, R40: after a host write of IN[i] inside the buffer that element is the byte written, every other
element is as before, and nothing else changes; outside the buffer the write changes nothing. -/
def Obligations.HostWriteToInputBuffer : Prop :=
  ∀ (s : State) (rest : List HostInput) (i : Nat) (b : Byte), s.seq ≠ .busy →
    s.inputs = .access (.writeIn i b) :: rest →
    ∃ t, step s = .next t ∧
      t = { s with inputs := rest, draw := s.draw + 1, inBuf := t.inBuf } ∧
      (i < s.cfg.inCap → t.inBuf.get? i = some b ∧ ∀ j, j ≠ i → t.inBuf.get? j = s.inBuf.get? j) ∧
      (s.cfg.inCap ≤ i → t.inBuf = s.inBuf)

/-- R22, R60, R27: IN_LEN is stored as written, above IN_CAP too; a write to a read-only register or to a number
that names none, and a write to a space the host may only read, changes nothing (the counter of free-value periods,
which moves on at every host write, is the model's own, log entry 8). -/
def Obligations.OtherHostWritesStoreInLenOrNothing : Prop :=
  ∀ (s : State) (rest : List HostInput) (a : HostAccess), s.seq ≠ .busy → s.inputs = .access a :: rest →
    (∀ v, a = .writeReg 4 v → v < 2 ^ s.cfg.lenW →
      step s = .next { s with inputs := rest, draw := s.draw + 1, inLen := v }) ∧
    (∀ n v, a = .writeReg n v → n ≠ 0 → n ≠ 4 →
      step s = .next { s with inputs := rest, draw := s.draw + 1 }) ∧
    ((∃ i b, a = .writeOut i b) ∨ (∃ i v, a = .writeFreq i v) ∨ (∃ i e, a = .writeNode i e) ∨
      (∃ i c, a = .writeCode i c) ∨ (∃ i b, a = .writeBits i b) →
      step s = .next { s with inputs := rest, draw := s.draw + 1 })

/-! ## Flags, aborts and what commands may write -/

/-- R34: what a completed command does to the flags, command by command; on any abort all five are clear; host
writes to IN and IN_LEN change none. -/
def Obligations.FlagTableOfAllCommands : Prop :=
  (∀ (i : Instr) (s t : State), exec i s = .next t → s.seq ≠ .error → t.seq ≠ .error →
    t.flags =
      match i with
      | .reset => Flags.clear
      | .count => { Flags.clear with freqValid := true }
      | .build => { Flags.clear with freqValid := s.flags.freqValid, treeValid := true }
      | .assign =>
        { Flags.clear with freqValid := s.flags.freqValid, treeValid := s.flags.treeValid, codeValid := true }
      | .encode => { s.flags with bitsValid := true, outValid := false }
      | .serialize => { s.flags with outValid := true }
      | .deserialize => { Flags.clear with codeValid := true, bitsValid := true }
      | .decode => { s.flags with outValid := true }
      | .compress => ⟨true, true, true, true, true⟩
      | .decompress => ⟨false, false, true, true, true⟩
      | .nop => s.flags) ∧
  (∀ (i : Instr) (s t : State), exec i s = .next t → s.seq ≠ .error → t.seq = .error →
    t.flags = Flags.clear) ∧
  (∀ (s t : State) (rest : List HostInput) (a : HostAccess), s.inputs = .access a :: rest →
    ((∃ k b, a = .writeIn k b) ∨ ∃ v, a = .writeReg 4 v) → step s = .next t → t.flags = s.flags)

/-- R207: whichever command aborts, ERR is one of the codes 1 to 8, the state is ERROR, the flags and OUT_LEN are
0, and IN and IN_LEN are unchanged. -/
def Obligations.EveryAbortLeavesTheErrorState : Prop :=
  ∀ (i : Instr) (s t : State), Ready s → exec i s = .next t → t.seq = .error →
    1 ≤ t.err.toNat ∧ t.err.toNat ≤ 8 ∧ t.flags = Flags.clear ∧ t.outLen = 0 ∧
    t.inBuf = s.inBuf ∧ t.inLen = s.inLen ∧ t.cfg = s.cfg ∧ t.inputs = s.inputs ∧ t.portData = s.portData

/-- R203: a staged command whose flags are not all set raises BadSequence with its opcode as ERR_INFO. No command raises
it otherwise: not a staged command with its flags set, not COUNT, DESERIALIZE, NOP or RESET, and not COMPRESS or
DECOMPRESS. -/
def Obligations.BadSequenceExactlyInStagedCommands : Prop :=
  (∀ s : State, Ready s →
    (s.flags.freqValid = false → ∃ t, exec .build s = .next t ∧ Aborted 6 0x03 s t) ∧
    (s.flags.treeValid = false → ∃ t, exec .assign s = .next t ∧ Aborted 6 0x04 s t) ∧
    (s.flags.codeValid = false → ∃ t, exec .encode s = .next t ∧ Aborted 6 0x05 s t) ∧
    (s.flags.codeValid = false ∨ s.flags.bitsValid = false →
      (∃ t, exec .serialize s = .next t ∧ Aborted 6 0x06 s t) ∧
      ∃ t, exec .decode s = .next t ∧ Aborted 6 0x08 s t)) ∧
  (∀ (i : Instr) (s t : State), Ready s → exec i s = .next t → t.seq = .error → t.err = 6 →
    (i = .build ∧ s.flags.freqValid = false) ∨ (i = .assign ∧ s.flags.treeValid = false) ∨
    (i = .encode ∧ s.flags.codeValid = false) ∨
    ((i = .serialize ∨ i = .decode) ∧ (s.flags.codeValid = false ∨ s.flags.bitsValid = false)))

/-- R205, first place: IN_LEN above IN_CAP is BufferOverflow(0), before any byte of IN is read. -/
def Obligations.InputLongerThanBufferOverflows : Prop :=
  ∀ (i : Instr) (s : State), Ready s → s.cfg.inCap < s.inLen →
    (i = .count ∨ i = .deserialize ∨ i = .compress ∨ i = .decompress ∨
      (i = .encode ∧ s.flags.codeValid = true)) →
    ∃ t, exec i s = .next t ∧ Aborted 8 0 s t

/-- R232 with log entry 5: a command that reads IN stops with a fault at the first byte the host has not
written; ENCODE, which works byte by byte, where it gets so far: the bytes before it have codes and their payload fits
BITS_CAP. (The choice of a fault is the model's, among the two the rule allows.) -/
def Obligations.UnwrittenInputByteFaults : Prop :=
  (∀ (i : Instr) (s : State) (k : Nat), Ready s → s.inLen ≤ s.cfg.inCap → k < s.inLen →
    s.inBuf.get? k = none → (∀ j, j < k → (s.inBuf.get? j).isSome = true) →
    i = .count ∨ i = .deserialize ∨ i = .compress ∨ i = .decompress →
    exec i s = .fault (.unwrittenInput k)) ∧
  (∀ (s : State) (before : List Byte), Ready s → s.flags.codeValid = true → s.inLen ≤ s.cfg.inCap →
    before.length < s.inLen → s.inBuf.Holds before → s.inBuf.get? before.length = none →
    AllCoded s.code before → (encodeBytes s.code before).length ≤ s.cfg.bitsCap →
    exec .encode s = .fault (.unwrittenInput before.length))

/-- R82, column "writes" (with R40: IN is "never written by the block"): a completed command changes no home but
its own, and STATUS; ERR and ERR_INFO stay too. -/
def Obligations.CommandsWriteOnlyTheirHomes : Prop :=
  ∀ (i : Instr) (s t : State), Ready s → exec i s = .next t → t.seq = .done →
    t.inBuf = s.inBuf ∧ t.inLen = s.inLen ∧ t.err = s.err ∧ t.errInfo = s.errInfo ∧ t.cfg = s.cfg ∧
    t.inputs = s.inputs ∧ t.portData = s.portData ∧
    (i ∉ [.count, .compress] → t.freq = s.freq) ∧
    (i ∉ [.count, .deserialize, .compress, .decompress] → t.symCount = s.symCount) ∧
    (i ∉ [.build, .compress] →
      t.node = s.node ∧ t.nodeCount = s.nodeCount ∧ t.root = s.root ∧ t.pq = s.pq) ∧
    (i ∉ [.assign, .deserialize, .compress, .decompress] → t.code = s.code) ∧
    (i ∉ [.encode, .deserialize, .compress, .decompress] → t.bits = s.bits ∧ t.bitsLen = s.bitsLen) ∧
    (i ∉ [.serialize, .decode, .compress, .decompress] → t.outBuf = s.outBuf ∧ t.outLen = s.outLen) ∧
    (i ∉ [.serialize, .deserialize, .compress, .decompress] → t.padLen = s.padLen)

/-! ## COUNT (spec/41_frequency.md) -/

/-- R111, R110: COUNT of an input the host has written completes; FREQ[s] is the number of bytes equal to s, the
counts add up to the input's length, SYM_COUNT is the number of different bytes, and nothing else changes. -/
def Obligations.CountTabulatesTheInput : Prop :=
  ∀ (s : State) (input : List Byte), Ready s → InputIs s input → s.inLen ≤ s.cfg.inCap →
    ∃ t, exec .count s = .next t ∧
      (∀ b, tableGet t.freq b = input.count b) ∧
      freqTotal t.freq = s.inLen ∧
      t.symCount.toNat = input.dedup.length ∧
      t = { s with seq := .done, flags := { Flags.clear with freqValid := true }, freq := t.freq,
                   symCount := t.symCount }

/-- R112, R126: COUNT of an empty input completes with the empty table; the BUILD after it raises
EmptyInput(0). -/
def Obligations.EmptyInputIsBuildsError : Prop :=
  ∀ s : State, Ready s → s.inLen = 0 →
    ∃ t, exec .count s = .next t ∧ t.seq = .done ∧ (∀ b, tableGet t.freq b = 0) ∧ t.symCount = 0 ∧
      t.flags.freqValid = true ∧ ∃ u, exec .build t = .next u ∧ Aborted 1 0 t u

/-! ## BUILD (spec/42_tree_builder.md) -/

/-- R126, R127, R128: with a symbol of count above 0, BUILD completes: for n such symbols NODE holds 2n − 1
entries, first the n leaves in ascending symbol value with their counts, then internal nodes; NODE_COUNT is
2n − 1, ROOT is 2n − 2, PQ holds exactly ROOT; nothing else changes. -/
def Obligations.BuildWritesLeavesThenInternalNodes : Prop :=
  ∀ s : State, Ready s → s.flags.freqValid = true → 0 < distinctSymbols s.freq →
    ∃ (t : State) (nodes : List NodeEntry), exec .build s = .next t ∧
      t.node.HoldsOnly nodes ∧ nodes.length = 2 * distinctSymbols s.freq - 1 ∧
      t.nodeCount.toNat = nodes.length ∧ t.root.toNat = nodes.length - 1 ∧ t.pq = [nodes.length - 1] ∧
      nodes.take (distinctSymbols s.freq) =
        (allSymbols.filter fun b => decide (0 < tableGet s.freq b)).map (fun b =>
          { kind := .leaf, sym := b, freq := tableGet s.freq b, left := 0, right := 0 }) ∧
      (∀ (k : Nat) (e : NodeEntry), distinctSymbols s.freq ≤ k → nodes[k]? = some e → e.kind = .internal ∧ e.sym = 0) ∧
      t = { s with
              seq := .done
              flags := { Flags.clear with freqValid := true, treeValid := true }
              node := t.node, nodeCount := t.nodeCount, root := t.root, pq := t.pq, draw := t.draw }

/-- R129 (a), (b), R46 (b), (c), R125: in the tree BUILD leaves, an internal node's frequency is the sum of its
two children's, both children have smaller indices and differ, every index below ROOT is a child of exactly one
internal node, every leaf's frequency is above 0, and ROOT's frequency is the sum of all counts. -/
def Obligations.BuildMakesAStrictWeightedTree : Prop :=
  ∀ (s t : State) (nodes : List NodeEntry), Ready s → s.flags.freqValid = true → exec .build s = .next t →
    t.seq = .done → t.node.HoldsOnly nodes →
    (∀ (k : Nat) (e : NodeEntry), nodes[k]? = some e → e.kind = .internal →
      e.left.toNat < k ∧ e.right.toNat < k ∧ e.left ≠ e.right ∧
      e.freq = nodeFreq nodes e.left.toNat + nodeFreq nodes e.right.toNat) ∧
    (∀ (k : Nat) (e : NodeEntry), nodes[k]? = some e → e.kind = .leaf → 0 < e.freq) ∧
    (∀ c, c < t.root.toNat → ∃ p, IsChild nodes p c ∧ ∀ q, IsChild nodes q c → q = p) ∧
    (∀ p, ¬ IsChild nodes p t.root.toNat) ∧
    nodeFreq nodes t.root.toNat = freqTotal s.freq

/-- R121, R122, R125, R126: each internal node combines the two least nodes not yet combined: at the internal
node k, of the indices below k that no internal node below k has as a child, `left` has the least key
(freq, index) and `right` the next. -/
def Obligations.BuildCombinesTheTwoLeastNodes : Prop :=
  ∀ (s t : State) (nodes : List NodeEntry), Ready s → s.flags.freqValid = true → exec .build s = .next t →
    t.seq = .done → t.node.HoldsOnly nodes →
    ∀ (k : Nat) (e : NodeEntry), nodes[k]? = some e → e.kind = .internal →
      (∀ p, p < k → ¬ IsChild nodes p e.left.toNat ∧ ¬ IsChild nodes p e.right.toNat) ∧
      (∀ j, j < k → (∀ p, p < k → ¬ IsChild nodes p j) → j ≠ e.left.toNat →
        nodeFreq nodes e.left.toNat < nodeFreq nodes j ∨
          (nodeFreq nodes e.left.toNat = nodeFreq nodes j ∧ e.left.toNat < j)) ∧
      (∀ j, j < k → (∀ p, p < k → ¬ IsChild nodes p j) → j ≠ e.left.toNat → j ≠ e.right.toNat →
        nodeFreq nodes e.right.toNat < nodeFreq nodes j ∨
          (nodeFreq nodes e.right.toNat = nodeFreq nodes j ∧ e.right.toNat < j))

/-! ## ASSIGN (spec/43_code_table.md) -/

/-- R142, R140, R145 (a): ASSIGN of a tree BUILD made completes; exactly the symbols with a count above 0 get a
code, and with two or more of them a code is the path from ROOT to that symbol's leaf, 0 left and 1 right;
nothing else changes. -/
def Obligations.AssignCodesAreRootToLeafPaths : Prop :=
  ∀ s : State, Ready s → s.flags.treeValid = true → TreeIsBuilt s →
    ∃ (t : State) (nodes : List NodeEntry), exec .assign s = .next t ∧ s.node.HoldsOnly nodes ∧
      (∀ b, (tableGet t.code b).isSome = true ↔ 0 < tableGet s.freq b) ∧
      (1 < distinctSymbols s.freq → ∀ b c, tableGet t.code b = some c →
        ∃ (j : Nat) (e : NodeEntry), descend nodes s.root.toNat c = some j ∧ nodes[j]? = some e ∧ e.kind = .leaf ∧ e.sym = b) ∧
      t = { s with
              seq := .done
              flags := { Flags.clear with
                freqValid := s.flags.freqValid, treeValid := true, codeValid := true }
              code := t.code }

/-- R143: a single-leaf tree gives its symbol the 1-bit code "0", and no other symbol a code. -/
def Obligations.SingleLeafGetsTheCodeZero : Prop :=
  ∀ (s : State) (e : NodeEntry), Ready s → s.flags.treeValid = true → s.node.get? s.root.toNat = some e →
    e.kind = .leaf →
    ∃ t, exec .assign s = .next t ∧ t.seq = .done ∧ tableGet t.code e.sym = some [false] ∧
      ∀ b, b ≠ e.sym → tableGet t.code b = none

/-- R145 (b), (d), R129 (c), R144: BUILD then ASSIGN of any frequency table with a symbol in it gives a code
table that is prefix-free, with every code 1 to 255 bits long: CodeLengthOverflow cannot occur. -/
def Obligations.BuildThenAssignIsPrefixFree : Prop :=
  ∀ s : State, Ready s → s.flags.freqValid = true → 0 < distinctSymbols s.freq →
    ∃ t u, exec .build s = .next t ∧ exec .assign t = .next u ∧ u.seq = .done ∧
      PrefixFree u.code ∧ CodesInRange u.code

/-! ## ENCODE (spec/44_packer.md) -/

/-- R150, R151, R152: ENCODE of an input all of whose bytes have codes, and whose payload fits BITS_CAP, completes
with BITS[0 : BITS_LEN] the codes concatenated in input order, and writes nothing else. -/
def Obligations.EncodeConcatenatesTheCodes : Prop :=
  ∀ (s : State) (input : List Byte), Ready s → s.flags.codeValid = true → InputIs s input →
    s.inLen ≤ s.cfg.inCap → AllCoded s.code input → (encodeBytes s.code input).length ≤ s.cfg.bitsCap →
    ∃ t, exec .encode s = .next t ∧ PayloadIs t (encodeBytes s.code input) ∧
      t.bits.HoldsOnly (encodeBytes s.code input) ∧
      t = { s with
              seq := .done
              flags := { s.flags with bitsValid := true, outValid := false }
              bits := t.bits, bitsLen := t.bitsLen, draw := t.draw }

/-- R204, R208: the least i whose byte has no code is MissingCode(i), where the payload of the bytes before it
fits. -/
def Obligations.EncodeReportsTheFirstMissingCode : Prop :=
  ∀ (s : State) (before after : List Byte) (b : Byte), Ready s → s.flags.codeValid = true →
    InputIs s (before ++ b :: after) → s.inLen ≤ s.cfg.inCap → s.inLen < 2 ^ s.cfg.lenW →
    AllCoded s.code before → (encodeBytes s.code before).length ≤ s.cfg.bitsCap →
    tableGet s.code b = none →
    ∃ t, exec .encode s = .next t ∧ Aborted 7 before.length s t

/-- R205, R151: the first byte whose code would take the payload past BITS_CAP is BufferOverflow(its index). -/
def Obligations.EncodeOverflowsAtTheFirstByteTooMany : Prop :=
  ∀ (s : State) (before after : List Byte) (b : Byte), Ready s → s.flags.codeValid = true →
    InputIs s (before ++ b :: after) → s.inLen ≤ s.cfg.inCap → s.inLen < 2 ^ s.cfg.lenW →
    AllCoded s.code (before ++ [b]) → (encodeBytes s.code before).length ≤ s.cfg.bitsCap →
    s.cfg.bitsCap < (encodeBytes s.code (before ++ [b])).length →
    ∃ t, exec .encode s = .next t ∧ Aborted 8 before.length s t

/-! ## SERIALIZE and DESERIALIZE (spec/46_container.md, spec/30_encoding.md) -/

/-- R171, R172, R170: SERIALIZE of a table and a payload whose blob fits OUT_CAP completes with OUT the bytes of
the one expression, OUT_LEN their number and PAD_LEN the pad, and writes nothing else. -/
def Obligations.SerializeWritesTheBlobExpression : Prop :=
  ∀ (s : State) (p : Bits), Ready s → s.flags.codeValid = true → s.flags.bitsValid = true → PayloadIs s p →
    (blobBits s.code p).length / 8 ≤ s.cfg.outCap →
    ∃ t, exec .serialize s = .next t ∧
      OutputIs t (bsToBytes (blobBits s.code p)) ∧ t.outBuf.HoldsOnly (bsToBytes (blobBits s.code p)) ∧
      bsFromBytes (bsToBytes (blobBits s.code p)) = blobBits s.code p ∧
      t.padLen.toNat = val ((blobBits s.code p).take 3) ∧
      t = { s with
              seq := .done
              flags := { s.flags with outValid := true }
              outBuf := t.outBuf, outLen := t.outLen, padLen := t.padLen, draw := t.draw }

/-- R205: a blob of more than OUT_CAP bytes is BufferOverflow(0) from SERIALIZE. -/
def Obligations.SerializeOverflowsOutCap : Prop :=
  ∀ (s : State) (p : Bits), Ready s → s.flags.codeValid = true → s.flags.bitsValid = true → PayloadIs s p →
    s.cfg.outCap < (blobBits s.code p).length / 8 →
    ∃ t, exec .serialize s = .next t ∧ Aborted 8 0 s t

/-- R93, R87: a blob of n entries and payload length P has 11 + 16n + Σ len + P + pad bits, a multiple of 8, with
a pad of 0 to 7. -/
def Obligations.BlobLengthFormula : Prop :=
  ∀ (codes : Table CodeEntry) (p : Bits),
    (blobBits codes p).length % 8 = 0 ∧
    ∃ pad, pad ≤ 7 ∧
      (blobBits codes p).length =
        11 + 16 * (entriesOf codes).length + ((entriesOf codes).map fun e => e.2.length).sum + p.length + pad

/-- R176, R86, R90, R92, R178: DESERIALIZE of a blob that is a header with n entries (in any order, different
symbols, lengths 1 to 255), a payload and `pad` bits of any value completes with exactly that table, that
payload, SYM_COUNT = n and PAD_LEN = pad, and writes nothing else. -/
def Obligations.DeserializeReadsTheFields : Prop :=
  ∀ (s : State) (input : List Byte) (es : List (Byte × Bits)) (p padBits : Bits), Ready s → InputIs s input →
    s.inLen ≤ s.cfg.inCap → EntriesOk es → 1 ≤ es.length → padBits.length ≤ 7 →
    bsFromBytes input = headerBits padBits.length (es.length % 256) es ++ p ++ padBits →
    p.length ≤ s.cfg.bitsCap →
    ∃ t, exec .deserialize s = .next t ∧ t.code = tableOfEntries es ∧ PayloadIs t p ∧ t.bits.HoldsOnly p ∧
      t.symCount.toNat = es.length ∧ t.padLen.toNat = padBits.length ∧
      t = { s with
              seq := .done
              flags := { Flags.clear with codeValid := true, bitsValid := true }
              code := t.code, symCount := t.symCount, padLen := t.padLen, bits := t.bits,
              bitsLen := t.bitsLen, draw := t.draw }

/-- R175, R176, R177, R179, R206: after k good entries of a blob that declares more, MalformedContainer is raised at the
next entry's symbol field when fewer than 8 bits are left or its symbol is a repeated one; at its length field when
fewer than 8 bits are left there or it is 0; and at its code field when fewer bits are left than the length says; after
all entries, at the payload's start when the pad is longer than what is left. -/
def Obligations.DeserializeRejectsMalformedBlobs : Prop :=
  ∀ (s : State) (input : List Byte) (es : List (Byte × Bits)) (pad count : Nat) (rest : Bits), Ready s →
    InputIs s input → s.inLen ≤ s.cfg.inCap → s.inLen < 2 ^ s.cfg.lenW → EntriesOk es → pad ≤ 7 → count ≤ 255 →
    bsFromBytes input = headerBits pad count es ++ rest →
    (es.length < (if count = 0 then 256 else count) →
      (rest.length < 8 →
        ∃ t, exec .deserialize s = .next t ∧ Aborted 2 (headerBits pad count es).length s t) ∧
      (∀ (b : Byte) (rest' : Bits), b ∈ es.map (·.1) → rest = bitsN 8 b.toNat ++ rest' →
        ∃ t, exec .deserialize s = .next t ∧ Aborted 2 (headerBits pad count es).length s t) ∧
      (∀ (b : Byte) (rest' : Bits), b ∉ es.map (·.1) → rest = bitsN 8 b.toNat ++ rest' → rest'.length < 8 →
        ∃ t, exec .deserialize s = .next t ∧ Aborted 2 ((headerBits pad count es).length + 8) s t) ∧
      (∀ (b : Byte) (rest' : Bits), b ∉ es.map (·.1) → rest = bitsN 8 b.toNat ++ bitsN 8 0 ++ rest' →
        ∃ t, exec .deserialize s = .next t ∧ Aborted 2 ((headerBits pad count es).length + 8) s t) ∧
      (∀ (b : Byte) (len : Nat) (rest' : Bits), b ∉ es.map (·.1) → len ≤ 255 →
        rest = bitsN 8 b.toNat ++ bitsN 8 len ++ rest' → rest'.length < len →
        ∃ t, exec .deserialize s = .next t ∧ Aborted 2 ((headerBits pad count es).length + 16) s t)) ∧
    (es.length = (if count = 0 then 256 else count) → rest.length < pad →
      ∃ t, exec .deserialize s = .next t ∧ Aborted 2 (headerBits pad count es).length s t)

/-- R205, R176: a payload of more than BITS_CAP bits is BufferOverflow at the blob bit index of its start. -/
def Obligations.DeserializeOverflowsBitsCap : Prop :=
  ∀ (s : State) (input : List Byte) (es : List (Byte × Bits)) (p padBits : Bits), Ready s → InputIs s input →
    s.inLen ≤ s.cfg.inCap → s.inLen < 2 ^ s.cfg.lenW → EntriesOk es → 1 ≤ es.length → padBits.length ≤ 7 →
    bsFromBytes input = headerBits padBits.length (es.length % 256) es ++ p ++ padBits →
    s.cfg.bitsCap < p.length →
    ∃ t, exec .deserialize s = .next t ∧
      Aborted 8 (headerBits padBits.length (es.length % 256) es).length s t

/-- R176, corner cases, R175: a blob of 0 bytes is MalformedContainer(0), one of 1 byte MalformedContainer(3). -/
def Obligations.DeserializeRejectsTinyBlobs : Prop :=
  ∀ (s : State) (input : List Byte), Ready s → InputIs s input → s.inLen ≤ s.cfg.inCap →
    (input.length = 0 → ∃ t, exec .deserialize s = .next t ∧ Aborted 2 0 s t) ∧
    (input.length = 1 → ∃ t, exec .deserialize s = .next t ∧ Aborted 2 3 s t)

/-- R181: for every table SERIALIZE accepts and every payload that fits, DESERIALIZE of the bytes SERIALIZE wrote
gives back the table, the payload, the pad and the number of entries. -/
def Obligations.DeserializeInvertsSerialize : Prop :=
  ∀ (s t u : State) (p : Bits) (out : List Byte), Ready s → PayloadIs s p → CodesInRange s.code →
    1 ≤ entryCount s.code → exec .serialize s = .next t → t.seq = .done → OutputIs t out →
    Ready u → InputIs u out → out.length ≤ u.cfg.inCap → p.length ≤ u.cfg.bitsCap →
    ∃ v, exec .deserialize u = .next v ∧ v.seq = .done ∧ v.code = s.code ∧ PayloadIs v p ∧
      v.padLen = t.padLen ∧ v.symCount.toNat = entryCount s.code

/-! ## DECODE (spec/45_unpacker.md) -/

/-- R161, R165: MATCH answers (s, L) exactly when L is the least length of a valid code that fits the rest of the
payload and equals its first L bits, and s is the lowest symbol with that code; it answers NONE exactly when no
valid code does. -/
def Obligations.MatchTakesShortestThenLowest : Prop :=
  ∀ (codes : Table CodeEntry) (b : Bits) (cur : Nat), CodesInRange codes → cur ≤ b.length →
    (∀ (s : Byte) (n : Nat), matchAt codes b cur = some (s, n) ↔
      (∃ c, tableGet codes s = some c ∧ c.length = n ∧ c <+: b.drop cur) ∧
      ∀ s' c', tableGet codes s' = some c' → c' <+: b.drop cur →
        n < c'.length ∨ (n = c'.length ∧ s.toNat ≤ s'.toNat)) ∧
    (matchAt codes b cur = none ↔ ∀ s c, tableGet codes s = some c → ¬ c <+: b.drop cur)

/-- R162, R165: on every table of codes of length 1 to 255, prefix-free or not, DECODE completes with the symbols MATCH
gives one after another, where they come to the payload's end exactly and fit OUT; it writes nothing but OUT and
OUT_LEN. -/
def Obligations.DecodeFollowsTheMatches : Prop :=
  ∀ (s : State) (p : Bits) (out : List Byte), Ready s → s.flags.codeValid = true → s.flags.bitsValid = true →
    CodesInRange s.code → PayloadIs s p → MatchesTo s.code p 0 out → out.length ≤ s.cfg.outCap →
    ∃ t, exec .decode s = .next t ∧ OutputIs t out ∧ t.outBuf.HoldsOnly out ∧
      t = { s with
              seq := .done
              flags := { s.flags with outValid := true }
              outBuf := t.outBuf, outLen := t.outLen, draw := t.draw }

/-- R163, R162: with a prefix-free table, DECODE of the payload ENCODE makes of `input` completes with OUT =
`input`, and writes nothing but OUT and OUT_LEN. -/
def Obligations.DecodeInvertsEncode : Prop :=
  ∀ (s : State) (input : List Byte), Ready s → s.flags.codeValid = true → s.flags.bitsValid = true →
    CodesInRange s.code → PrefixFree s.code → AllCoded s.code input →
    PayloadIs s (encodeBytes s.code input) → input.length ≤ s.cfg.outCap →
    ∃ t, exec .decode s = .next t ∧ OutputIs t input ∧ t.outBuf.HoldsOnly input ∧
      t = { s with
              seq := .done
              flags := { s.flags with outValid := true }
              outBuf := t.outBuf, outLen := t.outLen, draw := t.draw }

/-- R162, R164, R165, R206: on every table of codes of length 1 to 255, prefix-free or not, where MATCH after MATCH has
come to cursor `cur`, bits are left and no code is their beginning, DECODE raises UnknownCode(cur); a code that would
pass the payload's end does not match. So with a prefix-free table, after the codes of `input` (R163). -/
def Obligations.DecodeRejectsWhatNoCodeMatches : Prop :=
  (∀ (s : State) (p : Bits) (out : List Byte) (cur : Nat), Ready s → s.flags.codeValid = true →
    s.flags.bitsValid = true → s.bitsLen < 2 ^ s.cfg.bitposW → CodesInRange s.code → PayloadIs s p →
    MatchRun s.code p 0 out cur → cur < p.length →
    (∀ b c, tableGet s.code b = some c → ¬ c <+: p.drop cur) → out.length ≤ s.cfg.outCap →
    ∃ t, exec .decode s = .next t ∧ Aborted 3 cur s t) ∧
  (∀ (s : State) (input : List Byte) (rest : Bits), Ready s → s.flags.codeValid = true →
    s.flags.bitsValid = true → s.bitsLen < 2 ^ s.cfg.bitposW → CodesInRange s.code → PrefixFree s.code →
    AllCoded s.code input → PayloadIs s (encodeBytes s.code input ++ rest) → rest ≠ [] →
    (∀ b c, tableGet s.code b = some c → ¬ c <+: rest) → input.length ≤ s.cfg.outCap →
    ∃ t, exec .decode s = .next t ∧ Aborted 3 (encodeBytes s.code input).length s t)

/-- R205, R162, R165: on every table of codes of length 1 to 255, prefix-free or not, where MATCH after MATCH has
given OUT_CAP bytes and gives a further one at cursor `cur`, DECODE raises BufferOverflow(cur). So with a prefix-free
table, at the code of the first byte too many (R163). -/
def Obligations.DecodeOverflowsOutCap : Prop :=
  (∀ (s : State) (p : Bits) (out : List Byte) (cur : Nat) (b : Byte) (n : Nat), Ready s →
    s.flags.codeValid = true → s.flags.bitsValid = true → s.bitsLen < 2 ^ s.cfg.bitposW → CodesInRange s.code →
    PayloadIs s p → MatchRun s.code p 0 out cur → matchAt s.code p cur = some (b, n) →
    out.length = s.cfg.outCap →
    ∃ t, exec .decode s = .next t ∧ Aborted 8 cur s t) ∧
  (∀ (s : State) (input : List Byte) (b : Byte) (rest : Bits), Ready s → s.flags.codeValid = true →
    s.flags.bitsValid = true → s.bitsLen < 2 ^ s.cfg.bitposW → CodesInRange s.code → PrefixFree s.code →
    AllCoded s.code (input ++ [b]) → PayloadIs s (encodeBytes s.code (input ++ [b]) ++ rest) →
    input.length = s.cfg.outCap →
    ∃ t, exec .decode s = .next t ∧ Aborted 8 (encodeBytes s.code input).length s t)

/-! ## Primitives (spec/40_bitstream.md, spec/00_scope.md) -/

/-- R8: bit i of `bitsN(v)` is the bit of v of weight 2^(N−1−i), and `val` is the inverse of `bitsN`, both ways. -/
def Obligations.ValInvertsBitsN : Prop :=
  (∀ n v i, i < n → (bitsN n v)[i]? = some (v.testBit (n - 1 - i))) ∧
  (∀ n v, v < 2 ^ n → val (bitsN n v) = v ∧ (bitsN n v).length = n) ∧
  (∀ b : Bits, bitsN b.length (val b) = b ∧ val b < 2 ^ b.length)

/-- R106, R64: packing into bytes and unpacking are inverse, and bit i of a sequence is bit 7 − (i mod 8) of byte
i div 8. -/
def Obligations.BytePackingIsABijection : Prop :=
  (∀ l : List Byte, bsToBytes (bsFromBytes l) = l) ∧
  (∀ b : Bits, b.length % 8 = 0 → bsFromBytes (bsToBytes b) = b) ∧
  (∀ (l : List Byte) (i : Nat) (w : Byte), l[i / 8]? = some w →
    (bsFromBytes l)[i]? = some (w.getLsbD (7 - i % 8)))

/-- R122, R121: EXTRACT_MIN returns the index of the queue whose (freq, index) is least, and leaves the others. -/
def Obligations.ExtractMinReturnsTheLeastKey : Prop :=
  ∀ (nodes : List NodeEntry) (pq : List Nat), pq ≠ [] →
    ∃ m rest, extractMin nodes pq = some (m, rest) ∧ m ∈ pq ∧
      (∀ j, j ∈ rest ↔ j ∈ pq ∧ j ≠ m) ∧
      ∀ j, j ∈ pq → j ≠ m →
        nodeFreq nodes m < nodeFreq nodes j ∨ (nodeFreq nodes m = nodeFreq nodes j ∧ m < j)

/-! ## Whole calls (spec/47_top_level.md) -/

/-- R193: COMPRESS's end state is the end state of COUNT, BUILD, ASSIGN, ENCODE and SERIALIZE issued one after
another; and where one of them, issued in the state the ones before it left, aborts, COMPRESS aborts with that error
and that ERR_INFO. -/
def Obligations.CompressIsTheFiveStages : Prop :=
  ∀ s : State, Ready s →
    (∀ t, RunStages compressStages s t → exec .compress s = .next t) ∧
    (∀ (before after : List Instr) (i : Instr) (s' t : State), s.inLen < 2 ^ s.cfg.lenW →
      compressStages = before ++ i :: after → RunStages before s s' → exec i s' = .next t → t.seq = .error →
      ∃ u, exec .compress s = .next u ∧ SameError t u)

/-- R195: DECOMPRESS's end state is the end state of DESERIALIZE and DECODE issued one after the other; and where
one of them, issued in the state the one before it left, aborts, DECOMPRESS aborts with that error and that
ERR_INFO. -/
def Obligations.DecompressIsTheTwoStages : Prop :=
  ∀ s : State, Ready s →
    (∀ t, RunStages decompressStages s t → exec .decompress s = .next t) ∧
    (∀ (before after : List Instr) (i : Instr) (s' t : State), s.inLen < 2 ^ s.cfg.lenW →
      decompressStages = before ++ i :: after → RunStages before s s' → exec i s' = .next t → t.seq = .error →
      ∃ u, exec .decompress s = .next u ∧ SameError t u)

/-- R193, exceptions, R144, R204: COMPRESS of a non-empty input of n bytes that IN holds completes where BITS_CAP is at
least 255n bits and OUT_CAP at least 8674 + 32n bytes, bounds that no payload and no blob of n bytes passes; it ends in
state DONE with all five flags set and OUT holding its blob. -/
def Obligations.CompressCompletesWithinCapacity : Prop :=
  ∀ (s : State) (input : List Byte), Ready s → InputIs s input → s.inLen ≤ s.cfg.inCap → input ≠ [] →
    255 * input.length ≤ s.cfg.bitsCap → 8674 + 32 * input.length ≤ s.cfg.outCap →
    ∃ (t : State) (p : Bits), exec .compress s = .next t ∧ t.seq = .done ∧
      t.flags = ⟨true, true, true, true, true⟩ ∧ (∀ b, tableGet t.freq b = input.count b) ∧
      p = encodeBytes t.code input ∧ PayloadIs t p ∧ OutputIs t (bsToBytes (blobBits t.code p)) ∧
      t.inBuf = s.inBuf ∧ t.inLen = s.inLen

/-- R193, exceptions: COMPRESS of an empty input is EmptyInput(0). -/
def Obligations.CompressOfNothingIsEmptyInput : Prop :=
  ∀ s : State, Ready s → s.inLen = 0 → ∃ t, exec .compress s = .next t ∧ Aborted 1 0 s t

/-- R193, R195, exceptions: COMPRESS raises EmptyInput, and that only for an empty input, or BufferOverflow;
DECOMPRESS raises MalformedContainer, UnknownCode or BufferOverflow. -/
def Obligations.WholeCallsRaiseOnlyTheirErrors : Prop :=
  ∀ s t : State, Ready s → t.seq = .error →
    (exec .compress s = .next t → (t.err = 1 ∧ s.inLen = 0) ∨ t.err = 8) ∧
    (exec .decompress s = .next t → t.err = 2 ∨ t.err = 3 ∨ t.err = 8)

/-- R195, R194: DECOMPRESS of a blob with a prefix-free table and the payload of `output` completes with OUT =
`output`; FREQ, NODE, NODE_COUNT, ROOT and PQ are not written. -/
def Obligations.DecompressReadsABlob : Prop :=
  ∀ (s : State) (input output : List Byte) (es : List (Byte × Bits)) (padBits : Bits), Ready s →
    InputIs s input → s.inLen ≤ s.cfg.inCap → EntriesOk es → 1 ≤ es.length → padBits.length ≤ 7 →
    PrefixFree (tableOfEntries es) → AllCoded (tableOfEntries es) output →
    bsFromBytes input =
      headerBits padBits.length (es.length % 256) es ++ encodeBytes (tableOfEntries es) output ++ padBits →
    (encodeBytes (tableOfEntries es) output).length ≤ s.cfg.bitsCap → output.length ≤ s.cfg.outCap →
    ∃ t, exec .decompress s = .next t ∧ t.seq = .done ∧ OutputIs t output ∧ t.code = tableOfEntries es ∧
      t.flags = ⟨false, false, true, true, true⟩ ∧ t.freq = s.freq ∧ t.node = s.node ∧
      t.nodeCount = s.nodeCount ∧ t.root = s.root ∧ t.pq = s.pq ∧ t.inBuf = s.inBuf ∧ t.inLen = s.inLen

/-- R196: the round trip. For every non-empty input that COMPRESS compresses, DECOMPRESS of the blob, on any
machine whose buffers take it, ends with OUT = the input. -/
def Obligations.DecompressInvertsCompress : Prop :=
  ∀ (s t u : State) (input blob : List Byte), Ready s → InputIs s input → s.inLen ≤ s.cfg.inCap → input ≠ [] →
    exec .compress s = .next t → t.seq = .done → OutputIs t blob →
    Ready u → InputIs u blob → blob.length ≤ u.cfg.inCap → t.bitsLen ≤ u.cfg.bitsCap →
    input.length ≤ u.cfg.outCap →
    ∃ v, exec .decompress u = .next v ∧ v.seq = .done ∧ OutputIs v input

/-- R72, R241: calls are independent: COMPRESS in two states with the same parameters and the same input gives
the same FREQ, tree, codes, payload and blob, whatever else the states hold; so does DECOMPRESS its results. -/
def Obligations.WholeCallsDependOnlyOnTheInput : Prop :=
  ∀ (s s' t t' : State) (input : List Byte), Ready s → Ready s' → s.cfg = s'.cfg → InputIs s input →
    InputIs s' input → s.inLen < 2 ^ s.cfg.lenW →
    (exec .compress s = .next t → exec .compress s' = .next t' →
      t.seq = t'.seq ∧ t.flags = t'.flags ∧ t.outLen = t'.outLen ∧
      (t.seq = .error → t.err = t'.err ∧ t.errInfo = t'.errInfo) ∧
      (t.seq = .done →
        t.freq = t'.freq ∧ t.symCount = t'.symCount ∧ t.node.cells = t'.node.cells ∧
        t.nodeCount = t'.nodeCount ∧ t.root = t'.root ∧ t.pq = t'.pq ∧ t.code = t'.code ∧
        t.bits.cells = t'.bits.cells ∧ t.bitsLen = t'.bitsLen ∧ t.padLen = t'.padLen ∧
        t.outBuf.cells = t'.outBuf.cells)) ∧
    (exec .decompress s = .next t → exec .decompress s' = .next t' →
      t.seq = t'.seq ∧ t.flags = t'.flags ∧ t.outLen = t'.outLen ∧
      (t.seq = .error → t.err = t'.err ∧ t.errInfo = t'.errInfo) ∧
      (t.seq = .done →
        t.symCount = t'.symCount ∧ t.code = t'.code ∧ t.bits.cells = t'.bits.cells ∧
        t.bitsLen = t'.bitsLen ∧ t.padLen = t'.padLen ∧ t.outBuf.cells = t'.outBuf.cells))

/-! ## The invariant (spec/10_state.md R45, R46) and termination (spec/70_reset_and_hazards.md R240) -/

/-- The reset state meets the invariant. -/
def Obligations.InvariantHoldsAtReset : Prop := Inv State.reset

/-- Every step keeps the invariant: the canonical forms, the widths and ranges, and what each flag promises
(R45, R46), from every state that meets it, whatever the host does. Two clauses rest on the model's choices: that
SYM_COUNT, ROOT, NODE_COUNT, PQ and the widths are in range right after an abort too is log entry 7 (R207 leaves
the values unspecified), and that no state between steps is BUSY is log entry 11. -/
def Obligations.EveryStepKeepsTheInvariant : Prop :=
  ∀ s t : State, Inv s → step s = .next t → Inv t

/-- R240: no command can hang or get stuck: from every state that meets the invariant, with the bytes IN[0 :
IN_LEN] written by the host if the command reads them, every one of the eleven commands answers a next state: RESET in
IDLE, any other in DONE or ERROR (a command issued in ERROR leaves ERROR), and CodeLengthOverflow is never raised
(R144). That a command ends before anything else can happen is the model's choice: a reset input asserted during it,
which would abandon it, is not shown (log entry 14). -/
def Obligations.EveryCommandEnds : Prop :=
  ∀ (i : Instr) (s : State), Inv s →
    (i ∈ [.count, .encode, .deserialize, .compress, .decompress] → s.inBuf.Specified s.inLen) →
    ∃ t, exec i s = .next t ∧ (i = .reset → t.seq = .idle) ∧
      (i ≠ .reset → s.seq ≠ .error → t.seq = .done ∨ t.seq = .error) ∧
      (i ≠ .reset → s.seq = .error → t.seq = .error) ∧ (s.err ≠ 4 → t.err ≠ 4)

/-- R46, R24: what each valid flag promises in every state that meets the invariant. FREQ_VALID: SYM_COUNT is the number
of symbols with a count above 0, and the counts add up to the length of an input that fits IN, so to 0 exactly when
SYM_COUNT is 0. TREE_VALID: NODE_COUNT = 2 × SYM_COUNT − 1, ROOT = NODE_COUNT − 1, leaves first in ascending symbol
order, every leaf's frequency above 0, every other node the sum of two children of smaller index, and every index
below ROOT a child of exactly one node. CODE_VALID: SYM_COUNT valid codes of length 1 to 255, prefix-free where ASSIGN
made them. BITS_VALID: a payload, and a code table. OUT_VALID: a result that fits OUT. -/
def Obligations.ValidFlagsMeanWhatTheyPromise : Prop :=
  ∀ s : State, Inv s →
    (s.flags.freqValid = true →
      s.symCount.toNat = distinctSymbols s.freq ∧ freqTotal s.freq ≤ s.cfg.inCap ∧
      (s.symCount = 0 ↔ freqTotal s.freq = 0)) ∧
    (s.flags.treeValid = true →
      ∃ nodes, s.node.HoldsOnly nodes ∧ nodes.length = s.nodeCount.toNat ∧
        s.nodeCount.toNat = 2 * s.symCount.toNat - 1 ∧ s.root.toNat = s.nodeCount.toNat - 1 ∧
        (∀ (k : Nat) (e : NodeEntry), nodes[k]? = some e → (e.kind = .leaf ↔ k < s.symCount.toNat)) ∧
        (∀ (j k : Nat) (e f : NodeEntry), j < k → k < s.symCount.toNat → nodes[j]? = some e → nodes[k]? = some f →
          e.sym.toNat < f.sym.toNat) ∧
        (∀ (k : Nat) (e : NodeEntry), nodes[k]? = some e → e.kind = .leaf → 0 < e.freq) ∧
        (∀ (k : Nat) (e : NodeEntry), nodes[k]? = some e → e.kind = .internal →
          e.left.toNat < k ∧ e.right.toNat < k ∧ e.left ≠ e.right ∧
          e.freq = nodeFreq nodes e.left.toNat + nodeFreq nodes e.right.toNat) ∧
        (∀ c, c < s.root.toNat → ∃ k, IsChild nodes k c ∧ ∀ q, IsChild nodes q c → q = k)) ∧
    (s.flags.codeValid = true →
      CodesInRange s.code ∧ entryCount s.code = s.symCount.toNat ∧ 1 ≤ s.symCount.toNat ∧
      (s.flags.treeValid = true → PrefixFree s.code)) ∧
    (s.flags.bitsValid = true → s.flags.codeValid = true ∧ ∃ p, PayloadIs s p) ∧
    (s.flags.outValid = true → ∃ out, OutputIs s out ∧ out.length ≤ s.cfg.outCap)
end

