-- ==== Sys2Proof/Laws/State.lean ====
section
/-! SUPPORT. One lemma for each field of State under each named update of it: the abort, the recovery, the hardware
reset and the taking of an access at the host port. -/

namespace Sys2Proof.Machine

/-! ## The abort (R207) -/

@[simp] theorem abort_cfg (e : Err) (info : Nat) (s : State) : (abort e info s).cfg = s.cfg := rfl
@[simp] theorem abort_seq (e : Err) (info : Nat) (s : State) : (abort e info s).seq = .error := rfl
@[simp] theorem abort_flags (e : Err) (info : Nat) (s : State) : (abort e info s).flags = Flags.clear := rfl
@[simp] theorem abort_err (e : Err) (info : Nat) (s : State) : (abort e info s).err = e.code := rfl
@[simp] theorem abort_errInfo (e : Err) (info : Nat) (s : State) :
    (abort e info s).errInfo = errInfoValue s.cfg s.draw info := rfl
@[simp] theorem abort_inLen (e : Err) (info : Nat) (s : State) : (abort e info s).inLen = s.inLen := rfl
@[simp] theorem abort_outLen (e : Err) (info : Nat) (s : State) : (abort e info s).outLen = 0 := rfl
@[simp] theorem abort_bitsLen (e : Err) (info : Nat) (s : State) :
    (abort e info s).bitsLen = Config.free s.draw .bitsLen % 2 ^ s.cfg.bitposW := rfl
@[simp] theorem abort_symCount (e : Err) (info : Nat) (s : State) :
    (abort e info s).symCount = BitVec.ofNat 9 (Config.free s.draw .symCount % 257) := rfl
@[simp] theorem abort_padLen (e : Err) (info : Nat) (s : State) :
    (abort e info s).padLen = BitVec.ofNat 3 (Config.free s.draw .padLen) := rfl
@[simp] theorem abort_root (e : Err) (info : Nat) (s : State) :
    (abort e info s).root = BitVec.ofNat 9 (Config.free s.draw .root % Config.nodeCap) := rfl
@[simp] theorem abort_nodeCount (e : Err) (info : Nat) (s : State) :
    (abort e info s).nodeCount = BitVec.ofNat 10 (Config.free s.draw .nodeCount % (Config.nodeCap + 1)) := rfl
@[simp] theorem abort_freq (e : Err) (info : Nat) (s : State) :
    (abort e info s).freq = tableOf fun b => freeCount s.cfg s.draw (.freqCount b.toNat) := rfl
@[simp] theorem abort_node (e : Err) (info : Nat) (s : State) :
    (abort e info s).node = Store.empty s.draw := rfl
@[simp] theorem abort_pq (e : Err) (info : Nat) (s : State) : (abort e info s).pq = freeQueue s.draw := by
  simp only [abort]
@[simp] theorem abort_code (e : Err) (info : Nat) (s : State) :
    (abort e info s).code = tableOf fun b => freeCode s.draw b.toNat := rfl
@[simp] theorem abort_bits (e : Err) (info : Nat) (s : State) :
    (abort e info s).bits = Store.empty s.draw := rfl
@[simp] theorem abort_inBuf (e : Err) (info : Nat) (s : State) : (abort e info s).inBuf = s.inBuf := rfl
@[simp] theorem abort_outBuf (e : Err) (info : Nat) (s : State) :
    (abort e info s).outBuf = Store.empty s.draw := rfl
@[simp] theorem abort_inputs (e : Err) (info : Nat) (s : State) : (abort e info s).inputs = s.inputs := rfl
@[simp] theorem abort_portData (e : Err) (info : Nat) (s : State) :
    (abort e info s).portData = s.portData := rfl
@[simp] theorem abort_draw (e : Err) (info : Nat) (s : State) : (abort e info s).draw = s.draw + 1 := rfl

/-! ## RESET and the recovery (R191, R210) -/

@[simp] theorem recover_cfg (s : State) : (recover s).cfg = s.cfg := rfl
@[simp] theorem recover_seq (s : State) : (recover s).seq = .idle := rfl
@[simp] theorem recover_flags (s : State) : (recover s).flags = Flags.clear := rfl
@[simp] theorem recover_err (s : State) : (recover s).err = 0 := rfl
@[simp] theorem recover_errInfo (s : State) : (recover s).errInfo = 0 := rfl
@[simp] theorem recover_inLen (s : State) : (recover s).inLen = 0 := rfl
@[simp] theorem recover_outLen (s : State) : (recover s).outLen = 0 := rfl
@[simp] theorem recover_bitsLen (s : State) : (recover s).bitsLen = 0 := rfl
@[simp] theorem recover_symCount (s : State) : (recover s).symCount = 0 := rfl
@[simp] theorem recover_padLen (s : State) : (recover s).padLen = 0 := rfl
@[simp] theorem recover_root (s : State) : (recover s).root = 0 := rfl
@[simp] theorem recover_nodeCount (s : State) : (recover s).nodeCount = 0 := rfl
@[simp] theorem recover_freq (s : State) : (recover s).freq = Vector.replicate 256 0 := rfl
@[simp] theorem recover_node (s : State) : (recover s).node = Store.empty s.draw := rfl
@[simp] theorem recover_pq (s : State) : (recover s).pq = [] := rfl
@[simp] theorem recover_code (s : State) : (recover s).code = Vector.replicate 256 none := rfl
@[simp] theorem recover_bits (s : State) : (recover s).bits = Store.empty s.draw := rfl
@[simp] theorem recover_inBuf (s : State) : (recover s).inBuf = s.inBuf := rfl
@[simp] theorem recover_outBuf (s : State) : (recover s).outBuf = Store.empty s.draw := rfl
@[simp] theorem recover_inputs (s : State) : (recover s).inputs = s.inputs := rfl
@[simp] theorem recover_portData (s : State) : (recover s).portData = s.portData := rfl
@[simp] theorem recover_draw (s : State) : (recover s).draw = s.draw + 1 := rfl

/-! ## Hardware reset (R230) -/

@[simp] theorem hardwareReset_cfg (s : State) : (hardwareReset s).cfg = s.cfg := rfl
@[simp] theorem hardwareReset_seq (s : State) : (hardwareReset s).seq = .idle := rfl
@[simp] theorem hardwareReset_flags (s : State) : (hardwareReset s).flags = Flags.clear := rfl
@[simp] theorem hardwareReset_err (s : State) : (hardwareReset s).err = 0 := rfl
@[simp] theorem hardwareReset_errInfo (s : State) : (hardwareReset s).errInfo = 0 := rfl
@[simp] theorem hardwareReset_inLen (s : State) : (hardwareReset s).inLen = 0 := rfl
@[simp] theorem hardwareReset_outLen (s : State) : (hardwareReset s).outLen = 0 := rfl
@[simp] theorem hardwareReset_bitsLen (s : State) : (hardwareReset s).bitsLen = 0 := rfl
@[simp] theorem hardwareReset_symCount (s : State) : (hardwareReset s).symCount = 0 := rfl
@[simp] theorem hardwareReset_padLen (s : State) : (hardwareReset s).padLen = 0 := rfl
@[simp] theorem hardwareReset_root (s : State) : (hardwareReset s).root = 0 := rfl
@[simp] theorem hardwareReset_nodeCount (s : State) : (hardwareReset s).nodeCount = 0 := rfl
@[simp] theorem hardwareReset_freq (s : State) : (hardwareReset s).freq = Vector.replicate 256 0 := rfl
@[simp] theorem hardwareReset_node (s : State) : (hardwareReset s).node = Store.empty s.draw := rfl
@[simp] theorem hardwareReset_pq (s : State) : (hardwareReset s).pq = [] := rfl
@[simp] theorem hardwareReset_code (s : State) : (hardwareReset s).code = Vector.replicate 256 none := rfl
@[simp] theorem hardwareReset_bits (s : State) : (hardwareReset s).bits = Store.empty s.draw := rfl
@[simp] theorem hardwareReset_inBuf (s : State) : (hardwareReset s).inBuf = Store.empty s.draw := rfl
@[simp] theorem hardwareReset_outBuf (s : State) : (hardwareReset s).outBuf = Store.empty s.draw := rfl
@[simp] theorem hardwareReset_inputs (s : State) : (hardwareReset s).inputs = s.inputs := rfl
@[simp] theorem hardwareReset_portData (s : State) : (hardwareReset s).portData = s.portData := rfl
@[simp] theorem hardwareReset_draw (s : State) : (hardwareReset s).draw = s.draw + 1 := rfl

/-! ## A read taken at the port -/

@[simp] theorem takeRead_cfg (s : State) (r : List HostInput) : (takeRead s r).cfg = s.cfg := rfl
@[simp] theorem takeRead_seq (s : State) (r : List HostInput) : (takeRead s r).seq = s.seq := rfl
@[simp] theorem takeRead_flags (s : State) (r : List HostInput) : (takeRead s r).flags = s.flags := rfl
@[simp] theorem takeRead_err (s : State) (r : List HostInput) : (takeRead s r).err = s.err := rfl
@[simp] theorem takeRead_errInfo (s : State) (r : List HostInput) : (takeRead s r).errInfo = s.errInfo := rfl
@[simp] theorem takeRead_inLen (s : State) (r : List HostInput) : (takeRead s r).inLen = s.inLen := rfl
@[simp] theorem takeRead_outLen (s : State) (r : List HostInput) : (takeRead s r).outLen = s.outLen := rfl
@[simp] theorem takeRead_bitsLen (s : State) (r : List HostInput) : (takeRead s r).bitsLen = s.bitsLen := rfl
@[simp] theorem takeRead_symCount (s : State) (r : List HostInput) :
    (takeRead s r).symCount = s.symCount := rfl
@[simp] theorem takeRead_padLen (s : State) (r : List HostInput) : (takeRead s r).padLen = s.padLen := rfl
@[simp] theorem takeRead_root (s : State) (r : List HostInput) : (takeRead s r).root = s.root := rfl
@[simp] theorem takeRead_nodeCount (s : State) (r : List HostInput) :
    (takeRead s r).nodeCount = s.nodeCount := rfl
@[simp] theorem takeRead_freq (s : State) (r : List HostInput) : (takeRead s r).freq = s.freq := rfl
@[simp] theorem takeRead_node (s : State) (r : List HostInput) : (takeRead s r).node = s.node := rfl
@[simp] theorem takeRead_pq (s : State) (r : List HostInput) : (takeRead s r).pq = s.pq := rfl
@[simp] theorem takeRead_code (s : State) (r : List HostInput) : (takeRead s r).code = s.code := rfl
@[simp] theorem takeRead_bits (s : State) (r : List HostInput) : (takeRead s r).bits = s.bits := rfl
@[simp] theorem takeRead_inBuf (s : State) (r : List HostInput) : (takeRead s r).inBuf = s.inBuf := rfl
@[simp] theorem takeRead_outBuf (s : State) (r : List HostInput) : (takeRead s r).outBuf = s.outBuf := rfl
@[simp] theorem takeRead_inputs (s : State) (r : List HostInput) : (takeRead s r).inputs = r := rfl
@[simp] theorem takeRead_portData (s : State) (r : List HostInput) :
    (takeRead s r).portData = s.portData := rfl
@[simp] theorem takeRead_draw (s : State) (r : List HostInput) : (takeRead s r).draw = s.draw := rfl

/-! ## A write taken at the port -/

@[simp] theorem takeWrite_cfg (s : State) (r : List HostInput) : (takeWrite s r).cfg = s.cfg := rfl
@[simp] theorem takeWrite_seq (s : State) (r : List HostInput) : (takeWrite s r).seq = s.seq := rfl
@[simp] theorem takeWrite_flags (s : State) (r : List HostInput) : (takeWrite s r).flags = s.flags := rfl
@[simp] theorem takeWrite_err (s : State) (r : List HostInput) : (takeWrite s r).err = s.err := rfl
@[simp] theorem takeWrite_errInfo (s : State) (r : List HostInput) :
    (takeWrite s r).errInfo = s.errInfo := rfl
@[simp] theorem takeWrite_inLen (s : State) (r : List HostInput) : (takeWrite s r).inLen = s.inLen := rfl
@[simp] theorem takeWrite_outLen (s : State) (r : List HostInput) : (takeWrite s r).outLen = s.outLen := rfl
@[simp] theorem takeWrite_bitsLen (s : State) (r : List HostInput) :
    (takeWrite s r).bitsLen = s.bitsLen := rfl
@[simp] theorem takeWrite_symCount (s : State) (r : List HostInput) :
    (takeWrite s r).symCount = s.symCount := rfl
@[simp] theorem takeWrite_padLen (s : State) (r : List HostInput) : (takeWrite s r).padLen = s.padLen := rfl
@[simp] theorem takeWrite_root (s : State) (r : List HostInput) : (takeWrite s r).root = s.root := rfl
@[simp] theorem takeWrite_nodeCount (s : State) (r : List HostInput) :
    (takeWrite s r).nodeCount = s.nodeCount := rfl
@[simp] theorem takeWrite_freq (s : State) (r : List HostInput) : (takeWrite s r).freq = s.freq := rfl
@[simp] theorem takeWrite_node (s : State) (r : List HostInput) : (takeWrite s r).node = s.node := rfl
@[simp] theorem takeWrite_pq (s : State) (r : List HostInput) : (takeWrite s r).pq = s.pq := rfl
@[simp] theorem takeWrite_code (s : State) (r : List HostInput) : (takeWrite s r).code = s.code := rfl
@[simp] theorem takeWrite_bits (s : State) (r : List HostInput) : (takeWrite s r).bits = s.bits := rfl
@[simp] theorem takeWrite_inBuf (s : State) (r : List HostInput) : (takeWrite s r).inBuf = s.inBuf := rfl
@[simp] theorem takeWrite_outBuf (s : State) (r : List HostInput) : (takeWrite s r).outBuf = s.outBuf := rfl
@[simp] theorem takeWrite_inputs (s : State) (r : List HostInput) : (takeWrite s r).inputs = r := rfl
@[simp] theorem takeWrite_portData (s : State) (r : List HostInput) :
    (takeWrite s r).portData = s.portData := rfl
@[simp] theorem takeWrite_draw (s : State) (r : List HostInput) : (takeWrite s r).draw = s.draw + 1 := rfl

end Sys2Proof.Machine
end

