-- ==== Sys2Proof/Laws/Store.lean ====
section
/-! SUPPORT. Tables and stores: read after write, the canonical form kept by every operation, and what a store made
of a list holds. -/

namespace Sys2Proof.Machine

variable {α : Type}

/-! ## Tables -/

@[simp] theorem tableGet_tableSet (t : Table α) (a b : Byte) (v : α) :
    tableGet (tableSet t a v) b = if a = b then v else tableGet t b := by
  simp only [tableGet, tableSet, Vector.getElem_set, BitVec.toNat_inj]

@[simp] theorem tableGet_tableOf (f : Byte → α) (b : Byte) : tableGet (tableOf f) b = f b := by
  simp [tableGet, tableOf]

@[simp] theorem tableGet_replicate (v : α) (b : Byte) : tableGet (Vector.replicate 256 v) b = v := by
  simp [tableGet]

theorem table_ext {t u : Table α} (h : ∀ b, tableGet t b = tableGet u b) : t = u := by
  apply Vector.ext
  intro i hi
  have := h (BitVec.ofNat 8 i)
  simpa [tableGet, Nat.mod_eq_of_lt hi] using this

theorem tableGet_ofNat (t : Table α) {i : Nat} (h : i < 256) : tableGet t (BitVec.ofNat 8 i) = t[i] := by
  simp [tableGet, Nat.mod_eq_of_lt h]

theorem mem_allSymbols (b : Byte) : b ∈ allSymbols :=
  List.mem_map.mpr ⟨b.toNat, List.mem_range.mpr b.isLt, by simp⟩

theorem allSymbols_nodup : allSymbols.Nodup := by
  unfold allSymbols
  refine List.Nodup.map_on ?_ List.nodup_range
  intro a ha b hb h
  have ha := List.mem_range.mp ha
  have hb := List.mem_range.mp hb
  have := congrArg BitVec.toNat h
  simpa [Nat.mod_eq_of_lt ha, Nat.mod_eq_of_lt hb] using this

theorem allSymbols_length : allSymbols.length = 256 := by simp [allSymbols]

theorem allSymbols_sorted : allSymbols.Pairwise (fun a b => a.toNat < b.toNat) := by
  unfold allSymbols
  rw [List.pairwise_map]
  refine List.Pairwise.imp_of_mem ?_ List.pairwise_lt_range
  intro a b ha hb h
  have ha := List.mem_range.mp ha
  have hb := List.mem_range.mp hb
  simpa [Nat.mod_eq_of_lt ha, Nat.mod_eq_of_lt hb] using h

/-! ## Cells -/

theorem cellsGet_cellsSet (l : List (Nat × α)) (i j : Nat) (v : α) :
    cellsGet (cellsSet l i v) j = if i = j then some v else cellsGet l j := by
  induction l with
  | nil => simp [cellsSet, cellsGet]
  | cons c rest ih =>
    obtain ⟨k, w⟩ := c
    simp only [cellsSet]
    split
    · simp only [cellsGet]
    · split
      · next h => subst h; simp only [cellsGet]; split <;> simp_all
      · next h =>
        simp only [cellsGet, ih]
        by_cases hj : k = j
        · subst hj; simp [Ne.symm h]
        · simp [hj]

theorem cellsRiseFrom_mono {l : List (Nat × α)} {lo lo' : Nat} (h : cellsRiseFrom lo l = true) (hlo : lo' ≤ lo) :
    cellsRiseFrom lo' l = true := by
  cases l with
  | nil => rfl
  | cons c rest =>
    simp only [cellsRiseFrom, Bool.and_eq_true, decide_eq_true_eq] at h ⊢
    exact ⟨by omega, h.2⟩

theorem cellsSet_rise {l : List (Nat × α)} {lo i : Nat} {v : α} (h : cellsRiseFrom lo l = true) (hi : lo ≤ i) :
    cellsRiseFrom lo (cellsSet l i v) = true := by
  induction l generalizing lo with
  | nil => simp [cellsSet, cellsRiseFrom, hi]
  | cons c rest ih =>
    obtain ⟨k, w⟩ := c
    simp only [cellsRiseFrom, Bool.and_eq_true, decide_eq_true_eq] at h
    simp only [cellsSet]
    split
    · next hlt => simp only [cellsRiseFrom, Bool.and_eq_true, decide_eq_true_eq]; exact ⟨hi, by omega, h.2⟩
    · split
      · next hk => subst hk; simp only [cellsRiseFrom, Bool.and_eq_true, decide_eq_true_eq]; exact ⟨hi, h.2⟩
      · simp only [cellsRiseFrom, Bool.and_eq_true, decide_eq_true_eq]
        exact ⟨h.1, ih h.2 (by omega)⟩

theorem mem_cellsSet {l : List (Nat × α)} {i : Nat} {v : α} {c : Nat × α} (h : c ∈ cellsSet l i v) :
    c = (i, v) ∨ c ∈ l := by
  induction l with
  | nil => simpa [cellsSet] using h
  | cons d rest ih =>
    obtain ⟨k, w⟩ := d
    simp only [cellsSet] at h
    split at h
    · simpa using h
    · split at h
      · simp only [List.mem_cons] at h ⊢; tauto
      · simp only [List.mem_cons] at h ⊢
        rcases h with h | h
        · exact .inr (.inl h)
        · rcases ih h with h | h
          · exact .inl h
          · exact .inr (.inr h)

theorem cellsGet_cellsFrom (l : List α) (k i : Nat) :
    cellsGet (cellsFrom k l) i = if k ≤ i then l[i - k]? else none := by
  induction l generalizing k with
  | nil => simp [cellsFrom, cellsGet]
  | cons v rest ih =>
    simp only [cellsFrom, cellsGet, ih]
    by_cases h1 : k = i
    · subst h1; simp
    · by_cases h2 : k + 1 ≤ i
      · have : i - k = (i - (k + 1)) + 1 := by omega
        simp [h1, h2, this, show k ≤ i by omega]
      · simp [h1, h2, show ¬ k ≤ i by omega]

theorem cellsFrom_rise (l : List α) (k : Nat) : cellsRiseFrom k (cellsFrom k l) = true := by
  induction l generalizing k with
  | nil => rfl
  | cons v rest ih => simp [cellsFrom, cellsRiseFrom, ih]

theorem mem_cellsFrom {l : List α} {k : Nat} {c : Nat × α} (h : c ∈ cellsFrom k l) :
    k ≤ c.1 ∧ c.1 < k + l.length := by
  induction l generalizing k with
  | nil => simp [cellsFrom] at h
  | cons v rest ih =>
    simp only [cellsFrom, List.mem_cons] at h
    rcases h with rfl | h
    · simp
    · have := ih h; simp only [List.length_cons]; omega

theorem cellsGet_none_of_rise {l : List (Nat × α)} {lo i : Nat} (h : cellsRiseFrom lo l = true) (hi : i < lo) :
    cellsGet l i = none := by
  induction l generalizing lo with
  | nil => rfl
  | cons c rest ih =>
    obtain ⟨k, w⟩ := c
    simp only [cellsRiseFrom, Bool.and_eq_true, decide_eq_true_eq] at h
    rw [cellsGet, if_neg (by omega), ih h.2 (by omega)]

/-- Canonical cell lists are equal when they hold the same values: equal memories are equal data. -/
theorem cells_ext {l m : List (Nat × α)} {lo : Nat} (hl : cellsRiseFrom lo l = true) (hm : cellsRiseFrom lo m = true)
    (h : ∀ i, cellsGet l i = cellsGet m i) : l = m := by
  induction l generalizing m lo with
  | nil =>
    cases m with
    | nil => rfl
    | cons d _ => have := h d.1; simp [cellsGet] at this
  | cons c rest ih =>
    obtain ⟨k, w⟩ := c
    cases m with
    | nil => have := h k; simp [cellsGet] at this
    | cons d rest' =>
      obtain ⟨k', w'⟩ := d
      simp only [cellsRiseFrom, Bool.and_eq_true, decide_eq_true_eq] at hl hm
      have hk : k = k' := by
        rcases Nat.lt_trichotomy k k' with hlt | heq | hlt
        · have := h k
          simp [cellsGet, show ¬ k' = k by omega, cellsGet_none_of_rise hm.2 (show k < k' + 1 by omega)] at this
        · exact heq
        · have := h k'
          simp [cellsGet, show ¬ k = k' by omega, cellsGet_none_of_rise hl.2 (show k' < k + 1 by omega)] at this
      subst hk
      have hw : w = w' := by have := h k; simpa [cellsGet] using this
      subst hw
      congr 1
      refine ih hl.2 hm.2 fun i => ?_
      by_cases hi : k = i
      · subst hi; rw [cellsGet_none_of_rise hl.2 (by omega), cellsGet_none_of_rise hm.2 (by omega)]
      · have := h i; simpa [cellsGet, hi] using this

/-! ## Stores -/

@[simp] theorem Store.get?_empty (n i : Nat) : (Store.empty n : Store α).get? i = none := rfl

/-- Read after write (R61): the element written reads as the value, every other one as before. -/
theorem Store.get?_set (m : Store α) (i j : Nat) (v : α) :
    (m.set i v).get? j = if i = j then some v else m.get? j := cellsGet_cellsSet m.cells i j v

@[simp] theorem Store.seed_set (m : Store α) (i : Nat) (v : α) : (m.set i v).seed = m.seed := rfl

@[simp] theorem Store.get?_ofList (l : List α) (n i : Nat) : (Store.ofList l n).get? i = l[i]? := by
  simp [Store.get?, Store.ofList, cellsGet_cellsFrom]

theorem Store.holdsOnly_ofList (l : List α) (n : Nat) : (Store.ofList l n).HoldsOnly l := by
  intro i; simp

theorem Store.HoldsOnly.holds {m : Store α} {l : List α} (h : m.HoldsOnly l) : m.Holds l := fun i _ => h i

theorem Store.HoldsOnly.unique {m : Store α} {l l' : List α} (h : m.HoldsOnly l) (h' : m.HoldsOnly l') : l = l' :=
  List.ext_getElem? fun i => (h i).symm.trans (h' i)

theorem Store.wf_empty (n cap : Nat) : (Store.empty n : Store α).wf cap = true := rfl

theorem Store.wf_iff {m : Store α} {cap : Nat} :
    m.wf cap = true ↔ cellsRiseFrom 0 m.cells = true ∧ ∀ c, c ∈ m.cells → c.1 < cap := by
  simp [Store.wf]

/-- A write inside the buffer keeps the canonical form. -/
theorem Store.wf_set {m : Store α} {cap i : Nat} {v : α} (h : m.wf cap = true) (hi : i < cap) :
    (m.set i v).wf cap = true := by
  rw [Store.wf_iff] at h ⊢
  refine ⟨cellsSet_rise h.1 (Nat.zero_le i), fun c hc => ?_⟩
  rcases mem_cellsSet hc with rfl | hc
  · exact hi
  · exact h.2 c hc

/-- A store made of a list that fits is in the canonical form. -/
theorem Store.wf_ofList {l : List α} {n cap : Nat} (h : l.length ≤ cap) : (Store.ofList l n).wf cap = true := by
  rw [Store.wf_iff]
  refine ⟨cellsFrom_rise l 0, fun c hc => ?_⟩
  have := mem_cellsFrom hc
  omega

/-- Two canonical stores that hold the same values have the same cells. -/
theorem Store.cells_eq {m m' : Store α} {cap cap' : Nat} (h : m.wf cap = true) (h' : m'.wf cap' = true)
    (hg : ∀ i, m.get? i = m'.get? i) : m.cells = m'.cells :=
  cells_ext (Store.wf_iff.mp h).1 (Store.wf_iff.mp h').1 hg

end Sys2Proof.Machine
end

