-- ==== Sys2Proof/Laws/Ops.lean ====
section
/-! SUPPORT. What running a command can do: one lemma for each shared operation (dispatch, the end of a command,
the flag frame), which later proofs cite instead of unfolding it. -/

namespace Sys2Proof.Machine

/-! ## The end of a command -/

/-- Everything `finish` can answer as a next state. -/
theorem finish_eq_next {s t : State} {r : Except Stop State} :
    finish s r = .next t ↔
      (∃ u, r = .ok u ∧ t = { u with seq := .done }) ∨
      ∃ e info, r = .error (.raise e info) ∧ t = abort e info s := by
  rcases r with ⟨e, info⟩ | f | u <;> simp [finish, eq_comm]

theorem finish_ok (s u : State) : finish s (.ok u) = .next { u with seq := .done } := rfl

theorem finish_raise (s : State) (e : Err) (info : Nat) :
    finish s (.error (.raise e info)) = .next (abort e info s) := rfl

theorem finish_fault (s : State) (f : Fault) : finish s (.error (.fault f)) = .fault f := rfl

/-! ## Dispatch -/

theorem runCommand_ready {body : State → Except Stop State} {s : State} (h : Ready s) :
    runCommand body s = finish s (body { s with seq := .busy }) := by
  unfold runCommand
  rcases h with h | h <;> rw [h]

theorem runCommand_error {body : State → Except Stop State} {s : State} (h : s.seq = .error) :
    runCommand body s = .next s := by
  unfold runCommand; rw [h]

theorem runCommand_busy {body : State → Except Stop State} {s : State} (h : s.seq = .busy) :
    runCommand body s = .refused .commandWhileBusy := by
  unfold runCommand; rw [h]

theorem ready_or (s : State) : Ready s ∨ s.seq = .error ∨ s.seq = .busy := by
  unfold Ready; cases s.seq <;> simp

/-- Everything a command can answer as a next state: nothing in ERROR, else its result in DONE or the abort. -/
theorem runCommand_eq_next {body : State → Except Stop State} {s t : State} (h : runCommand body s = .next t) :
    (s.seq = .error ∧ t = s) ∨
    (Ready s ∧ ∃ u, body { s with seq := .busy } = .ok u ∧ t = { u with seq := .done }) ∨
    (Ready s ∧ ∃ e info, body { s with seq := .busy } = .error (.raise e info) ∧ t = abort e info s) := by
  rcases ready_or s with hr | he | hb
  · rw [runCommand_ready hr, finish_eq_next] at h
    rcases h with h | h
    · exact .inr (.inl ⟨hr, h⟩)
    · exact .inr (.inr ⟨hr, h⟩)
  · rw [runCommand_error he] at h; cases h; exact .inl ⟨he, rfl⟩
  · rw [runCommand_busy hb] at h; cases h

/-! ## The flag frame -/

theorem covers_clear (f : Flags) : f.covers Flags.clear = true := by simp [Flags.covers, Flags.clear]

theorem stage_eq_ok {i : Instr} {effect : State → Except Stop State} {s t : State} :
    stage i effect s = .ok t ↔
      s.flags.covers (flagsNeeded i) = true ∧
      ∃ u, effect { s with flags := s.flags.without (flagsCleared i) } = .ok u ∧
        t = { u with flags := u.flags.plus (flagsSet i) } := by
  unfold stage
  split
  · next h =>
    simp only [h, true_and]
    cases effect { s with flags := s.flags.without (flagsCleared i) } with
    | error e => simp [Bind.bind, Except.bind]
    | ok u => simp [Bind.bind, Except.bind, Pure.pure, Except.pure, eq_comm]
  · next h => simp [h]

theorem stage_eq_error {i : Instr} {effect : State → Except Stop State} {s : State} {e : Stop} :
    stage i effect s = .error e ↔
      (s.flags.covers (flagsNeeded i) = false ∧ e = .raise .badSequence (opcodeOf i).toNat) ∨
      (s.flags.covers (flagsNeeded i) = true ∧
        effect { s with flags := s.flags.without (flagsCleared i) } = .error e) := by
  unfold stage
  split
  · next h =>
    simp only [h, true_and, false_and, false_or, Bool.true_eq_false]
    cases effect { s with flags := s.flags.without (flagsCleared i) } with
    | error e => simp [Bind.bind, Except.bind]
    | ok u => simp [Bind.bind, Except.bind, Pure.pure, Except.pure]
  · next h => simp only [Bool.not_eq_true] at h; simp [h, eq_comm]

/-! ## The commands -/

/-- The body each command but RESET runs. -/
def bodyOf : Instr → State → Except Stop State
  | .reset => .ok
  | .count => countBody
  | .build => buildBody
  | .assign => assignBody
  | .encode => encodeBody
  | .serialize => serializeBody
  | .deserialize => deserializeBody
  | .decode => decodeBody
  | .compress => compressBody
  | .decompress => decompressBody
  | .nop => .ok

/-- Every command but RESET is its body, run. -/
theorem exec_eq_runCommand {i : Instr} (h : i ≠ .reset) (s : State) : exec i s = runCommand (bodyOf i) s := by
  cases i <;> first | rfl | exact absurd rfl h

theorem exec_reset (s : State) (h : s.seq ≠ .busy) : exec .reset s = .next (recover s) := by
  show execReset s = _
  unfold execReset
  split <;> first | rfl | contradiction

/-- Everything a command can answer as a next state. -/
theorem exec_eq_next {i : Instr} {s t : State} (h : exec i s = .next t) :
    (i = .reset ∧ s.seq ≠ .busy ∧ t = recover s) ∨
    (i ≠ .reset ∧ s.seq = .error ∧ t = s) ∨
    (i ≠ .reset ∧ Ready s ∧ ∃ u, bodyOf i { s with seq := .busy } = .ok u ∧ t = { u with seq := .done }) ∨
    (i ≠ .reset ∧ Ready s ∧ ∃ e info,
      bodyOf i { s with seq := .busy } = .error (.raise e info) ∧ t = abort e info s) := by
  by_cases hi : i = .reset
  · subst hi
    by_cases hb : s.seq = .busy
    · exfalso; have h : execReset s = .next t := h; unfold execReset at h; rw [hb] at h; cases h
    · rw [exec_reset s hb] at h; cases h; exact .inl ⟨rfl, hb, rfl⟩
  · rw [exec_eq_runCommand hi] at h
    rcases runCommand_eq_next h with h | h | h
    · exact .inr (.inl ⟨hi, h⟩)
    · exact .inr (.inr (.inl ⟨hi, h⟩))
    · exact .inr (.inr (.inr ⟨hi, h⟩))

/-! ## ERR_INFO and the free values -/

theorem errInfoValue_of_lt {p : Params} {info : Nat} (h : info < 2 ^ p.bitposW) (d : Nat) :
    errInfoValue p d info = info := by
  simp [errInfoValue, h]

theorem errInfoValue_lt (p : Params) (d info : Nat) : errInfoValue p d info < 2 ^ p.bitposW := by
  unfold errInfoValue
  split
  · assumption
  · exact Nat.mod_lt _ (Nat.two_pow_pos _)

/-- ERR_INFO's register holds any 8-bit number, whatever LEN_W is. -/
theorem lt_bitposW {p : Params} {n : Nat} (h : n < 256) : n < 2 ^ p.bitposW := by
  have : 2 ^ 8 ≤ 2 ^ p.bitposW := Nat.pow_le_pow_right (by omega) (by simp [Params.bitposW])
  omega

/-- A bit position of the blob fits ERR_INFO (R45). -/
theorem lt_bitposW_of_inLen {s : State} {n : Nat} (h : s.inLen < 2 ^ s.cfg.lenW) (hn : n ≤ 8 * s.inLen) :
    n < 2 ^ s.cfg.bitposW := by
  unfold Params.bitposW
  rw [Nat.pow_add]
  omega

/-- What an abort leaves, in the words of `Aborted`, where ERR_INFO's register holds the number. -/
theorem aborted_abort {e : Err} {info : Nat} {s : State} (h : info < 2 ^ s.cfg.bitposW) :
    Aborted e.code info s (abort e info s) := by
  simp [Aborted, errInfoValue_of_lt h]

/-- R38's bounds. -/
theorem codeWellFormed_iff {c : Bits} : codeWellFormed c = true ↔ 1 ≤ c.length ∧ c.length ≤ 255 := by
  simp only [codeWellFormed, Bool.and_eq_true, decide_eq_true_eq]
  exact Iff.rfl

theorem freeCode_length {d n : Nat} {c : Bits} (h : freeCode d n = some c) : c.length ≤ Config.codeMax := by
  unfold freeCode at h
  split at h
  · cases h
    have := Nat.mod_lt (Config.free d (.codeLen n)) (show 0 < 256 by omega)
    simp only [List.length_map, List.length_range, Config.codeMax]
    omega
  · cases h

theorem freeQueue_ok (d : Nat) :
    (freeQueue d).Pairwise (· < ·) ∧ (freeQueue d).length ≤ Config.pqCap ∧
      ∀ i, i ∈ freeQueue d → i < Config.nodeCap := by
  unfold freeQueue
  refine ⟨?_, ?_, fun i hi => ?_⟩
  · exact (List.pairwise_lt_range.filter _).sublist (List.take_sublist _ _)
  · simp
  · exact List.mem_range.mp (List.mem_filter.mp (List.mem_of_mem_take hi)).1

end Sys2Proof.Machine
end

