-- ==== Sys2Proof/Laws/Operands.lean ====
section
/-! SUPPORT. What reading an operand gives: the elements in order, or a stop at the first one with no value. -/

namespace Sys2Proof.Machine

variable {α : Type}

/-- A read of `n` elements succeeds with `l` exactly when the elements are those of `l`. -/
theorem readFrom_eq_ok {m : Store α} {f : Nat → Fault} {i n : Nat} {l : List α} :
    readFrom m f i n = .ok l ↔ l.length = n ∧ ∀ j, j < n → m.get? (i + j) = l[j]? := by
  induction n generalizing i l with
  | zero =>
    simp only [readFrom, Except.ok.injEq]
    constructor
    · rintro rfl; simp
    · rintro ⟨h, -⟩; exact (List.length_eq_zero_iff.mp h).symm
  | succ n ih =>
    simp only [readFrom]
    cases hg : m.get? i with
    | none =>
      simp only [reduceCtorEq, false_iff, not_and]
      intro hl h
      have := h 0 (by omega)
      cases l with
      | nil => simp at hl
      | cons v rest => simp [hg] at this
    | some v =>
      simp only
      constructor
      · intro h
        cases hr : readFrom m f (i + 1) n with
        | error e => rw [hr] at h; cases h
        | ok rest =>
          rw [hr] at h
          cases h
          obtain ⟨hlen, hget⟩ := ih.mp hr
          refine ⟨by simp [hlen], fun j hj => ?_⟩
          cases j with
          | zero => simpa using hg
          | succ j => have := hget j (by omega); rw [show i + (j + 1) = i + 1 + j by omega]; simpa using this
      · rintro ⟨hlen, hget⟩
        cases l with
        | nil => simp at hlen
        | cons w rest =>
          have hw : v = w := by have := hget 0 (by omega); simpa [hg] using this
          subst hw
          have : readFrom m f (i + 1) n = .ok rest := by
            refine ih.mpr ⟨by simpa using hlen, fun j hj => ?_⟩
            have := hget (j + 1) (by omega)
            rw [show i + (j + 1) = i + 1 + j by omega] at this
            simpa using this
          rw [this]

/-- A read that stops, stops at the first element with no value. -/
theorem readFrom_eq_error {m : Store α} {f : Nat → Fault} {i n : Nat} {e : Stop} :
    readFrom m f i n = .error e ↔
      ∃ j, j < n ∧ m.get? (i + j) = none ∧ (∀ k, k < j → (m.get? (i + k)).isSome = true) ∧
        e = .fault (f (i + j)) := by
  induction n generalizing i with
  | zero => simp [readFrom]
  | succ n ih =>
    simp only [readFrom]
    cases hg : m.get? i with
    | none =>
      simp only [Except.error.injEq]
      constructor
      · rintro rfl; exact ⟨0, by omega, by simpa using hg, by simp, rfl⟩
      · rintro ⟨j, -, -, hk, rfl⟩
        cases j with
        | zero => rfl
        | succ j => have := hk 0 (by omega); simp [hg] at this
    | some v =>
      refine Iff.trans (b := readFrom m f (i + 1) n = .error e) ?_ (ih.trans ?_)
      · cases readFrom m f (i + 1) n <;> simp
      constructor
      · rintro ⟨j, hj, hn, hk, rfl⟩
        refine ⟨j + 1, by omega, by rw [← hn]; congr 1; omega, fun k hk' => ?_, by congr 2; omega⟩
        cases k with
        | zero => simp [hg]
        | succ k => have := hk k (by omega); rwa [show i + 1 + k = i + (k + 1) by omega] at this
      · rintro ⟨j, hj, hn, hk, rfl⟩
        cases j with
        | zero => simp [hg] at hn
        | succ j =>
          refine ⟨j, by omega, by rw [← hn]; congr 1; omega, fun k hk' => ?_, by congr 2; omega⟩
          have := hk (k + 1) (by omega)
          rwa [show i + (k + 1) = i + 1 + k by omega] at this

theorem readFrom_zero_eq_ok {m : Store α} {f : Nat → Fault} {l : List α} {n : Nat} :
    readFrom m f 0 n = .ok l ↔ n = l.length ∧ m.Holds l := by
  rw [readFrom_eq_ok]
  simp only [Nat.zero_add, Store.Holds]
  constructor
  · rintro ⟨rfl, h⟩; exact ⟨rfl, h⟩
  · rintro ⟨rfl, h⟩; exact ⟨rfl, h⟩

/-- IN[0 : IN_LEN] reads as the byte list it is. -/
theorem readInput_eq_ok {s : State} {input : List Byte} : readInput s = .ok input ↔ InputIs s input :=
  readFrom_zero_eq_ok

/-- BITS[0 : BITS_LEN] reads as the bit sequence it is. -/
theorem readPayload_eq_ok {s : State} {p : Bits} : readPayload s = .ok p ↔ PayloadIs s p :=
  readFrom_zero_eq_ok

theorem readFrom_ok_of_specified {m : Store α} {f : Nat → Fault} {n : Nat} (h : m.Specified n) :
    ∃ l, readFrom m f 0 n = .ok l := by
  cases hr : readFrom m f 0 n with
  | ok l => exact ⟨l, rfl⟩
  | error e =>
    obtain ⟨j, hj, hn, -⟩ := readFrom_eq_error.mp hr
    have := h j hj
    rw [Nat.zero_add] at hn
    rw [hn] at this
    cases this

theorem checkInputLength_eq_ok {s : State} {u : Unit} : checkInputLength s = .ok u ↔ s.inLen ≤ s.cfg.inCap := by
  unfold checkInputLength; split <;> simp <;> omega

theorem checkInputLength_eq_error {s : State} {e : Stop} :
    checkInputLength s = .error e ↔ s.cfg.inCap < s.inLen ∧ e = .raise .bufferOverflow 0 := by
  unfold checkInputLength; split <;> simp [eq_comm] <;> omega

theorem InputIs.unique {s : State} {a b : List Byte} (ha : InputIs s a) (hb : InputIs s b) : a = b := by
  have := (readInput_eq_ok.mpr ha).symm.trans (readInput_eq_ok.mpr hb)
  simpa using this

theorem PayloadIs.unique {s : State} {a b : Bits} (ha : PayloadIs s a) (hb : PayloadIs s b) : a = b := by
  have := (readPayload_eq_ok.mpr ha).symm.trans (readPayload_eq_ok.mpr hb)
  simpa using this

theorem OutputIs.unique {s : State} {a b : List Byte} (ha : OutputIs s a) (hb : OutputIs s b) : a = b := by
  have ha := readFrom_zero_eq_ok (f := .unwrittenInput).mpr ha
  have := ha.symm.trans (readFrom_zero_eq_ok.mpr hb)
  simpa using this

end Sys2Proof.Machine
end

