-- ==== Sys2Proof/Laws/BitStream.lean ====
section
/-! SUPPORT. The bit-sequence functions: lengths, `val` against `bitsN`, byte packing, and reading a field where it
stands. -/

namespace Sys2Proof.Machine

/-! ## `val` and `bitsN` (R8) -/

@[simp] theorem bitsN_length (n v : Nat) : (bitsN n v).length = n := by
  induction n with
  | zero => rfl
  | succ n ih => simp [bitsN, ih]

theorem valFrom_eq (acc : Nat) (b : Bits) : valFrom acc b = acc * 2 ^ b.length + val b := by
  induction b generalizing acc with
  | nil => simp [valFrom, val]
  | cons x rest ih =>
    simp only [valFrom, val, List.length_cons]
    rw [ih, ih (2 * 0 + x.toNat)]
    ring

theorem val_cons (x : Bool) (b : Bits) : val (x :: b) = x.toNat * 2 ^ b.length + val b := by
  simp only [val, valFrom]
  rw [valFrom_eq]
  simp [val]

@[simp] theorem val_nil : val [] = 0 := rfl

theorem val_lt (b : Bits) : val b < 2 ^ b.length := by
  induction b with
  | nil => simp
  | cons x rest ih =>
    rw [val_cons, List.length_cons, Nat.pow_succ]
    cases x <;> simp <;> omega

theorem val_bitsN_mod (n v : Nat) : val (bitsN n v) = v % 2 ^ n := by
  induction n with
  | zero => simp [bitsN, Nat.mod_one]
  | succ n ih =>
    rw [bitsN, val_cons, ih, bitsN_length]
    have h : v % 2 ^ (n + 1) = v / 2 ^ n % 2 * 2 ^ n + v % 2 ^ n := by
      rw [Nat.pow_succ, Nat.mod_mul, Nat.mul_comm (2 ^ n), Nat.add_comm]
    rw [h]
    rcases Nat.mod_two_eq_zero_or_one (v / 2 ^ n) with h | h <;> simp [h]

theorem val_bitsN {n v : Nat} (h : v < 2 ^ n) : val (bitsN n v) = v := by
  rw [val_bitsN_mod, Nat.mod_eq_of_lt h]

/-- Sequences of one length that spell the same number are equal. -/
theorem val_inj {a b : Bits} (hl : a.length = b.length) (h : val a = val b) : a = b := by
  induction a generalizing b with
  | nil => exact (List.length_eq_zero_iff.mp hl.symm).symm
  | cons x rest ih =>
    cases b with
    | nil => simp at hl
    | cons y rest' =>
      have hl' : rest.length = rest'.length := by simpa using hl
      rw [val_cons, val_cons, hl'] at h
      have h1 := val_lt rest
      have h2 := val_lt rest'
      rw [hl'] at h1
      cases x <;> cases y <;> simp at h <;> first | (rw [ih hl' h]) | omega

theorem bitsN_val (b : Bits) : bitsN b.length (val b) = b :=
  val_inj (by simp) (val_bitsN (val_lt b))

/-! ## Bytes (R64, R106) -/

@[simp] theorem bsFromBytes_length (l : List Byte) : (bsFromBytes l).length = 8 * l.length := by
  induction l with
  | nil => rfl
  | cons b rest ih => simp [bsFromBytes, ih]; omega

theorem bsFromBytes_append (a b : List Byte) : bsFromBytes (a ++ b) = bsFromBytes a ++ bsFromBytes b := by
  induction a with
  | nil => rfl
  | cons x rest ih => simp [bsFromBytes, ih]

/-- Eight bits at the front are one byte. -/
theorem bsToBytes_append {w : Bits} (h : w.length = 8) (rest : Bits) :
    bsToBytes (w ++ rest) = BitVec.ofNat 8 (val w) :: bsToBytes rest := by
  match w, h with
  | [b0, b1, b2, b3, b4, b5, b6, b7], _ => rfl

theorem bsToBytes_bsFromBytes (l : List Byte) : bsToBytes (bsFromBytes l) = l := by
  induction l with
  | nil => rfl
  | cons b rest ih =>
    rw [bsFromBytes, bsToBytes_append (by simp), ih, val_bitsN b.isLt]
    simp

theorem bsFromBytes_bsToBytes {b : Bits} (h : b.length % 8 = 0) : bsFromBytes (bsToBytes b) = b := by
  obtain ⟨n, hn⟩ : ∃ n, b.length = 8 * n := ⟨b.length / 8, by omega⟩
  clear h
  induction n generalizing b with
  | zero => rw [List.length_eq_zero_iff.mp (by omega : b.length = 0)]; rfl
  | succ n ih =>
    have h8 : (b.take 8).length = 8 := by simp; omega
    have hd : (b.drop 8).length = 8 * n := by simp; omega
    conv_lhs => rw [← List.take_append_drop 8 b]
    rw [bsToBytes_append h8, bsFromBytes, ih hd]
    have hv := val_lt (b.take 8)
    rw [h8] at hv
    have : bitsN 8 (BitVec.ofNat 8 (val (b.take 8))).toNat = b.take 8 := by
      rw [BitVec.toNat_ofNat, Nat.mod_eq_of_lt hv]
      have := bitsN_val (b.take 8)
      rwa [h8] at this
    rw [this, List.take_append_drop]

@[simp] theorem bsToBytes_length {b : Bits} (h : b.length % 8 = 0) : (bsToBytes b).length = b.length / 8 := by
  have := congrArg List.length (bsFromBytes_bsToBytes h)
  rw [bsFromBytes_length] at this
  omega

theorem bitsN_getElem? (n v i : Nat) (h : i < n) : (bitsN n v)[i]? = some (v.testBit (n - 1 - i)) := by
  induction n generalizing i with
  | zero => omega
  | succ n ih =>
    cases i with
    | zero => simp [bitsN, Nat.testBit_eq_decide_div_mod_eq]
    | succ i =>
      rw [bitsN, List.getElem?_cons_succ, ih i (by omega)]
      congr 2
      omega

theorem bsFromBytes_getElem? {l : List Byte} {i : Nat} {w : Byte} (h : l[i / 8]? = some w) :
    (bsFromBytes l)[i]? = some (w.getLsbD (7 - i % 8)) := by
  induction l generalizing i with
  | nil => simp at h
  | cons b rest ih =>
    rw [bsFromBytes]
    by_cases hi : i < 8
    · rw [Nat.div_eq_of_lt hi] at h
      cases h
      rw [List.getElem?_append_left (by simpa using hi), bitsN_getElem? _ _ _ hi, Nat.mod_eq_of_lt hi]
      rfl
    · have h8 : i / 8 = (i - 8) / 8 + 1 := by omega
      rw [h8, List.getElem?_cons_succ] at h
      rw [List.getElem?_append_right (by simpa using hi), bitsN_length, ih h]
      congr 3
      omega

/-! ## Pads and fields -/

theorem padLength_le (a : Nat) : padLength a ≤ 7 := by unfold padLength; omega

theorem add_padLength (a : Nat) : (a + padLength a) % 8 = 0 := by unfold padLength; omega

@[simp] theorem zeros_length (n : Nat) : (zeros n).length = n := by simp [zeros]

/-- A field that stands in the sequence is read whole, and the cursor moves past it (R105). -/
theorem bsGet_append (a w c : Bits) :
    bsGet (a ++ (w ++ c)) a.length w.length = some (w, a.length + w.length) := by
  simp [bsGet, bsSlice]

theorem bsGet_eq_none {b : Bits} {cur n : Nat} : bsGet b cur n = none ↔ b.length < cur + n := by
  unfold bsGet; split <;> simp <;> omega

theorem bsGet_eq_some {b w : Bits} {cur n c : Nat} :
    bsGet b cur n = some (w, c) ↔ cur + n ≤ b.length ∧ w = bsSlice b cur (cur + n) ∧ c = cur + n := by
  unfold bsGet; split <;> simp [eq_comm] <;> omega

theorem bsSlice_length {b : Bits} {i j : Nat} (hj : j ≤ b.length) : (bsSlice b i j).length = j - i := by
  simp [bsSlice]; omega

theorem bsSlice_append (a w c : Bits) : bsSlice (a ++ (w ++ c)) a.length (a.length + w.length) = w := by
  simp [bsSlice]

end Sys2Proof.Machine
end

