-- ==== Sys2Proof/Laws/Frequency.lean ====
section
/-! SUPPORT. The frequency table of a byte list: its counts, their sum, and the number of symbols. -/

namespace Sys2Proof.Machine

theorem tableGet_foldl_countByte (input : List Byte) (f : Table Nat) (b : Byte) :
    tableGet (input.foldl countByte f) b = tableGet f b + input.count b := by
  induction input generalizing f with
  | nil => simp
  | cons x rest ih =>
    rw [List.foldl_cons, ih, countByte, tableGet_tableSet, List.count_cons]
    by_cases h : x = b
    · subst h; simp; omega
    · simp [h]

/-- FREQ[s] counts the bytes equal to s (R110). -/
@[simp] theorem tableGet_freqOf (input : List Byte) (b : Byte) : tableGet (freqOf input) b = input.count b := by
  simp [freqOf, tableGet_foldl_countByte]

/-- Summed over a list that names each symbol once, the occurrences are the whole input. -/
theorem sum_count {S : List Byte} (hn : S.Nodup) (hm : ∀ b, b ∈ S) (input : List Byte) :
    (S.map fun b => input.count b).sum = input.length := by
  induction input with
  | nil => simp
  | cons x rest ih =>
    have h1 : (S.map fun b => (x :: rest).count b).sum =
        (S.map fun b => rest.count b).sum + (S.map fun b => if x = b then 1 else 0).sum := by
      rw [← List.sum_map_add]
      simp [List.count_cons]
    have h2 : (S.map fun b => if x = b then 1 else 0).sum = S.count x := by
      clear h1 hn hm ih
      induction S with
      | nil => rfl
      | cons y S ih =>
        rw [List.map_cons, List.sum_cons, ih, List.count_cons]
        by_cases h : x = y
        · subst h; simp; omega
        · simp [h, Ne.symm h]
    rw [h1, ih, h2, List.count_eq_one_of_mem hn (hm x), List.length_cons]

/-- The sum of the counts is the input's length (R46 (a)). -/
theorem freqTotal_freqOf (input : List Byte) : freqTotal (freqOf input) = input.length := by
  unfold freqTotal
  rw [show (allSymbols.map (tableGet (freqOf input))) = allSymbols.map fun b => input.count b from
    List.map_congr_left fun b _ => tableGet_freqOf input b]
  exact sum_count allSymbols_nodup mem_allSymbols input

/-- No count is above the sum of all (R45). -/
theorem tableGet_le_freqTotal (f : Table Nat) (b : Byte) : tableGet f b ≤ freqTotal f :=
  List.le_sum_of_mem (List.mem_map.mpr ⟨b, mem_allSymbols b, rfl⟩)

theorem distinctSymbols_le (f : Table Nat) : distinctSymbols f ≤ 256 := by
  have := (allSymbols.length_filter_le fun s => decide (0 < tableGet f s))
  rwa [allSymbols_length] at this

/-- SYM_COUNT is the number of different bytes (R111). -/
theorem distinctSymbols_freqOf (input : List Byte) : distinctSymbols (freqOf input) = input.dedup.length := by
  unfold distinctSymbols
  refine List.Perm.length_eq ((List.perm_ext_iff_of_nodup (allSymbols_nodup.filter _) (List.nodup_dedup _)).mpr ?_)
  intro b
  simp [mem_allSymbols, List.count_pos_iff]

theorem distinctSymbols_pos {f : Table Nat} : 0 < distinctSymbols f ↔ ∃ b, 0 < tableGet f b := by
  unfold distinctSymbols
  rw [List.length_pos_iff_exists_mem]
  simp [mem_allSymbols]

theorem toNat_ofNat_distinctSymbols (f : Table Nat) :
    (BitVec.ofNat 9 (distinctSymbols f)).toNat = distinctSymbols f := by
  have := distinctSymbols_le f
  rw [BitVec.toNat_ofNat, Nat.mod_eq_of_lt (by omega)]

/-! ## COUNT -/

/-- Everything COUNT's effect can answer (R111). -/
theorem countEffect_eq_ok {s t : State} :
    countEffect s = .ok t ↔ s.inLen ≤ s.cfg.inCap ∧ ∃ input, InputIs s input ∧
      t = { s with freq := freqOf input, symCount := BitVec.ofNat 9 (distinctSymbols (freqOf input)) } := by
  unfold countEffect
  cases hc : checkInputLength s with
  | error e =>
    have := (checkInputLength_eq_error.mp hc).1
    simp only [Bind.bind, Except.bind, reduceCtorEq, false_iff, not_and]
    omega
  | ok u =>
    have := checkInputLength_eq_ok.mp hc
    simp only [Bind.bind, Except.bind, this, true_and, ← readInput_eq_ok]
    cases hr : readInput s with
    | error e => simp
    | ok input => simp [Pure.pure, Except.pure, eq_comm]

/-- Everything that stops COUNT's effect (R111, R205, R232). -/
theorem countEffect_eq_error {s : State} {e : Stop} :
    countEffect s = .error e ↔
      (s.cfg.inCap < s.inLen ∧ e = .raise .bufferOverflow 0) ∨
      (s.inLen ≤ s.cfg.inCap ∧ readInput s = .error e) := by
  unfold countEffect
  cases hc : checkInputLength s with
  | error e' =>
    obtain ⟨h, rfl⟩ := checkInputLength_eq_error.mp hc
    simp only [Bind.bind, Except.bind, h, true_and, Except.error.injEq, show ¬ s.inLen ≤ s.cfg.inCap by omega,
      false_and, or_false, eq_comm]
  | ok u =>
    have h := checkInputLength_eq_ok.mp hc
    simp only [Bind.bind, Except.bind, h, true_and, show ¬ s.cfg.inCap < s.inLen by omega, false_and, false_or]
    cases hr : readInput s <;> simp [Pure.pure, Except.pure]

end Sys2Proof.Machine
end

