-- ==== Sys2Proof/Laws/TreeBuilder.lean ====
section
/-! SUPPORT. The tree builder: what the queue's primitives answer, and the invariant of BUILD's loop, from which
every property of a built tree follows. -/

namespace Sys2Proof.Machine

/-! ## The order of keys (R121) -/

/-- The order of R121 as a proposition. -/
def KeyLt (nodes : List NodeEntry) (i j : Nat) : Prop :=
  nodeFreq nodes i < nodeFreq nodes j ∨ (nodeFreq nodes i = nodeFreq nodes j ∧ i < j)

theorem keyLess_iff {nodes : List NodeEntry} {i j : Nat} : keyLess nodes i j = true ↔ KeyLt nodes i j := by
  simp [keyLess, KeyLt]

theorem KeyLt.trans {nodes : List NodeEntry} {i j k : Nat} (h : KeyLt nodes i j) (h' : KeyLt nodes j k) :
    KeyLt nodes i k := by
  unfold KeyLt at *; omega

theorem KeyLt.total {nodes : List NodeEntry} {i j : Nat} (h : i ≠ j) : KeyLt nodes i j ∨ KeyLt nodes j i := by
  unfold KeyLt; omega

/-! ## The queue (R122, R123) -/

theorem leastIndex_eq_none {nodes : List NodeEntry} {pq : List Nat} : leastIndex nodes pq = none ↔ pq = [] := by
  cases pq with
  | nil => simp [leastIndex]
  | cons i rest =>
    simp only [leastIndex, reduceCtorEq, iff_false]
    cases leastIndex nodes rest with
    | none => simp
    | some m => simp only; split <;> simp

theorem leastIndex_spec {nodes : List NodeEntry} {pq : List Nat} {m : Nat} (h : leastIndex nodes pq = some m) :
    m ∈ pq ∧ ∀ j, j ∈ pq → j ≠ m → KeyLt nodes m j := by
  induction pq generalizing m with
  | nil => simp [leastIndex] at h
  | cons i rest ih =>
    simp only [leastIndex] at h
    cases hr : leastIndex nodes rest with
    | none =>
      rw [hr] at h
      cases h
      simp [leastIndex_eq_none.mp hr]
    | some m' =>
      rw [hr] at h
      obtain ⟨hm, hl⟩ := ih hr
      simp only at h
      split at h
      · next hk =>
        cases h
        refine ⟨List.mem_cons_of_mem _ hm, fun j hj hne => ?_⟩
        rcases List.mem_cons.mp hj with rfl | hj
        · exact keyLess_iff.mp hk
        · exact hl j hj hne
      · next hk =>
        cases h
        refine ⟨List.mem_cons_self, fun j hj hne => ?_⟩
        rcases List.mem_cons.mp hj with rfl | hj
        · exact absurd rfl hne
        · by_cases hmi : m' = i
          · subst hmi; exact hl j (by simpa [hne] using hj) hne
          · have him : KeyLt nodes i m' := (KeyLt.total hmi).resolve_left fun h => hk (keyLess_iff.mpr h)
            by_cases hjm : j = m'
            · subst hjm; exact him
            · exact him.trans (hl j hj hjm)

/-- EXTRACT_MIN takes the index with the least key and leaves the others (R122). -/
theorem extractMin_spec (nodes : List NodeEntry) {pq : List Nat} (h : pq ≠ []) :
    ∃ m, extractMin nodes pq = some (m, pq.filter fun i => decide (i ≠ m)) ∧ m ∈ pq ∧
      ∀ j, j ∈ pq → j ≠ m → KeyLt nodes m j := by
  cases hl : leastIndex nodes pq with
  | none => exact absurd (leastIndex_eq_none.mp hl) h
  | some m => exact ⟨m, by simp [extractMin, hl], leastIndex_spec hl⟩

/-- An index above all of a rising queue goes to its end (R123). -/
theorem pqInsert_of_lt {i : Nat} {pq : List Nat} (h : ∀ j, j ∈ pq → j < i) : pqInsert i pq = pq ++ [i] := by
  induction pq with
  | nil => rfl
  | cons j rest ih =>
    have hj := h j List.mem_cons_self
    rw [pqInsert, if_neg (by omega), if_neg (by omega), ih fun k hk => h k (List.mem_cons_of_mem _ hk)]
    rfl

theorem length_filter_ne {pq : List Nat} {m : Nat} (hn : pq.Nodup) (hm : m ∈ pq) :
    (pq.filter fun i => decide (i ≠ m)).length + 1 = pq.length := by
  have h1 : (pq.filter fun i => decide (i ≠ m)) = pq.erase m := by
    rw [hn.erase_eq_filter]
    exact List.filter_congr fun i _ => by by_cases h : i = m <;> simp [h]
  rw [h1, List.length_erase_of_mem hm]
  have := List.length_pos_of_mem hm
  omega

/-! ## The leaves (R126, first loop) -/

/-- The symbols that occur, ascending. -/
def occurring (freq : Table Nat) : List Byte := allSymbols.filter fun b => decide (0 < tableGet freq b)

/-- The leaves BUILD writes. -/
def leavesOf (freq : Table Nat) : List NodeEntry := (occurring freq).map fun b => leafNode b (tableGet freq b)

theorem leavesOf_length (freq : Table Nat) : (leavesOf freq).length = distinctSymbols freq := by
  simp [leavesOf, occurring, distinctSymbols]

theorem pqInsert_range (n : Nat) : pqInsert n (List.range n) = List.range (n + 1) := by
  rw [pqInsert_of_lt fun j hj => List.mem_range.mp hj, List.range_succ]

theorem foldl_insertLeaf (freq : Table Nat) (S : List Byte) (nodes : List NodeEntry) :
    S.foldl (insertLeaf freq) { nodes := nodes, pq := List.range nodes.length } =
      { nodes := nodes ++ (S.filter fun b => decide (0 < tableGet freq b)).map fun b =>
          leafNode b (tableGet freq b),
        pq := List.range (nodes.length + (S.filter fun b => decide (0 < tableGet freq b)).length) } := by
  induction S generalizing nodes with
  | nil => simp
  | cons b rest ih =>
    rw [List.foldl_cons]
    by_cases hb : 0 < tableGet freq b
    · have hi : insertLeaf freq { nodes := nodes, pq := List.range nodes.length } b =
          { nodes := nodes ++ [leafNode b (tableGet freq b)],
            pq := List.range (nodes ++ [leafNode b (tableGet freq b)]).length } := by
        simp [insertLeaf, hb, pqInsert_range]
      rw [hi, ih]
      simp [hb, Nat.add_assoc, Nat.add_comm 1]
    · have hi : insertLeaf freq { nodes := nodes, pq := List.range nodes.length } b =
          { nodes := nodes, pq := List.range nodes.length } := by
        simp [insertLeaf, hb]
      rw [hi, ih]
      simp [hb]

/-- After the first loop NODE holds the leaves in ascending symbol value and PQ all of them. -/
theorem leafForest_eq (freq : Table Nat) :
    leafForest freq = { nodes := leavesOf freq, pq := List.range (distinctSymbols freq) } := by
  have := foldl_insertLeaf freq allSymbols []
  simpa [leafForest, leavesOf, occurring, distinctSymbols] using this

theorem leafForest_pq_ne_nil {freq : Table Nat} : (leafForest freq).pq ≠ [] ↔ 0 < distinctSymbols freq := by
  rw [leafForest_eq]
  simp [Nat.pos_iff_ne_zero]

/-! ## Children -/

theorem getElem?_append_one {α : Type} {l : List α} {x : α} {i : Nat} {e : α} :
    (l ++ [x])[i]? = some e ↔ l[i]? = some e ∨ (i = l.length ∧ e = x) := by
  rcases Nat.lt_trichotomy i l.length with h | h | h
  · rw [List.getElem?_append_left h]; constructor
    · exact .inl
    · rintro (h' | ⟨h', -⟩)
      · exact h'
      · omega
  · subst h; simp [eq_comm]
  · rw [List.getElem?_eq_none (by simp; omega), List.getElem?_eq_none (by omega)]
    simp; omega

theorem nodeFreq_append {nodes : List NodeEntry} {x : NodeEntry} {i : Nat} (h : i < nodes.length) :
    nodeFreq (nodes ++ [x]) i = nodeFreq nodes i := by
  simp [nodeFreq, List.getElem?_append_left h]

theorem IsChild.lt_length {nodes : List NodeEntry} {p c : Nat} (h : IsChild nodes p c) : p < nodes.length := by
  obtain ⟨e, he, -⟩ := h
  exact (List.getElem?_eq_some_iff.mp he).1

theorem isChild_append {nodes : List NodeEntry} {x : NodeEntry} {p c : Nat} :
    IsChild (nodes ++ [x]) p c ↔
      IsChild nodes p c ∨
        (p = nodes.length ∧ x.kind = .internal ∧ (x.left.toNat = c ∨ x.right.toNat = c)) := by
  unfold IsChild
  constructor
  · rintro ⟨e, he, hk, hc⟩
    rcases getElem?_append_one.mp he with he | ⟨rfl, rfl⟩
    · exact .inl ⟨e, he, hk, hc⟩
    · exact .inr ⟨rfl, hk, hc⟩
  · rintro (⟨e, he, hk, hc⟩ | ⟨rfl, hk, hc⟩)
    · exact ⟨e, getElem?_append_one.mpr (.inl he), hk, hc⟩
    · exact ⟨x, getElem?_append_one.mpr (.inr ⟨rfl, rfl⟩), hk, hc⟩

theorem isChild_append_of_lt {nodes : List NodeEntry} {x : NodeEntry} {p c : Nat} (h : p < nodes.length) :
    IsChild (nodes ++ [x]) p c ↔ IsChild nodes p c := by
  rw [isChild_append]
  constructor
  · rintro (h' | ⟨rfl, -⟩)
    · exact h'
    · omega
  · exact .inl

/-! ## The invariant of the loop -/

/-- What each internal node is, by its index `k` (R125, R46 (b), (c)). -/
structure InternalOk (nodes : List NodeEntry) (k : Nat) (e : NodeEntry) : Prop where
  kind : e.kind = .internal
  sym : e.sym = 0
  left : e.left.toNat < k
  right : e.right.toNat < k
  ne : e.left ≠ e.right
  sum : e.freq = nodeFreq nodes e.left.toNat + nodeFreq nodes e.right.toNat
  /-- Neither child was combined before. -/
  fresh : ∀ p, p < k → ¬ IsChild nodes p e.left.toNat ∧ ¬ IsChild nodes p e.right.toNat
  /-- The left child had the least key of all not yet combined, the right child the next. -/
  leastLeft : ∀ j, j < k → (∀ p, p < k → ¬ IsChild nodes p j) → j ≠ e.left.toNat →
    KeyLt nodes e.left.toNat j
  leastRight : ∀ j, j < k → (∀ p, p < k → ¬ IsChild nodes p j) → j ≠ e.left.toNat → j ≠ e.right.toNat →
    KeyLt nodes e.right.toNat j

/-- The invariant of BUILD's second loop. -/
structure ForestOk (freq : Table Nat) (f : Forest) : Prop where
  /-- The leaves stand first (R127). -/
  leaves : f.nodes.take (distinctSymbols freq) = leavesOf freq
  /-- Each turn takes one index off the queue and adds one node (R124). -/
  size : f.nodes.length + f.pq.length = 2 * distinctSymbols freq
  nonempty : 0 < f.pq.length
  sorted : f.pq.Pairwise (· < ·)
  /-- The last node made is in the queue. -/
  last : f.nodes.length - 1 ∈ f.pq
  inner : ∀ k e, distinctSymbols freq ≤ k → f.nodes[k]? = some e → InternalOk f.nodes k e
  /-- The queue holds exactly the nodes that are no node's child. -/
  roots : ∀ c, c ∈ f.pq ↔ c < f.nodes.length ∧ ∀ p, ¬ IsChild f.nodes p c
  /-- No node is shared. -/
  unique : ∀ p q c, IsChild f.nodes p c → IsChild f.nodes q c → p = q
  /-- The frequencies in the queue add up to all of FREQ. -/
  total : (f.pq.map (nodeFreq f.nodes)).sum = freqTotal freq

theorem ForestOk.length_le {freq : Table Nat} {f : Forest} (h : ForestOk freq f) : f.nodes.length ≤ 511 := by
  have h1 := h.size
  have h2 := h.nonempty
  have h3 := distinctSymbols_le freq
  omega

theorem ForestOk.le_length {freq : Table Nat} {f : Forest} (h : ForestOk freq f) :
    distinctSymbols freq ≤ f.nodes.length := by
  have := congrArg List.length h.leaves
  rw [List.length_take, leavesOf_length] at this
  omega

theorem ForestOk.leaf {freq : Table Nat} {f : Forest} (h : ForestOk freq f) {k : Nat} {e : NodeEntry}
    (hk : k < distinctSymbols freq) (he : f.nodes[k]? = some e) : (leavesOf freq)[k]? = some e := by
  rw [← h.leaves, List.getElem?_take, if_pos hk, he]

theorem leavesOf_getElem? {freq : Table Nat} {k : Nat} {e : NodeEntry} (h : (leavesOf freq)[k]? = some e) :
    ∃ b, (occurring freq)[k]? = some b ∧ e = leafNode b (tableGet freq b) ∧ 0 < tableGet freq b := by
  rw [leavesOf, List.getElem?_map, Option.map_eq_some_iff] at h
  obtain ⟨b, hb, rfl⟩ := h
  have := List.mem_of_getElem? hb
  exact ⟨b, hb, rfl, by simpa [occurring] using (List.mem_filter.mp this).2⟩

theorem sum_map_filter {α : Type} (p : α → Bool) (g : α → Nat) (l : List α) (h : ∀ x, x ∈ l → p x = false → g x = 0) :
    ((l.filter p).map g).sum = (l.map g).sum := by
  induction l with
  | nil => rfl
  | cons x rest ih =>
    have ih := ih fun y hy => h y (List.mem_cons_of_mem _ hy)
    by_cases hp : p x = true
    · simp [hp, ih]
    · simp only [Bool.not_eq_true] at hp
      simp [hp, ih, h x List.mem_cons_self hp]

theorem map_range_nodeFreq (nodes : List NodeEntry) :
    (List.range nodes.length).map (nodeFreq nodes) = nodes.map (·.freq) := by
  apply List.ext_getElem
  · simp
  · intro i h1 h2
    simp at h1
    simp [nodeFreq, h1]

/-- The invariant holds when the loop starts. -/
theorem leafForest_ok {freq : Table Nat} (h : 0 < distinctSymbols freq) : ForestOk freq (leafForest freq) := by
  have hlen := leavesOf_length freq
  have hnc : ∀ p c, ¬ IsChild (leavesOf freq) p c := by
    rintro p c ⟨e, he, hk, -⟩
    obtain ⟨b, -, rfl, -⟩ := leavesOf_getElem? he
    cases hk
  rw [leafForest_eq]
  refine ⟨?_, ?_, by simpa using h, List.pairwise_lt_range, ?_, ?_, ?_, ?_, ?_⟩
  · simp only; rw [List.take_of_length_le (by omega)]
  · simp only [hlen, List.length_range]; omega
  · simp only [hlen, List.mem_range]; omega
  · intro k e hk he
    have := (List.getElem?_eq_some_iff.mp he).1
    simp only at this
    omega
  · intro c; simp [hlen, hnc]
  · intro p q c hp; exact absurd hp (hnc p c)
  · simp only
    rw [← hlen, map_range_nodeFreq, leavesOf, List.map_map, freqTotal, occurring]
    rw [show ((fun e : NodeEntry => e.freq) ∘ fun b => leafNode b (tableGet freq b)) = tableGet freq from rfl]
    exact sum_map_filter _ _ _ fun b _ hb => by simpa using hb

theorem toNat_ofNat9 {n : Nat} (h : n < 512) : (BitVec.ofNat 9 n).toNat = n := by
  rw [BitVec.toNat_ofNat, Nat.mod_eq_of_lt h]

theorem InternalOk.append {nodes : List NodeEntry} {k : Nat} {e x : NodeEntry} (hk : k < nodes.length)
    (h : InternalOk nodes k e) : InternalOk (nodes ++ [x]) k e := by
  have hkey : ∀ i j, i < k → j < k → (KeyLt (nodes ++ [x]) i j ↔ KeyLt nodes i j) := by
    intro i j hi hj
    unfold KeyLt
    rw [nodeFreq_append (by omega), nodeFreq_append (by omega)]
  have hch : ∀ j, (∀ p, p < k → ¬ IsChild (nodes ++ [x]) p j) ↔ ∀ p, p < k → ¬ IsChild nodes p j := by
    intro j
    refine forall_congr' fun p => ?_
    constructor <;> intro hh hp <;> have hh := hh hp <;>
      rwa [isChild_append_of_lt (by omega)] at *
  refine ⟨h.kind, h.sym, h.left, h.right, h.ne, ?_, ?_, ?_, ?_⟩
  · have := h.left; have := h.right
    rw [nodeFreq_append (by omega), nodeFreq_append (by omega), h.sum]
  · intro p hp
    rw [isChild_append_of_lt (by omega), isChild_append_of_lt (by omega)]
    exact h.fresh p hp
  · intro j hj hc hne
    exact (hkey _ _ h.left hj).mpr (h.leastLeft j hj ((hch j).mp hc) hne)
  · intro j hj hc hne hne'
    exact (hkey _ _ h.right hj).mpr (h.leastRight j hj ((hch j).mp hc) hne hne')

/-- With two indices or more in the queue, one turn combines the two least (R126). -/
theorem combineLeast_eq {f : Forest} (hs : f.pq.Pairwise (· < ·)) (h : 1 < f.pq.length) :
    ∃ a b, a ∈ f.pq ∧ b ∈ f.pq ∧ a ≠ b ∧ (∀ j, j ∈ f.pq → j ≠ a → KeyLt f.nodes a j) ∧
      (∀ j, j ∈ f.pq → j ≠ a → j ≠ b → KeyLt f.nodes b j) ∧
      combineLeast f = combine a b f.nodes
        ((f.pq.filter fun i => decide (i ≠ a)).filter fun i => decide (i ≠ b)) := by
  have hn : f.pq.Nodup := hs.imp fun h => Nat.ne_of_lt h
  obtain ⟨a, ha, ham, hal⟩ := extractMin_spec f.nodes (pq := f.pq) (by rintro h'; simp [h'] at h)
  have hlen := length_filter_ne hn ham
  obtain ⟨b, hb, hbm, hbl⟩ := extractMin_spec f.nodes (pq := f.pq.filter fun i => decide (i ≠ a))
    (by rintro h'; rw [h'] at hlen; simp at hlen; omega)
  simp only [List.mem_filter, decide_eq_true_eq] at hbm hbl
  refine ⟨a, b, ham, hbm.1, Ne.symm hbm.2, hal, fun j hj h1 h2 => hbl j ⟨hj, h1⟩ h2, ?_⟩
  unfold combineLeast
  rw [ha]
  simp only
  rw [hb]

theorem sum_map_take_two {g : Nat → Nat} {pq : List Nat} {a b : Nat} (hn : pq.Nodup) (ha : a ∈ pq) (hb : b ∈ pq)
    (hab : a ≠ b) :
    ((((pq.filter fun i => decide (i ≠ a)).filter fun i => decide (i ≠ b)).map g).sum) + (g a + g b) =
      (pq.map g).sum := by
  have key : ∀ (l : List Nat) (m : Nat), l.Nodup → m ∈ l →
      ((l.filter fun i => decide (i ≠ m)).map g).sum + g m = (l.map g).sum := by
    intro l m hn hm
    have h1 : (l.filter fun i => decide (i ≠ m)) = l.erase m := by
      rw [hn.erase_eq_filter]
      exact List.filter_congr fun i _ => by by_cases h : i = m <;> simp [h]
    rw [h1, ((List.perm_cons_erase hm).map g).sum_eq, List.map_cons, List.sum_cons, Nat.add_comm]
  have h1 := key pq a hn ha
  have h2 := key (pq.filter fun i => decide (i ≠ a)) b (hn.filter _)
    (List.mem_filter.mpr ⟨hb, by simpa using Ne.symm hab⟩)
  omega

/-- One turn of the loop keeps the invariant and shortens the queue by one (R124). -/
theorem combineLeast_ok {freq : Table Nat} {f : Forest} (h : ForestOk freq f) (hl : 1 < f.pq.length) :
    ForestOk freq (combineLeast f) ∧ (combineLeast f).pq.length + 1 = f.pq.length := by
  obtain ⟨a, b, ha, hb, hab, hal, hbl, heq⟩ := combineLeast_eq h.sorted hl
  have hn : f.pq.Nodup := h.sorted.imp fun h => Nat.ne_of_lt h
  have hle := h.length_le
  have hsz := h.size
  have hnc := distinctSymbols_le freq
  have hale := ((h.roots a).mp ha)
  have hble := ((h.roots b).mp hb)
  have ha9 : (BitVec.ofNat 9 a).toNat = a := toNat_ofNat9 (by omega)
  have hb9 : (BitVec.ofNat 9 b).toNat = b := toNat_ofNat9 (by omega)
  have hr1 : ∀ j, j ∈ ((f.pq.filter fun i => decide (i ≠ a)).filter fun i => decide (i ≠ b)) ↔
      j ∈ f.pq ∧ j ≠ a ∧ j ≠ b := by
    intro j; simp only [List.mem_filter, decide_eq_true_eq, and_assoc]
  have hins := pqInsert_of_lt (i := f.nodes.length)
    (pq := (f.pq.filter fun i => decide (i ≠ a)).filter fun i => decide (i ≠ b))
    fun j hj => ((h.roots j).mp ((hr1 j).mp hj).1).1
  have hlen1 := length_filter_ne hn ha
  have hlen2 := length_filter_ne (hn.filter fun i => decide (i ≠ a))
    (List.mem_filter.mpr ⟨hb, by simpa using Ne.symm hab⟩)
  have hch : ∀ p c, IsChild (f.nodes ++ [internalNode f.nodes a b]) p c ↔
      IsChild f.nodes p c ∨ (p = f.nodes.length ∧ (a = c ∨ b = c)) := by
    intro p c
    rw [isChild_append]
    simp [internalNode, ha9, hb9]
  rw [heq, combine, hins]
  refine ⟨⟨?_, ?_, by simp, ?_, by simp, ?_, ?_, ?_, ?_⟩, ?_⟩
  · simp only
    rw [List.take_append_of_le_length h.le_length, h.leaves]
  · simp only [List.length_append, List.length_cons, List.length_nil]
    omega
  · simp only
    rw [List.pairwise_append]
    refine ⟨(h.sorted.filter _).filter _, List.pairwise_singleton _ _, fun j hj k hk => ?_⟩
    rw [List.mem_singleton.mp hk]
    exact ((h.roots j).mp ((hr1 j).mp hj).1).1
  · intro k e hk he
    rcases getElem?_append_one.mp he with he' | ⟨rfl, rfl⟩
    · exact (h.inner k e hk he').append (List.getElem?_eq_some_iff.mp he').1
    · have hfree : ∀ j, j < f.nodes.length →
          (∀ p, p < f.nodes.length → ¬ IsChild (f.nodes ++ [internalNode f.nodes a b]) p j) → j ∈ f.pq := by
        intro j hj hp
        refine (h.roots j).mpr ⟨hj, fun p hc => hp p hc.lt_length ((isChild_append_of_lt hc.lt_length).mpr hc)⟩
      have hkey : ∀ i j, i < f.nodes.length → j < f.nodes.length →
          KeyLt f.nodes i j → KeyLt (f.nodes ++ [internalNode f.nodes a b]) i j := by
        intro i j hi hj hh
        unfold KeyLt at *
        rwa [nodeFreq_append hi, nodeFreq_append hj]
      refine ⟨rfl, rfl, ?_, ?_, ?_, ?_, ?_, ?_, ?_⟩
      · simpa only [internalNode, ha9] using hale.1
      · simpa only [internalNode, hb9] using hble.1
      · intro hh
        have := congrArg BitVec.toNat hh
        simp only [internalNode, ha9, hb9] at this
        exact hab this
      · simp only [internalNode, ha9, hb9]
        rw [← internalNode, nodeFreq_append hale.1, nodeFreq_append hble.1]
      · intro p hp
        simp only [isChild_append_of_lt hp]
        simp only [internalNode, ha9, hb9]
        exact ⟨hale.2 p, hble.2 p⟩
      · intro j hj hp hne
        simp only [internalNode, ha9] at hne
        simp only [internalNode, ha9] at *
        exact hkey a j hale.1 hj (hal j (hfree j hj hp) hne)
      · intro j hj hp hne hne'
        simp only [internalNode, ha9, hb9] at *
        exact hkey b j hble.1 hj (hbl j (hfree j hj hp) hne hne')
  · intro c
    simp only [List.mem_append, List.mem_singleton, List.length_append, List.length_cons, List.length_nil, hr1]
    constructor
    · rintro (⟨hc, hca, hcb⟩ | rfl)
      · have := (h.roots c).mp hc
        refine ⟨by omega, fun p hp => ?_⟩
        rcases (hch p c).mp hp with hp | ⟨-, rfl | rfl⟩
        · exact this.2 p hp
        · exact hca rfl
        · exact hcb rfl
      · refine ⟨by omega, fun p hp => ?_⟩
        rcases (hch p _).mp hp with hp | ⟨-, hp⟩
        · obtain ⟨e, he, hk, hc⟩ := hp
          by_cases hpn : distinctSymbols freq ≤ p
          · have hi := h.inner p e hpn he
            have := (List.getElem?_eq_some_iff.mp he).1
            have := hi.left
            have := hi.right
            omega
          · obtain ⟨x, -, rfl, -⟩ := leavesOf_getElem? (h.leaf (by omega) he)
            cases hk
        · omega
    · rintro ⟨hc, hp⟩
      by_cases hcl : c = f.nodes.length
      · exact .inr hcl
      · refine .inl ⟨(h.roots c).mpr ⟨by omega, fun p hpc => hp p ((hch p c).mpr (.inl hpc))⟩, ?_, ?_⟩
        · rintro rfl; exact hp f.nodes.length ((hch _ _).mpr (.inr ⟨rfl, .inl rfl⟩))
        · rintro rfl; exact hp f.nodes.length ((hch _ _).mpr (.inr ⟨rfl, .inr rfl⟩))
  · intro p q c hp' hq'
    rcases (hch p c).mp hp' with hp | ⟨rfl, hp⟩ <;> rcases (hch q c).mp hq' with hq | ⟨rfl, hq⟩
    · exact h.unique p q c hp hq
    · exact (hq.elim (fun h => hale.2 p (h ▸ hp)) fun h => hble.2 p (h ▸ hp)).elim
    · exact (hp.elim (fun h => hale.2 q (h ▸ hq)) fun h => hble.2 q (h ▸ hq)).elim
    · rfl
  · simp only
    rw [List.map_append, List.sum_append]
    have h1 : (((f.pq.filter fun i => decide (i ≠ a)).filter fun i => decide (i ≠ b)).map
        (nodeFreq (f.nodes ++ [internalNode f.nodes a b]))) =
        ((f.pq.filter fun i => decide (i ≠ a)).filter fun i => decide (i ≠ b)).map (nodeFreq f.nodes) :=
      List.map_congr_left fun j hj => nodeFreq_append ((h.roots j).mp ((hr1 j).mp hj).1).1
    have h2 : nodeFreq (f.nodes ++ [internalNode f.nodes a b]) f.nodes.length =
        nodeFreq f.nodes a + nodeFreq f.nodes b := by
      simp [nodeFreq, internalNode]
    have := sum_map_take_two (g := nodeFreq f.nodes) hn ha hb hab
    have := h.total
    rw [h1, List.map_singleton, List.sum_singleton, h2]
    omega
  · simp only [List.length_append, List.length_cons, List.length_nil]
    omega

/-- With turns enough the loop ends with one index in the queue (R127). -/
theorem combineAll_ok {freq : Table Nat} {f : Forest} {fuel : Nat} (h : ForestOk freq f) (hf : f.pq.length ≤ fuel) :
    ForestOk freq (combineAll fuel f) ∧ (combineAll fuel f).pq.length = 1 := by
  induction fuel generalizing f with
  | zero => have := h.nonempty; omega
  | succ fuel ih =>
    rw [combineAll]
    split
    · next hl =>
      obtain ⟨h1, h2⟩ := combineLeast_ok h hl
      exact ih h1 (by omega)
    · next hl => have := h.nonempty; exact ⟨h, by omega⟩

/-- What BUILD makes of a table with a symbol in it (R126, R127). -/
theorem buildForest_ok {freq : Table Nat} (h : 0 < distinctSymbols freq) :
    ForestOk freq (buildForest freq) ∧ (buildForest freq).nodes.length = 2 * distinctSymbols freq - 1 ∧
      (buildForest freq).pq = [(buildForest freq).nodes.length - 1] := by
  obtain ⟨h1, h2⟩ := combineAll_ok (leafForest_ok h) (Nat.le_refl _)
  have hs := h1.size
  have hl := h1.last
  obtain ⟨m, hm⟩ := List.length_eq_one_iff.mp h2
  refine ⟨h1, ?_, ?_⟩
  · show (combineAll _ _).nodes.length = _
    omega
  · show (combineAll _ _).pq = _
    rw [hm] at hl ⊢
    rw [← List.mem_singleton.mp hl]
    rfl

/-! ## BUILD -/

/-- Everything BUILD's effect can answer (R126). -/
theorem buildEffect_eq_ok {s t : State} :
    buildEffect s = .ok t ↔ 0 < distinctSymbols s.freq ∧
      t = { s with
        node := Store.ofList (buildForest s.freq).nodes s.draw
        nodeCount := BitVec.ofNat 10 (buildForest s.freq).nodes.length
        root := BitVec.ofNat 9 ((buildForest s.freq).pq.headD 0)
        pq := (buildForest s.freq).pq
        draw := s.draw + 1 } := by
  unfold buildEffect
  have := leafForest_pq_ne_nil (freq := s.freq)
  split
  · next h => simp [h] at this; simp [this]
  · next h => simp [h] at this; simp [this, eq_comm]

/-- What stops BUILD's effect: EmptyInput, on a table with no symbol in it (R126). -/
theorem buildEffect_eq_error {s : State} {e : Stop} :
    buildEffect s = .error e ↔ distinctSymbols s.freq = 0 ∧ e = .raise .emptyInput 0 := by
  unfold buildEffect
  have := leafForest_pq_ne_nil (freq := s.freq)
  split
  · next h => simp [h] at this; simp [this, eq_comm]
  · next h => simp [h] at this; simp; omega

/-- The registers BUILD writes hold the tree's size and the root's index whole (R32, R33, R127). -/
theorem buildForest_registers {freq : Table Nat} (h : 0 < distinctSymbols freq) :
    (BitVec.ofNat 10 (buildForest freq).nodes.length).toNat = 2 * distinctSymbols freq - 1 ∧
    (BitVec.ofNat 9 ((buildForest freq).pq.headD 0)).toNat = 2 * distinctSymbols freq - 2 := by
  obtain ⟨-, h1, h2⟩ := buildForest_ok h
  have := distinctSymbols_le freq
  rw [h2, h1]
  simp only [List.headD_cons, BitVec.toNat_ofNat]
  constructor <;> omega

end Sys2Proof.Machine
end

