-- ==== Sys2Proof/Laws/CodeTable.lean ====
section
/-! SUPPORT. The code-table generator: what the walk of a tree assigns, and what ASSIGN makes of a tree BUILD left. -/

namespace Sys2Proof.Machine

/-! ## Descending a tree -/

/-- The path `c` leads from index `i` to a leaf of symbol `b`. -/
def LeafAt (nodes : List NodeEntry) (i : Nat) (c : Bits) (b : Byte) : Prop :=
  ∃ j e, descend nodes i c = some j ∧ nodes[j]? = some e ∧ e.kind = .leaf ∧ e.sym = b

theorem descend_append (nodes : List NodeEntry) (i : Nat) (a b : Bits) :
    descend nodes i (a ++ b) = (descend nodes i a).bind fun j => descend nodes j b := by
  induction a generalizing i with
  | nil => rfl
  | cons x rest ih =>
    rw [List.cons_append, descend, descend]
    cases nodes[i]? with
    | none => rfl
    | some e => cases hk : e.kind <;> simp [hk, ih]

theorem descend_leaf {nodes : List NodeEntry} {i j : Nat} {e : NodeEntry} {c : Bits} (he : nodes[i]? = some e)
    (hk : e.kind = .leaf) (h : descend nodes i c = some j) : c = [] ∧ j = i := by
  cases c with
  | nil => simpa [descend, eq_comm] using h
  | cons x rest => simp [descend, he, hk] at h

theorem leafAt_of_leaf {nodes : List NodeEntry} {i : Nat} {e : NodeEntry} {c : Bits} {b : Byte}
    (he : nodes[i]? = some e) (hk : e.kind = .leaf) : LeafAt nodes i c b ↔ c = [] ∧ e.sym = b := by
  constructor
  · rintro ⟨j, e', hd, he', -, rfl⟩
    obtain ⟨rfl, rfl⟩ := descend_leaf he hk hd
    rw [he] at he'
    cases he'
    exact ⟨rfl, rfl⟩
  · rintro ⟨rfl, rfl⟩
    exact ⟨i, e, rfl, he, hk, rfl⟩

theorem leafAt_of_internal {nodes : List NodeEntry} {i : Nat} {e : NodeEntry} {c : Bits} {b : Byte}
    (he : nodes[i]? = some e) (hk : e.kind = .internal) :
    LeafAt nodes i c b ↔ ∃ c', (c = false :: c' ∧ LeafAt nodes e.left.toNat c' b) ∨
      (c = true :: c' ∧ LeafAt nodes e.right.toNat c' b) := by
  unfold LeafAt
  cases c with
  | nil =>
    simp only [descend, Option.some.injEq, reduceCtorEq, false_and, or_self, exists_false, iff_false]
    rintro ⟨j, e', rfl, he', hk', -⟩
    rw [he] at he'
    cases he'
    rw [hk] at hk'
    cases hk'
  | cons x rest => cases x <;> simp [descend, he, hk]

/-- The shape of a built tree: the nodes below `n` are leaves, the others internal with smaller children. -/
def TreeShape (nodes : List NodeEntry) (n : Nat) : Prop :=
  ∀ k e, nodes[k]? = some e → (e.kind = .internal ↔ n ≤ k) ∧ (n ≤ k → e.left.toNat < k ∧ e.right.toNat < k)

/-- A path is no longer than the number of internal nodes at or below its start (R129 (c)). -/
theorem TreeShape.depth {nodes : List NodeEntry} {n i j : Nat} {c : Bits} (h : TreeShape nodes n)
    (hd : descend nodes i c = some j) : c.length ≤ i + 1 - n := by
  induction c generalizing i with
  | nil => simp
  | cons x rest ih =>
    rw [descend] at hd
    cases he : nodes[i]? with
    | none => rw [he] at hd; cases hd
    | some e =>
      rw [he] at hd
      obtain ⟨h1, h2⟩ := h i e he
      cases hk : e.kind with
      | leaf => simp [hk] at hd
      | internal =>
        simp only [hk] at hd
        have hn := h1.mp hk
        obtain ⟨hl, hr⟩ := h2 hn
        have := ih hd
        rw [List.length_cons]
        cases x <;> simp at this <;> omega

/-! ## The walk -/

theorem readNode_eq {s : State} {nodes : List NodeEntry} {i : Nat} {e : NodeEntry} (h : s.node.HoldsOnly nodes)
    (he : nodes[i]? = some e) : readNode s i = .ok e := by
  unfold readNode
  rw [h i, he]

/-- What WALK assigns: every symbol with a leaf below `i` gets a path to such a leaf, and no other symbol's entry
changes (R142). -/
theorem walk_ok {s : State} {nodes : List NodeEntry} {n : Nat} (hn : s.node.HoldsOnly nodes)
    (hs : TreeShape nodes n) {fuel i : Nat} {path : Bits} {codes : Table CodeEntry} (hi : i < nodes.length)
    (hf : i < fuel) (hp : path.length + (i + 1 - n) ≤ Config.codeMax) :
    ∃ codes', walk s fuel i path codes = .ok codes' ∧ ∀ b,
      (∃ c, LeafAt nodes i c b ∧ tableGet codes' b = some (path ++ c)) ∨
      ((∀ c, ¬ LeafAt nodes i c b) ∧ tableGet codes' b = tableGet codes b) := by
  induction fuel generalizing i path codes with
  | zero => omega
  | succ fuel ih =>
    have he := List.getElem?_eq_getElem hi
    generalize nodes[i] = e at he
    obtain ⟨h1, h2⟩ := hs i e he
    rw [walk, readNode_eq hn he]
    simp only [Bind.bind, Except.bind]
    cases hk : e.kind with
    | leaf =>
      simp only
      rw [if_neg (by omega)]
      refine ⟨_, rfl, fun b => ?_⟩
      by_cases hb : e.sym = b
      · refine .inl ⟨[], (leafAt_of_leaf he hk).mpr ⟨rfl, hb⟩, ?_⟩
        simp [hb]
      · refine .inr ⟨fun c hc => hb ((leafAt_of_leaf he hk).mp hc).2, ?_⟩
        simp [hb]
    | internal =>
      simp only
      have hni := h1.mp hk
      obtain ⟨hl, hr⟩ := h2 hni
      obtain ⟨cl, hwl, hcl⟩ := ih (i := e.left.toNat) (path := path ++ [false]) (codes := codes) (by omega) (by omega)
        (by simp; omega)
      obtain ⟨cr, hwr, hcr⟩ := ih (i := e.right.toNat) (path := path ++ [true]) (codes := cl) (by omega) (by omega)
        (by simp; omega)
      rw [hwl]
      simp only
      rw [hwr]
      refine ⟨cr, rfl, fun b => ?_⟩
      rcases hcr b with ⟨c, hc, hg⟩ | ⟨hno, hg⟩
      · exact .inl ⟨true :: c, (leafAt_of_internal he hk).mpr ⟨c, .inr ⟨rfl, hc⟩⟩, by rw [hg]; simp⟩
      · rcases hcl b with ⟨c, hc, hg'⟩ | ⟨hno', hg'⟩
        · exact .inl ⟨false :: c, (leafAt_of_internal he hk).mpr ⟨c, .inl ⟨rfl, hc⟩⟩, by rw [hg, hg']; simp⟩
        · refine .inr ⟨fun c hc => ?_, by rw [hg, hg']⟩
          obtain ⟨c', ⟨-, hc'⟩ | ⟨-, hc'⟩⟩ := (leafAt_of_internal he hk).mp hc
          · exact hno' c' hc'
          · exact hno c' hc'

/-- WALK reads nothing but NODE. -/
theorem walk_congr {s s' : State} (h : ∀ i, s.node.get? i = s'.node.get? i) (fuel i : Nat) (path : Bits)
    (codes : Table CodeEntry) : walk s fuel i path codes = walk s' fuel i path codes := by
  induction fuel generalizing i path codes with
  | zero => rfl
  | succ fuel ih => simp only [walk, readNode, h, ih]

/-- ASSIGN reads nothing but NODE and ROOT (R82). -/
theorem assignCodes_congr {s s' : State} (h : ∀ i, s.node.get? i = s'.node.get? i) (hr : s.root = s'.root) :
    assignCodes s = assignCodes s' := by
  unfold assignCodes
  simp only [readNode, h, hr, walk_congr h]

/-! ## Trees BUILD made -/

/-- The tree of a frequency table with a symbol in it has the shape, with as many leaves as symbols. -/
theorem buildForest_shape {freq : Table Nat} (h : 0 < distinctSymbols freq) :
    TreeShape (buildForest freq).nodes (distinctSymbols freq) := by
  obtain ⟨hf, -, -⟩ := buildForest_ok h
  intro k e he
  by_cases hk : distinctSymbols freq ≤ k
  · have := hf.inner k e hk he
    exact ⟨⟨fun _ => hk, fun _ => this.kind⟩, fun _ => ⟨this.left, this.right⟩⟩
  · obtain ⟨b, -, rfl, -⟩ := leavesOf_getElem? (hf.leaf (by omega) he)
    exact ⟨⟨nofun, fun h => absurd h hk⟩, fun h => absurd h hk⟩

/-- Every node of a built tree is below the root (R46 (c)). -/
theorem buildForest_reach {freq : Table Nat} (h : 0 < distinctSymbols freq) {c : Nat}
    (hc : c < (buildForest freq).nodes.length) :
    ∃ path, descend (buildForest freq).nodes ((buildForest freq).nodes.length - 1) path = some c := by
  obtain ⟨hf, -, hq⟩ := buildForest_ok h
  have hs := buildForest_shape h
  generalize hm : (buildForest freq).nodes.length - 1 - c = m
  induction m using Nat.strong_induction_on generalizing c with
  | _ m ih =>
    by_cases hl : c = (buildForest freq).nodes.length - 1
    · exact ⟨[], by rw [descend, hl]⟩
    · have hnr : c ∉ (buildForest freq).pq := by rw [hq]; simpa using hl
      have : ∃ p, IsChild (buildForest freq).nodes p c := by
        by_contra hno
        exact hnr ((hf.roots c).mpr ⟨hc, fun p hp => hno ⟨p, hp⟩⟩)
      obtain ⟨p, hp⟩ := this
      have hpl := hp.lt_length
      obtain ⟨e, he, hk, hch⟩ := hp
      obtain ⟨h1, h2⟩ := hs p e he
      obtain ⟨hl', hr'⟩ := h2 (h1.mp hk)
      obtain ⟨path, hpath⟩ := ih ((buildForest freq).nodes.length - 1 - p) (by omega) hpl rfl
      rcases hch with rfl | rfl
      · exact ⟨path ++ [false], by rw [descend_append, hpath]; simp [descend, he, hk]⟩
      · exact ⟨path ++ [true], by rw [descend_append, hpath]; simp [descend, he, hk]⟩

/-- The leaves of a built tree are exactly the symbols that occur. -/
theorem leafAt_buildForest {freq : Table Nat} (h : 0 < distinctSymbols freq) (b : Byte) :
    (∃ c, LeafAt (buildForest freq).nodes ((buildForest freq).nodes.length - 1) c b) ↔ 0 < tableGet freq b := by
  obtain ⟨hf, -, -⟩ := buildForest_ok h
  constructor
  · rintro ⟨c, j, e, -, he, hk, rfl⟩
    have hj : j < distinctSymbols freq := by
      by_contra hj
      have := (hf.inner j e (by omega) he).kind
      rw [hk] at this
      cases this
    obtain ⟨b, -, rfl, hb⟩ := leavesOf_getElem? (hf.leaf hj he)
    exact hb
  · intro hb
    have hm : b ∈ occurring freq := List.mem_filter.mpr ⟨mem_allSymbols b, by simpa using hb⟩
    obtain ⟨k, hk, hkb⟩ := List.mem_iff_getElem.mp hm
    have hkl : k < distinctSymbols freq := hk
    have hlv : (leavesOf freq)[k]? = some (leafNode b (tableGet freq b)) := by
      rw [leavesOf, List.getElem?_map, List.getElem?_eq_getElem hk, hkb]
      rfl
    have hn : (buildForest freq).nodes[k]? = some (leafNode b (tableGet freq b)) := by
      rw [← hf.leaves, List.getElem?_take, if_pos hkl] at hlv
      exact hlv
    have hle := hf.le_length
    obtain ⟨c, hc⟩ := buildForest_reach h (c := k) (by omega)
    exact ⟨c, k, _, hc, hn, rfl, rfl⟩

/-- The codes a tree gives are prefix-free: a leaf ends every path through it (R145 (b)). -/
theorem leafAt_prefixFree {nodes : List NodeEntry} {i : Nat} {a b : Byte} {ca cb : Bits}
    (ha : LeafAt nodes i ca a) (hb : LeafAt nodes i cb b) (h : ca <+: cb) : a = b := by
  obtain ⟨r, rfl⟩ := h
  obtain ⟨ja, ea, hda, hea, hka, rfl⟩ := ha
  obtain ⟨jb, eb, hdb, heb, -, rfl⟩ := hb
  rw [descend_append, hda] at hdb
  obtain ⟨-, rfl⟩ := descend_leaf hea hka hdb
  rw [hea] at heb
  cases heb
  rfl

/-! ## ASSIGN -/

theorem tableGet_noCodes (b : Byte) : tableGet noCodes b = none := by simp [noCodes]

/-- What ASSIGN makes of a built tree (R140, R142, R143, R145): a code for exactly the symbols that occur, each of
length 1 to 255, prefix-free; with two symbols or more, the paths from the root. -/
theorem assignCodes_ok {s : State} (h : TreeIsBuilt s) :
    ∃ codes, assignCodes s = .ok codes ∧
      (∀ b, (tableGet codes b).isSome = true ↔ 0 < tableGet s.freq b) ∧
      CodesInRange codes ∧ PrefixFree codes ∧
      (1 < distinctSymbols s.freq → ∀ b c, tableGet codes b = some c →
        LeafAt (buildForest s.freq).nodes s.root.toNat c b) := by
  have hpos : 0 < distinctSymbols s.freq := leafForest_pq_ne_nil.mp h.someSymbol
  obtain ⟨hf, hlen, hq⟩ := buildForest_ok hpos
  have hreg := (buildForest_registers hpos).2
  have hs := buildForest_shape hpos
  have hle := distinctSymbols_le s.freq
  have hroot : s.root.toNat = (buildForest s.freq).nodes.length - 1 := by rw [h.root, hreg, hlen]; omega
  have hrl : s.root.toNat < (buildForest s.freq).nodes.length := by omega
  have he := List.getElem?_eq_getElem hrl
  generalize (buildForest s.freq).nodes[s.root.toNat] = e at he
  have hleaf := leafAt_buildForest hpos
  rw [← hroot] at hleaf
  unfold assignCodes
  rw [readNode_eq h.nodes he]
  simp only [Bind.bind, Except.bind]
  cases hk : e.kind with
  | leaf =>
    simp only
    have hone : distinctSymbols s.freq = 1 := by
      have := (hs _ e he).1
      rw [hk] at this
      simp at this
      omega
    have hb : ∀ b, tableGet (tableSet noCodes e.sym (some [false])) b = if e.sym = b then some [false] else none := by
      intro b; rw [tableGet_tableSet, tableGet_noCodes]
    refine ⟨_, rfl, fun b => ?_, ?_, ?_, fun h1 => by omega⟩
    · rw [hb, ← hleaf b]
      by_cases hsb : e.sym = b
      · rw [if_pos hsb]
        exact ⟨fun _ => ⟨[], (leafAt_of_leaf he hk).mpr ⟨rfl, hsb⟩⟩, fun _ => rfl⟩
      · rw [if_neg hsb]
        refine ⟨nofun, ?_⟩
        rintro ⟨c, hc⟩
        exact absurd ((leafAt_of_leaf he hk).mp hc).2 hsb
    · intro b c hc
      rw [hb] at hc
      split at hc
      · cases hc; rfl
      · cases hc
    · intro x y cx cy hne hx hy
      rw [hb] at hx hy
      split at hx
      · next h1 =>
        split at hy
        · next h2 => exact absurd (h1.symm.trans h2) hne
        · cases hy
      · cases hx
  | internal =>
    simp only
    have hdepth : s.root.toNat + 1 - distinctSymbols s.freq ≤ 255 := by omega
    obtain ⟨codes, hw, hc⟩ := walk_ok (s := s) (fuel := Config.nodeCap) (path := []) (codes := noCodes) h.nodes hs hrl
      (by unfold Config.nodeCap; omega) (by unfold Config.codeMax; simpa using hdepth)
    have hcode : ∀ b c, tableGet codes b = some c → LeafAt (buildForest s.freq).nodes s.root.toNat c b := by
      intro b c hbc
      rcases hc b with ⟨c', hl, hg⟩ | ⟨-, hg⟩
      · rw [hbc] at hg
        cases hg
        exact hl
      · rw [hbc, tableGet_noCodes] at hg
        cases hg
    refine ⟨codes, hw, fun b => ?_, ?_, ?_, fun _ => hcode⟩
    · rw [← hleaf b]
      rcases hc b with ⟨c', hl, hg⟩ | ⟨hno, hg⟩
      · rw [hg]; exact ⟨fun _ => ⟨c', hl⟩, fun _ => rfl⟩
      · rw [hg, tableGet_noCodes]
        exact ⟨nofun, fun ⟨c, hc⟩ => absurd hc (hno c)⟩
    · intro b c hbc
      have hl := hcode b c hbc
      obtain ⟨c', -⟩ := (leafAt_of_internal he hk).mp hl
      obtain ⟨j, e', hd, -⟩ := hl
      have h1 := hs.depth hd
      have h2 : c ≠ [] := by
        rintro rfl
        obtain ⟨c', ⟨h, -⟩ | ⟨h, -⟩⟩ := (leafAt_of_internal he hk).mp (hcode b [] hbc) <;> cases h
      have := List.length_pos_iff.mpr h2
      exact codeWellFormed_iff.mpr ⟨this, h1.trans hdepth⟩
    · intro x y cx cy hne hx hy hpre
      exact hne (leafAt_prefixFree (hcode x cx hx) (hcode y cy hy) hpre)

theorem assignEffect_eq {s : State} :
    assignEffect s = (assignCodes s).map fun codes => { s with code := codes } := by
  unfold assignEffect
  cases assignCodes s <;> rfl

/-- As many symbols get a code as occur (R145 (a)). -/
theorem entryCount_eq {codes : Table CodeEntry} {freq : Table Nat}
    (h : ∀ b, (tableGet codes b).isSome = true ↔ 0 < tableGet freq b) : entryCount codes = distinctSymbols freq := by
  unfold entryCount distinctSymbols
  congr 1
  refine List.filter_congr fun b _ => ?_
  rw [Bool.eq_iff_iff, h b]
  simp

theorem entryCount_le (codes : Table CodeEntry) : entryCount codes ≤ 256 := by
  have := allSymbols.length_filter_le fun b => (tableGet codes b).isSome
  rwa [allSymbols_length] at this

end Sys2Proof.Machine
end

