-- ==== Sys2Proof/Laws/Packer.lean ====
section
/-! SUPPORT. The packer: ENCODE's loop as a function of the byte list, and everything it can answer. -/

namespace Sys2Proof.Machine

/-! ## Encoding a list -/

theorem encodeBytes_append (codes : Table CodeEntry) (a b : List Byte) :
    encodeBytes codes (a ++ b) = encodeBytes codes a ++ encodeBytes codes b := by
  simp [encodeBytes]

theorem encodeBytes_cons {codes : Table CodeEntry} {x : Byte} {c : Bits} (h : tableGet codes x = some c)
    (rest : List Byte) : encodeBytes codes (x :: rest) = c ++ encodeBytes codes rest := by
  simp [encodeBytes, codeOf, h]

theorem AllCoded.cons {codes : Table CodeEntry} {x : Byte} {rest : List Byte} (h : AllCoded codes (x :: rest)) :
    (∃ c, tableGet codes x = some c) ∧ AllCoded codes rest :=
  ⟨Option.isSome_iff_exists.mp (h x List.mem_cons_self), fun b hb => h b (List.mem_cons_of_mem _ hb)⟩

theorem AllCoded.append {codes : Table CodeEntry} {a b : List Byte} :
    AllCoded codes (a ++ b) ↔ AllCoded codes a ∧ AllCoded codes b := by
  simp only [AllCoded, List.mem_append]
  exact ⟨fun h => ⟨fun x hx => h x (.inl hx), fun x hx => h x (.inr hx)⟩,
    fun h x hx => hx.elim (h.1 x) (h.2 x)⟩

/-- A payload has at most 255 bits a byte (R45). -/
theorem encodeBytes_length_le {codes : Table CodeEntry}
    (h : ∀ b c, tableGet codes b = some c → c.length ≤ Config.codeMax) (input : List Byte) :
    (encodeBytes codes input).length ≤ 255 * input.length := by
  induction input with
  | nil => simp [encodeBytes]
  | cons x rest ih =>
    have hx : (codeOf codes x).length ≤ 255 := by
      unfold codeOf
      cases hg : tableGet codes x with
      | none => simp
      | some c => exact h x c hg
    have : encodeBytes codes (x :: rest) = codeOf codes x ++ encodeBytes codes rest := rfl
    rw [this, List.length_append, List.length_cons]
    omega

/-- Where no code is empty, a payload has at least one bit a byte. -/
theorem length_le_encodeBytes {codes : Table CodeEntry} (hr : CodesInRange codes) {input : List Byte}
    (h : AllCoded codes input) : input.length ≤ (encodeBytes codes input).length := by
  induction input with
  | nil => simp
  | cons x rest ih =>
    obtain ⟨⟨c, hc⟩, hrest⟩ := h.cons
    have := hr x c hc
    rw [codeWellFormed_iff] at this
    rw [encodeBytes_cons hc, List.length_append, List.length_cons]
    have := ih hrest
    omega

/-! ## The loop (R151) -/

/-- ENCODE's loop over the bytes themselves. -/
def packList (codes : Table CodeEntry) (cap : Nat) : Nat → Nat → List Byte → Except Stop Bits
  | _, _, [] => .ok []
  | i, n, b :: rest =>
    match tableGet codes b with
    | none => .error (.raise .missingCode i)
    | some c =>
      if n + c.length > cap then .error (.raise .bufferOverflow i)
      else
        match packList codes cap (i + 1) (n + c.length) rest with
        | .ok w => .ok (c ++ w)
        | .error e => .error e

theorem packFrom_eq {s : State} {l : List Byte} {i n : Nat} (h : ∀ j, j < l.length → s.inBuf.get? (i + j) = l[j]?) :
    packFrom s l.length i n = packList s.code s.cfg.bitsCap i n l := by
  induction l generalizing i n with
  | nil => rfl
  | cons b rest ih =>
    have h0 := h 0 (by simp)
    simp only [Nat.add_zero, List.getElem?_cons_zero] at h0
    rw [List.length_cons, packFrom, packList, h0]
    have ih := fun n => ih (i := i + 1) (n := n) fun j hj => by
      have := h (j + 1) (by simpa using hj)
      rw [show i + 1 + j = i + (j + 1) by omega, this, List.getElem?_cons_succ]
    simp only [ih] <;> rfl

/-- ENCODE's loop on the input it has. -/
theorem packFrom_input {s : State} {input : List Byte} (h : InputIs s input) :
    packFrom s s.inLen 0 0 = packList s.code s.cfg.bitsCap 0 0 input := by
  rw [h.1]
  exact packFrom_eq fun j hj => by rw [Nat.zero_add]; exact h.2 j hj

/-- The loop over bytes that have codes and fit goes on behind them, whatever is there. -/
theorem packFrom_append {s : State} {a : List Byte} {i n rem : Nat}
    (hg : ∀ j, j < a.length → s.inBuf.get? (i + j) = a[j]?) (h : AllCoded s.code a)
    (hc : n + (encodeBytes s.code a).length ≤ s.cfg.bitsCap) :
    packFrom s (a.length + rem) i n =
      (packFrom s rem (i + a.length) (n + (encodeBytes s.code a).length)).map (encodeBytes s.code a ++ ·) := by
  induction a generalizing i n with
  | nil =>
    simp only [List.length_nil, Nat.zero_add, encodeBytes, List.flatMap_nil, Nat.add_zero, List.nil_append]
    cases packFrom s rem i n <;> rfl
  | cons x rest ih =>
    obtain ⟨⟨c, hx⟩, hrest⟩ := h.cons
    rw [encodeBytes_cons hx] at hc ⊢
    rw [List.length_append] at hc
    have h0 := hg 0 (by simp)
    simp only [Nat.add_zero, List.getElem?_cons_zero] at h0
    rw [List.length_cons, show rest.length + 1 + rem = (rest.length + rem) + 1 by omega, packFrom, h0]
    simp only [hx]
    rw [if_neg (by omega), ih (fun j hj => by
      have := hg (j + 1) (by simpa using hj)
      rw [show i + 1 + j = i + (j + 1) by omega, this, List.getElem?_cons_succ]) hrest (by omega)]
    rw [List.length_append, Nat.add_assoc n, show i + 1 + rest.length = i + (rest.length + 1) by omega]
    cases packFrom s rem (i + (rest.length + 1)) (n + (c.length + (encodeBytes s.code rest).length)) <;>
      simp [Except.map]

/-- Bytes with codes that fit are packed, whatever follows. -/
theorem packList_append {codes : Table CodeEntry} {cap i n : Nat} {a b : List Byte} (h : AllCoded codes a)
    (hc : n + (encodeBytes codes a).length ≤ cap) :
    packList codes cap i n (a ++ b) =
      (packList codes cap (i + a.length) (n + (encodeBytes codes a).length) b).map (encodeBytes codes a ++ ·) := by
  induction a generalizing i n with
  | nil =>
    simp only [List.nil_append, encodeBytes, List.flatMap_nil, List.length_nil, Nat.add_zero]
    cases packList codes cap i n b <;> rfl
  | cons x rest ih =>
    obtain ⟨⟨c, hx⟩, hrest⟩ := h.cons
    rw [encodeBytes_cons hx] at hc ⊢
    rw [List.length_append] at hc
    rw [List.cons_append, packList, hx]
    simp only
    rw [if_neg (by omega), ih hrest (by omega)]
    rw [List.length_append, List.length_cons, Nat.add_assoc n, show i + 1 + rest.length = i + (rest.length + 1) by omega]
    cases packList codes cap (i + (rest.length + 1)) (n + (c.length + (encodeBytes codes rest).length)) b <;>
      simp [Except.map]

theorem packList_ok {codes : Table CodeEntry} {cap i n : Nat} {l : List Byte} (h : AllCoded codes l)
    (hc : n + (encodeBytes codes l).length ≤ cap) : packList codes cap i n l = .ok (encodeBytes codes l) := by
  have := packList_append (i := i) (b := []) h hc
  simpa [packList, Except.map] using this

/-- Everything the loop can answer: the payload, MissingCode or BufferOverflow at a byte of the list. -/
theorem packList_cases (codes : Table CodeEntry) (cap i n : Nat) (l : List Byte) :
    (AllCoded codes l ∧ packList codes cap i n l = .ok (encodeBytes codes l) ∧
      (l ≠ [] → n + (encodeBytes codes l).length ≤ cap)) ∨
    (∃ j, i ≤ j ∧ j < i + l.length ∧ ¬ AllCoded codes l ∧
      packList codes cap i n l = .error (.raise .missingCode j)) ∨
    ∃ j, i ≤ j ∧ j < i + l.length ∧ packList codes cap i n l = .error (.raise .bufferOverflow j) := by
  induction l generalizing i n with
  | nil => exact .inl ⟨nofun, rfl, fun h => absurd rfl h⟩
  | cons b rest ih =>
    rw [packList, List.length_cons]
    cases hb : tableGet codes b with
    | none =>
      refine .inr (.inl ⟨i, by omega, by omega, fun h => ?_, rfl⟩)
      obtain ⟨⟨c, hc⟩, -⟩ := h.cons
      rw [hb] at hc
      cases hc
    | some c =>
      simp only
      split
      · exact .inr (.inr ⟨i, by omega, by omega, rfl⟩)
      · rw [encodeBytes_cons hb]
        rcases ih (i + 1) (n + c.length) with ⟨ha, hw, hl⟩ | ⟨j, h1, h2, ha, hw⟩ | ⟨j, h1, h2, hw⟩
        · rw [hw]
          refine .inl ⟨fun x hx => ?_, rfl, fun _ => ?_⟩
          · rcases List.mem_cons.mp hx with rfl | hx
            · rw [hb]; rfl
            · exact ha x hx
          · rw [List.length_append]
            by_cases hr : rest = []
            · subst hr; simp only [encodeBytes, List.flatMap_nil, List.length_nil]; omega
            · have := hl hr; omega
        · rw [hw]
          exact .inr (.inl ⟨j, by omega, by omega, fun h => ha h.cons.2, rfl⟩)
        · rw [hw]
          exact .inr (.inr ⟨j, by omega, by omega, rfl⟩)

/-! ## ENCODE -/

/-- IN_LEN above IN_CAP stops ENCODE first (R205). -/
theorem encodeEffect_over {s : State} (h : s.cfg.inCap < s.inLen) :
    encodeEffect s = .error (.raise .bufferOverflow 0) := by
  unfold encodeEffect
  rw [checkInputLength_eq_error.mpr ⟨h, rfl⟩]
  rfl

/-- ENCODE's effect on an input the host has written (R151). -/
theorem encodeEffect_eq {s : State} {input : List Byte} (h : InputIs s input) (hc : s.inLen ≤ s.cfg.inCap) :
    encodeEffect s = (packList s.code s.cfg.bitsCap 0 0 input).map fun p =>
      { s with bits := Store.ofList p s.draw, bitsLen := p.length, draw := s.draw + 1 } := by
  unfold encodeEffect
  rw [checkInputLength_eq_ok (u := ()) |>.mpr hc, packFrom_input h]
  cases packList s.code s.cfg.bitsCap 0 0 input <;> rfl

/-- ENCODE stops at a byte the host has not written, where the bytes before it are packed (R151, R232). -/
theorem encodeEffect_unread {s : State} {a : List Byte} (hc : s.inLen ≤ s.cfg.inCap) (hl : a.length < s.inLen)
    (hg : s.inBuf.Holds a) (hn : s.inBuf.get? a.length = none) (h : AllCoded s.code a)
    (hb : (encodeBytes s.code a).length ≤ s.cfg.bitsCap) :
    encodeEffect s = .error (.fault (.unwrittenInput a.length)) := by
  obtain ⟨rem, hrem⟩ : ∃ rem, s.inLen = a.length + (rem + 1) := ⟨s.inLen - a.length - 1, by omega⟩
  unfold encodeEffect
  rw [checkInputLength_eq_ok (u := ()) |>.mpr hc, hrem]
  simp only [Bind.bind, Except.bind]
  rw [packFrom_append (fun j hj => by rw [Nat.zero_add]; exact hg j hj) h (by omega), packFrom, Nat.zero_add, hn]
  rfl

end Sys2Proof.Machine
end

