-- ==== Sys2Proof/Laws/Unpacker.lean ====
section
/-! SUPPORT. The unpacker: what MATCH answers, what DECODE's loop answers on any payload, and that it undoes the
packer on a prefix-free table. -/

namespace Sys2Proof.Machine

/-! ## Looking a bit sequence up (R161) -/

theorem toList_getElem?_table {α : Type} (t : Table α) (b : Byte) : t.toList[b.toNat]? = some (tableGet t b) := by
  have := b.isLt
  simp [tableGet]

theorem symbolOf_eq_some {codes : Table CodeEntry} {w : Bits} {b : Byte} :
    symbolOf codes w = some b ↔
      tableGet codes b = some w ∧ ∀ b', tableGet codes b' = some w → b.toNat ≤ b'.toNat := by
  unfold symbolOf
  rw [Option.map_eq_some_iff]
  constructor
  · rintro ⟨i, hi, rfl⟩
    obtain ⟨hlt, hp, hmin⟩ := List.findIdx?_eq_some_iff_getElem.mp hi
    have hlt' : i < 256 := by simpa using hlt
    refine ⟨?_, fun b' hb' => ?_⟩
    · rw [tableGet_ofNat _ hlt']
      simpa using hp
    · rw [BitVec.toNat_ofNat, Nat.mod_eq_of_lt hlt']
      by_contra hlt
      have := hmin b'.toNat (by omega)
      have hg := toList_getElem?_table codes b'
      rw [List.getElem?_eq_some_iff] at hg
      obtain ⟨hl, hg⟩ := hg
      rw [hg, hb'] at this
      simp at this
  · rintro ⟨hb, hmin⟩
    refine ⟨b.toNat, ?_, by simp⟩
    rw [List.findIdx?_eq_some_iff_getElem]
    have hlt : b.toNat < codes.toList.length := by simpa using b.isLt
    refine ⟨hlt, ?_, fun j hj => ?_⟩
    · have hg := toList_getElem?_table codes b
      rw [List.getElem?_eq_some_iff] at hg
      obtain ⟨hl, hg⟩ := hg
      rw [hg, hb]
      simp
    · have hj' : j < 256 := by have := b.isLt; omega
      have hne : tableGet codes (BitVec.ofNat 8 j) ≠ some w := by
        intro h
        have := hmin _ h
        rw [BitVec.toNat_ofNat, Nat.mod_eq_of_lt hj'] at this
        omega
      rw [tableGet_ofNat _ hj'] at hne
      simpa using hne

theorem symbolOf_eq_none {codes : Table CodeEntry} {w : Bits} :
    symbolOf codes w = none ↔ ∀ b, tableGet codes b ≠ some w := by
  unfold symbolOf
  rw [Option.map_eq_none_iff, List.findIdx?_eq_none_iff]
  constructor
  · intro h b hb
    have := h (some w) (List.mem_of_getElem? (by rw [toList_getElem?_table, hb] : codes.toList[b.toNat]? = some (some w)))
    simp at this
  · intro h c hc
    obtain ⟨i, hi, rfl⟩ := List.mem_iff_getElem.mp hc
    have hi' : i < 256 := by simpa using hi
    have := h (BitVec.ofNat 8 i)
    rw [tableGet_ofNat _ hi'] at this
    simpa using this

theorem mem_codeLengths {codes : Table CodeEntry} {n : Nat} :
    n ∈ codeLengths codes ↔ n ≤ Config.codeMax ∧ ∃ b c, tableGet codes b = some c ∧ c.length = n := by
  unfold codeLengths
  rw [List.mem_filter, List.mem_range, List.any_eq_true, Nat.lt_succ_iff]
  refine and_congr_right fun _ => ?_
  constructor
  · rintro ⟨o, ho, hn⟩
    obtain ⟨i, hi, rfl⟩ := List.mem_iff_getElem.mp ho
    have hi' : i < 256 := by simpa using hi
    simp only [beq_iff_eq, Option.map_eq_some_iff] at hn
    obtain ⟨c, hc, rfl⟩ := hn
    refine ⟨BitVec.ofNat 8 i, c, ?_, rfl⟩
    rw [tableGet_ofNat _ hi']
    simpa using hc
  · rintro ⟨b, c, hb, rfl⟩
    refine ⟨some c, List.mem_of_getElem? (by rw [toList_getElem?_table, hb] : codes.toList[b.toNat]? = some (some c)), ?_⟩
    simp

theorem codeLengths_sorted (codes : Table CodeEntry) : (codeLengths codes).Pairwise (· < ·) :=
  List.pairwise_lt_range.filter _

/-! ## MATCH -/

theorem matchLengths_eq_some {codes : Table CodeEntry} {b : Bits} {cur n : Nat} {s : Byte} {L : List Nat}
    (hL : L.Pairwise (· < ·)) :
    matchLengths codes b cur L = some (s, n) ↔
      n ∈ L ∧ cur + n ≤ b.length ∧ symbolOf codes (bsSlice b cur (cur + n)) = some s ∧
      ∀ m, m ∈ L → m < n → cur + m ≤ b.length → symbolOf codes (bsSlice b cur (cur + m)) = none := by
  induction L with
  | nil => simp [matchLengths]
  | cons l rest ih =>
    obtain ⟨hl, hrest⟩ := List.pairwise_cons.mp hL
    have key : (cur + l ≤ b.length → symbolOf codes (bsSlice b cur (cur + l)) = none) →
        (matchLengths codes b cur rest = some (s, n) ↔
          n ∈ l :: rest ∧ cur + n ≤ b.length ∧ symbolOf codes (bsSlice b cur (cur + n)) = some s ∧
          ∀ m, m ∈ l :: rest → m < n → cur + m ≤ b.length → symbolOf codes (bsSlice b cur (cur + m)) = none) := by
      intro hnone
      rw [ih hrest]
      constructor
      · rintro ⟨h1, h2, h3, h4⟩
        refine ⟨List.mem_cons_of_mem _ h1, h2, h3, fun m hm hlt hle => ?_⟩
        rcases List.mem_cons.mp hm with rfl | hm
        · exact hnone hle
        · exact h4 m hm hlt hle
      · rintro ⟨h1, h2, h3, h4⟩
        refine ⟨?_, h2, h3, fun m hm => h4 m (List.mem_cons_of_mem _ hm)⟩
        rcases List.mem_cons.mp h1 with rfl | h1
        · rw [hnone h2] at h3; cases h3
        · exact h1
    rw [matchLengths]
    split
    · next hle =>
      cases hs : symbolOf codes (bsSlice b cur (cur + l)) with
      | none => exact key fun _ => hs
      | some s' =>
        simp only [Option.some.injEq, Prod.mk.injEq]
        constructor
        · rintro ⟨rfl, rfl⟩
          refine ⟨List.mem_cons_self, hle, hs, fun m hm hlt => ?_⟩
          rcases List.mem_cons.mp hm with rfl | hm
          · omega
          · have := hl m hm; omega
        · rintro ⟨h1, h2, h3, h4⟩
          rcases List.mem_cons.mp h1 with rfl | h1
          · rw [hs] at h3; cases h3; exact ⟨rfl, rfl⟩
          · have := h4 l List.mem_cons_self (hl n h1) hle
            rw [hs] at this
            cases this
    · next hle => exact key fun h => absurd h hle

/-- A code stands at the cursor exactly when its length fits and the slice is the code. -/
theorem isPrefix_drop_iff {b c : Bits} {cur : Nat} (hcur : cur ≤ b.length) :
    c <+: b.drop cur ↔ cur + c.length ≤ b.length ∧ bsSlice b cur (cur + c.length) = c := by
  unfold bsSlice
  rw [List.prefix_iff_eq_take, show cur + c.length - cur = c.length by omega]
  constructor
  · intro h
    have := congrArg List.length h
    rw [List.length_take, List.length_drop] at this
    exact ⟨by omega, h.symm⟩
  · rintro ⟨-, h⟩; exact h.symm

/-- MATCH answers the shortest code that stands at the cursor, and the lowest symbol that has it (R161). -/
theorem matchAt_eq_some {codes : Table CodeEntry} {b : Bits} {cur n : Nat} {s : Byte} (hr : CodesInRange codes)
    (hcur : cur ≤ b.length) :
    matchAt codes b cur = some (s, n) ↔
      (∃ c, tableGet codes s = some c ∧ c.length = n ∧ c <+: b.drop cur) ∧
      ∀ s' c', tableGet codes s' = some c' → c' <+: b.drop cur →
        n < c'.length ∨ (n = c'.length ∧ s.toNat ≤ s'.toNat) := by
  have hmax : ∀ x c, tableGet codes x = some c → c.length ∈ codeLengths codes := by
    intro x c hc
    have := hr x c hc
    rw [codeWellFormed_iff] at this
    exact mem_codeLengths.mpr ⟨this.2, x, c, hc, rfl⟩
  unfold matchAt
  rw [matchLengths_eq_some (codeLengths_sorted codes), symbolOf_eq_some]
  constructor
  · rintro ⟨h1, h2, ⟨h3, h3'⟩, h4⟩
    have hlen : (bsSlice b cur (cur + n)).length = n := by rw [bsSlice_length h2]; omega
    refine ⟨⟨_, h3, hlen, ?_⟩, fun s' c' hs' hc' => ?_⟩
    · rw [isPrefix_drop_iff hcur, hlen]
      exact ⟨h2, rfl⟩
    · obtain ⟨hle, heq⟩ := (isPrefix_drop_iff hcur).mp hc'
      rcases Nat.lt_trichotomy c'.length n with hlt | rfl | hlt
      · have := symbolOf_eq_none.mp (h4 c'.length (hmax s' c' hs') hlt hle) s'
        rw [heq] at this
        exact absurd hs' this
      · exact .inr ⟨rfl, h3' s' (by rw [heq]; exact hs')⟩
      · exact .inl hlt
  · rintro ⟨⟨c, hc, rfl, hp⟩, hmin⟩
    obtain ⟨hle, heq⟩ := (isPrefix_drop_iff hcur).mp hp
    refine ⟨hmax s c hc, hle, ⟨by rw [heq]; exact hc, fun s' hs' => ?_⟩, fun m hm hlt hle' => ?_⟩
    · rw [heq] at hs'
      rcases hmin s' c hs' hp with h | ⟨-, h⟩
      · omega
      · exact h
    · rw [symbolOf_eq_none]
      intro s' hs'
      have hlen : (bsSlice b cur (cur + m)).length = m := by rw [bsSlice_length hle']; omega
      rcases hmin s' _ hs' ((isPrefix_drop_iff hcur).mpr (by rw [hlen]; exact ⟨hle', rfl⟩)) with h | ⟨h, -⟩ <;>
        rw [hlen] at h <;> omega

theorem matchLengths_eq_none {codes : Table CodeEntry} {b : Bits} {cur : Nat} {L : List Nat} :
    matchLengths codes b cur L = none ↔
      ∀ m, m ∈ L → cur + m ≤ b.length → symbolOf codes (bsSlice b cur (cur + m)) = none := by
  induction L with
  | nil => simp [matchLengths]
  | cons l rest ih =>
    rw [matchLengths]
    split
    · next hle => cases hs : symbolOf codes (bsSlice b cur (cur + l)) <;> simp [ih, hle, hs]
    · next hle => simp [ih, hle]

/-- MATCH answers NONE exactly when no code stands at the cursor (R161). -/
theorem matchAt_eq_none {codes : Table CodeEntry} {b : Bits} {cur : Nat} (hr : CodesInRange codes)
    (hcur : cur ≤ b.length) :
    matchAt codes b cur = none ↔ ∀ s c, tableGet codes s = some c → ¬ c <+: b.drop cur := by
  unfold matchAt
  rw [matchLengths_eq_none]
  constructor
  · intro h s c hc hp
    obtain ⟨hle, heq⟩ := (isPrefix_drop_iff hcur).mp hp
    have hw := hr s c hc
    rw [codeWellFormed_iff] at hw
    have := symbolOf_eq_none.mp (h c.length (mem_codeLengths.mpr ⟨hw.2, s, c, hc, rfl⟩) hle) s
    rw [heq] at this
    exact this hc
  · intro h m _ hle
    rw [symbolOf_eq_none]
    intro s hs
    have hlen : (bsSlice b cur (cur + m)).length = m := by rw [bsSlice_length hle]; omega
    exact h s _ hs ((isPrefix_drop_iff hcur).mpr (by rw [hlen]; exact ⟨hle, rfl⟩))

/-- On a prefix-free table the code that stands at the cursor is the match (R163). -/
theorem matchAt_of_prefixFree {codes : Table CodeEntry} {b c : Bits} {cur : Nat} {s : Byte} (hr : CodesInRange codes)
    (hpf : PrefixFree codes) (hcur : cur ≤ b.length) (hc : tableGet codes s = some c) (hp : c <+: b.drop cur) :
    matchAt codes b cur = some (s, c.length) := by
  rw [matchAt_eq_some hr hcur]
  refine ⟨⟨c, hc, rfl, hp⟩, fun s' c' hs' hp' => ?_⟩
  by_cases hss : s = s'
  · subst hss
    rw [hc] at hs'
    cases hs'
    exact .inr ⟨rfl, Nat.le_refl _⟩
  · rcases List.prefix_or_prefix_of_prefix hp hp' with h | h
    · exact absurd h (hpf s s' c c' hss hc hs')
    · exact absurd h (hpf s' s c' c (Ne.symm hss) hs' hc)

/-- A match has a code of that length behind it and does not pass the end. -/
theorem matchAt_bounds {codes : Table CodeEntry} {b : Bits} {cur n : Nat} {s : Byte} (hr : CodesInRange codes)
    (hcur : cur ≤ b.length) (h : matchAt codes b cur = some (s, n)) : 1 ≤ n ∧ cur + n ≤ b.length := by
  obtain ⟨⟨c, hc, rfl, hp⟩, -⟩ := (matchAt_eq_some hr hcur).mp h
  have hw := hr s c hc
  rw [codeWellFormed_iff] at hw
  exact ⟨hw.1, ((isPrefix_drop_iff hcur).mp hp).1⟩

/-! ## DECODE's loop (R162) -/

/-- Everything the loop can answer on a table without empty codes: bytes that fit OUT, or UnknownCode or
BufferOverflow at a cursor inside the payload. -/
theorem unpackFrom_cases {codes : Table CodeEntry} {b : Bits} {outCap fuel cur k : Nat} (hr : CodesInRange codes)
    (hcur : cur ≤ b.length) (hf : b.length - cur ≤ fuel) :
    (∃ out, unpackFrom codes b outCap fuel cur k = .ok out ∧ (out ≠ [] → k + out.length ≤ outCap)) ∨
    (∃ c, cur ≤ c ∧ c < b.length ∧ unpackFrom codes b outCap fuel cur k = .error (.raise .unknownCode c)) ∨
    ∃ c, cur ≤ c ∧ c < b.length ∧ unpackFrom codes b outCap fuel cur k = .error (.raise .bufferOverflow c) := by
  induction fuel generalizing cur k with
  | zero =>
    rw [unpackFrom, if_neg (by omega)]
    exact .inl ⟨[], rfl, fun h => absurd rfl h⟩
  | succ fuel ih =>
    rw [unpackFrom]
    split
    · next hlt =>
      cases hm : matchAt codes b cur with
      | none => exact .inr (.inl ⟨cur, Nat.le_refl _, hlt, rfl⟩)
      | some r =>
        obtain ⟨s, n⟩ := r
        obtain ⟨h1, h2⟩ := matchAt_bounds hr hcur hm
        simp only
        split
        · exact .inr (.inr ⟨cur, Nat.le_refl _, hlt, rfl⟩)
        · next hk =>
          rcases ih (cur := cur + n) (k := k + 1) h2 (by omega) with ⟨out, ho, hl⟩ | ⟨c, h3, h4, ho⟩ | ⟨c, h3, h4, ho⟩
          · rw [ho]
            refine .inl ⟨s :: out, rfl, fun _ => ?_⟩
            rw [List.length_cons]
            by_cases hout : out = []
            · subst hout; simp only [List.length_nil]; omega
            · have := hl hout; omega
          · rw [ho]; exact .inr (.inl ⟨c, by omega, h4, rfl⟩)
          · rw [ho]; exact .inr (.inr ⟨c, by omega, h4, rfl⟩)
    · exact .inl ⟨[], rfl, fun h => absurd rfl h⟩

/-- The loop follows a run of matches to its end, whatever comes there; turns enough are left. -/
theorem unpackFrom_run {codes : Table CodeEntry} {b : Bits} {outCap : Nat} (hr : CodesInRange codes)
    {out : List Byte} {cur stop fuel k : Nat} (h : MatchRun codes b cur out stop) (hcur : cur ≤ b.length)
    (hk : k + out.length ≤ outCap) (hf : b.length - cur ≤ fuel) :
    ∃ fuel', stop ≤ b.length ∧ b.length - stop ≤ fuel' ∧
      unpackFrom codes b outCap fuel cur k =
        (unpackFrom codes b outCap fuel' stop (k + out.length)).map (out ++ ·) := by
  induction out generalizing cur k fuel with
  | nil =>
    cases h
    refine ⟨fuel, hcur, hf, ?_⟩
    simp only [List.nil_append, List.length_nil, Nat.add_zero]
    cases unpackFrom codes b outCap fuel stop k <;> rfl
  | cons x rest ih =>
    obtain ⟨n, hm, hrest⟩ := h
    obtain ⟨h1, h2⟩ := matchAt_bounds hr hcur hm
    rw [List.length_cons] at hk
    obtain ⟨f, rfl⟩ : ∃ f, fuel = f + 1 := ⟨fuel - 1, by omega⟩
    obtain ⟨f', hs, hf', e⟩ := ih (k := k + 1) hrest h2 (by omega) (fuel := f) (by omega)
    refine ⟨f', hs, hf', ?_⟩
    rw [unpackFrom, if_pos (by omega), hm]
    simp only
    rw [if_neg (by omega), e, List.length_cons, show k + 1 + rest.length = k + (rest.length + 1) by omega]
    cases unpackFrom codes b outCap f' stop (k + (rest.length + 1)) <;> rfl

/-- On a prefix-free table the loop reads back what the packer wrote, whatever follows. -/
theorem unpackFrom_append {codes : Table CodeEntry} {outCap : Nat} (hr : CodesInRange codes) (hpf : PrefixFree codes)
    {input : List Byte} (h : AllCoded codes input) (a rest : Bits) {fuel k : Nat} (hk : k + input.length ≤ outCap) :
    unpackFrom codes (a ++ (encodeBytes codes input ++ rest)) outCap (input.length + fuel) a.length k =
      (unpackFrom codes (a ++ (encodeBytes codes input ++ rest)) outCap fuel
        (a.length + (encodeBytes codes input).length) (k + input.length)).map (input ++ ·) := by
  induction input generalizing a k with
  | nil =>
    simp only [List.length_nil, Nat.zero_add, encodeBytes, List.flatMap_nil, Nat.add_zero, List.nil_append]
    cases unpackFrom codes (a ++ rest) outCap fuel a.length k <;> rfl
  | cons x input ih =>
    obtain ⟨⟨c, hc⟩, hrest⟩ := h.cons
    have hw := hr x c hc
    rw [codeWellFormed_iff] at hw
    have hb : a ++ (encodeBytes codes (x :: input) ++ rest) = (a ++ c) ++ (encodeBytes codes input ++ rest) := by
      rw [encodeBytes_cons hc]; simp
    have ih := ih hrest (a ++ c) (k := k + 1) (by rw [List.length_cons] at hk; omega)
    rw [List.length_cons] at hk ⊢
    rw [show input.length + 1 + fuel = (input.length + fuel) + 1 by omega, unpackFrom, hb]
    rw [if_pos (by simp only [List.length_append]; omega)]
    rw [matchAt_of_prefixFree hr hpf (by simp only [List.length_append]; omega) hc
      (by simp only [List.append_assoc, List.drop_left]; exact List.prefix_append c _)]
    simp only
    rw [if_neg (by omega)]
    rw [← List.length_append, ih, encodeBytes_cons hc]
    rw [show (a ++ c).length + (encodeBytes codes input).length =
      a.length + (c ++ encodeBytes codes input).length by simp only [List.length_append]; omega]
    rw [show k + 1 + input.length = k + (input.length + 1) by omega]
    cases unpackFrom codes (a ++ c ++ (encodeBytes codes input ++ rest)) outCap fuel
      (a.length + (c ++ encodeBytes codes input).length) (k + (input.length + 1)) <;> rfl

/-- The whole payload read back (R163). -/
theorem unpackFrom_encodeBytes {codes : Table CodeEntry} {outCap : Nat} (hr : CodesInRange codes)
    (hpf : PrefixFree codes) {input : List Byte} (h : AllCoded codes input) (hk : input.length ≤ outCap) :
    unpackFrom codes (encodeBytes codes input) outCap (encodeBytes codes input).length 0 0 = .ok input := by
  have hle := length_le_encodeBytes hr h
  have := unpackFrom_append hr hpf h [] [] (fuel := (encodeBytes codes input).length - input.length) (k := 0)
    (by omega : 0 + input.length ≤ outCap)
  simp only [List.nil_append, List.append_nil, List.length_nil, Nat.zero_add] at this
  rw [show input.length + ((encodeBytes codes input).length - input.length) = (encodeBytes codes input).length by
    omega] at this
  rw [this]
  have hend : ∀ fuel, unpackFrom codes (encodeBytes codes input) outCap fuel (encodeBytes codes input).length
      input.length = .ok [] := by
    intro fuel
    cases fuel <;> rw [unpackFrom, if_neg (Nat.lt_irrefl _)]
  rw [hend]
  simp [Except.map]

/-! ## DECODE -/

/-- DECODE's effect on a payload that has a value throughout (R162). -/
theorem decodeEffect_eq {s : State} {p : Bits} (h : PayloadIs s p) :
    decodeEffect s = (unpackFrom s.code p s.cfg.outCap p.length 0 0).map fun out =>
      { s with outBuf := Store.ofList out s.draw, outLen := out.length, draw := s.draw + 1 } := by
  unfold decodeEffect
  rw [readPayload_eq_ok.mpr h]
  simp only [Bind.bind, Except.bind, h.1]
  cases unpackFrom s.code p s.cfg.outCap p.length 0 0 <;> rfl

end Sys2Proof.Machine
end

