-- ==== Sys2Proof/Laws/Container.lean ====
section
/-! SUPPORT. The container: the serializer builds the blob expression; the deserializer reads back every field of a
header, and everything else it can answer. -/

namespace Sys2Proof.Machine

/-! ## Serializing (R171, R172) -/

theorem foldl_putEntry (codes : Table CodeEntry) (S : List Byte) (blob : Bits) :
    S.foldl (putEntry codes) blob =
      blob ++ (S.filterMap fun b => (tableGet codes b).map fun c => (b, c)).flatMap entryBits := by
  induction S generalizing blob with
  | nil => simp
  | cons b rest ih =>
    rw [List.foldl_cons, ih, putEntry]
    cases hb : tableGet codes b with
    | none => simp [hb]
    | some c => simp [hb, entryBits, bsAppend, bsPut]

theorem entriesOf_length (codes : Table CodeEntry) : (entriesOf codes).length = entryCount codes := by
  unfold entriesOf entryCount
  induction allSymbols with
  | nil => rfl
  | cons b rest ih => cases hb : tableGet codes b <;> simp [hb, ih]

theorem blobBeforePad_eq (codes : Table CodeEntry) (p : Bits) :
    blobBeforePad codes p =
      zeros 3 ++ (bitsN 8 ((entriesOf codes).length % 256) ++ (entriesOf codes).flatMap entryBits ++ p) := by
  unfold blobBeforePad
  rw [foldl_putEntry, entriesOf_length]
  simp [bsAppend, bsPut, entriesOf]

/-- The blob's pad length (R87). -/
def blobPad (codes : Table CodeEntry) (p : Bits) : Nat :=
  padLength (3 + (bitsN 8 ((entriesOf codes).length % 256) ++ (entriesOf codes).flatMap entryBits ++ p).length)

theorem blobBits_eq (codes : Table CodeEntry) (p : Bits) :
    blobBits codes p = headerBits (blobPad codes p) ((entriesOf codes).length % 256) (entriesOf codes) ++ p ++
      zeros (blobPad codes p) := by
  simp [blobBits, headerBits, blobPad, padLength]

theorem blobOf_eq (codes : Table CodeEntry) (p : Bits) :
    blobOf codes p = (blobBits codes p, blobPad codes p) := by
  unfold blobOf
  rw [blobBeforePad_eq]
  simp only [bsPad, List.length_append, zeros_length]
  have h : blobPad codes p = padLength (3 + ((bitsN 8 ((entriesOf codes).length % 256)).length +
      ((entriesOf codes).flatMap entryBits).length + p.length)) := by
    simp only [blobPad, List.length_append]
  rw [← h, blobBits_eq]
  simp [headerBits, bsSlice, zeros]
  omega

theorem blobBits_length (codes : Table CodeEntry) (p : Bits) :
    (blobBits codes p).length =
      11 + 16 * (entriesOf codes).length + ((entriesOf codes).map fun e => e.2.length).sum + p.length +
        blobPad codes p := by
  rw [blobBits_eq]
  have : ∀ es : List (Byte × Bits), (es.flatMap entryBits).length = 16 * es.length + (es.map fun e => e.2.length).sum := by
    intro es
    induction es with
    | nil => rfl
    | cons e rest ih => simp [entryBits, ih]; omega
  simp [headerBits, this]
  omega

theorem blobBits_mod (codes : Table CodeEntry) (p : Bits) : (blobBits codes p).length % 8 = 0 := by
  rw [blobBits_eq]
  have := add_padLength (3 + (bitsN 8 ((entriesOf codes).length % 256) ++ (entriesOf codes).flatMap entryBits ++ p).length)
  rw [← blobPad] at this
  simp [headerBits] at this ⊢
  omega

theorem blobPad_le (codes : Table CodeEntry) (p : Bits) : blobPad codes p ≤ 7 := padLength_le _

/-- The first three bits of a blob spell its pad length (R87). -/
theorem val_take_blobBits (codes : Table CodeEntry) (p : Bits) : val ((blobBits codes p).take 3) = blobPad codes p := by
  have h := blobPad_le codes p
  rw [blobBits_eq, headerBits]
  simp only [List.append_assoc]
  rw [List.take_append_of_le_length (by simp), List.take_of_length_le (by simp), val_bitsN (by omega)]

/-- SERIALIZE's effect on a payload that has a value throughout (R172). -/
theorem serializeEffect_eq {s : State} {p : Bits} (h : PayloadIs s p) :
    serializeEffect s =
      if (blobBits s.code p).length / 8 > s.cfg.outCap then .error (.raise .bufferOverflow 0)
      else .ok { s with
        outBuf := Store.ofList (bsToBytes (blobBits s.code p)) s.draw
        outLen := (blobBits s.code p).length / 8
        padLen := BitVec.ofNat 3 (blobPad s.code p)
        draw := s.draw + 1 } := by
  unfold serializeEffect
  rw [readPayload_eq_ok.mpr h]
  simp only [Bind.bind, Except.bind, blobOf_eq, Pure.pure, Except.pure]

/-! ## The entries of a table -/

theorem mem_entriesOf {codes : Table CodeEntry} {e : Byte × Bits} :
    e ∈ entriesOf codes ↔ tableGet codes e.1 = some e.2 := by
  obtain ⟨b, c⟩ := e
  unfold entriesOf
  rw [List.mem_filterMap]
  simp only [Option.map_eq_some_iff, Prod.mk.injEq]
  constructor
  · rintro ⟨x, -, c', hx, rfl, rfl⟩; exact hx
  · intro h; exact ⟨b, mem_allSymbols b, c, h, rfl, rfl⟩

theorem nodup_map_fst_filterMap (codes : Table CodeEntry) {S : List Byte} (h : S.Nodup) :
    ((S.filterMap fun b => (tableGet codes b).map fun c => (b, c)).map (·.1)).Nodup := by
  induction S with
  | nil => simp
  | cons b rest ih =>
    obtain ⟨hb, hrest⟩ := List.nodup_cons.mp h
    cases hg : tableGet codes b with
    | none => simpa [hg] using ih hrest
    | some c =>
      simp only [List.filterMap_cons, hg, Option.map_some, List.map_cons, List.nodup_cons]
      refine ⟨fun hm => hb ?_, ih hrest⟩
      obtain ⟨e, he, rfl⟩ := List.mem_map.mp hm
      obtain ⟨x, hx, hxe⟩ := List.mem_filterMap.mp he
      obtain ⟨c', -, rfl⟩ := Option.map_eq_some_iff.mp hxe
      exact hx

theorem entriesOk_entriesOf {codes : Table CodeEntry} (h : CodesInRange codes) : EntriesOk (entriesOf codes) :=
  ⟨nodup_map_fst_filterMap codes allSymbols_nodup, fun e he => h e.1 e.2 (mem_entriesOf.mp he)⟩

theorem tableGet_tableOfEntries {es : List (Byte × Bits)} (h : (es.map (·.1)).Nodup) {b : Byte} {c : Bits} :
    tableGet (tableOfEntries es) b = some c ↔ (b, c) ∈ es := by
  unfold tableOfEntries
  rw [tableGet_tableOf, Option.map_eq_some_iff]
  constructor
  · rintro ⟨e, he, rfl⟩
    have h1 := List.mem_of_find?_eq_some he
    have h2 := List.find?_some he
    simp only [decide_eq_true_eq] at h2
    rw [← h2]
    exact h1
  · intro hm
    induction es with
    | nil => cases hm
    | cons e rest ih =>
      rw [List.map_cons, List.nodup_cons] at h
      rcases List.mem_cons.mp hm with rfl | hm
      · exact ⟨(b, c), by simp, rfl⟩
      · have hne : e.1 ≠ b := by
          intro hh
          exact h.1 (hh ▸ List.mem_map.mpr ⟨(b, c), hm, rfl⟩)
        obtain ⟨e', he', hc⟩ := ih h.2 hm
        exact ⟨e', by rw [List.find?_cons_of_neg (by simpa using hne)]; exact he', hc⟩

theorem tableOfEntries_entriesOf (codes : Table CodeEntry) : tableOfEntries (entriesOf codes) = codes := by
  apply table_ext
  intro b
  have h := nodup_map_fst_filterMap codes allSymbols_nodup
  cases hb : tableGet codes b with
  | some c => exact (tableGet_tableOfEntries h).mpr (mem_entriesOf.mpr hb)
  | none =>
    cases ht : tableGet (tableOfEntries (entriesOf codes)) b with
    | none => rfl
    | some c =>
      have := mem_entriesOf.mp ((tableGet_tableOfEntries h).mp ht)
      rw [hb] at this
      cases this

theorem codesInRange_tableOfEntries {es : List (Byte × Bits)} (h : EntriesOk es) : CodesInRange (tableOfEntries es) :=
  fun b c hc => h.2 (b, c) ((tableGet_tableOfEntries h.1).mp hc)

/-- At most 256 different symbols. -/
theorem EntriesOk.length_le {es : List (Byte × Bits)} (h : EntriesOk es) : es.length ≤ 256 := by
  have h1 := (List.subperm_of_subset (l₂ := allSymbols) h.1 fun b _ => mem_allSymbols b).length_le
  rw [List.length_map, allSymbols_length] at h1
  exact h1

/-- Writing the entries one after another gives the table of them. -/
theorem foldl_tableSet {es : List (Byte × Bits)} (h : (es.map (·.1)).Nodup) (codes : Table CodeEntry) (b : Byte) :
    tableGet (es.foldl (fun t e => tableSet t e.1 (some e.2)) codes) b =
      match es.find? fun e => decide (e.1 = b) with
      | some e => some e.2
      | none => tableGet codes b := by
  induction es generalizing codes with
  | nil => rfl
  | cons e rest ih =>
    rw [List.map_cons, List.nodup_cons] at h
    rw [List.foldl_cons, ih h.2, tableGet_tableSet]
    by_cases hb : e.1 = b
    · have hn : rest.find? (fun e => decide (e.1 = b)) = none := by
        rw [List.find?_eq_none]
        intro x hx
        simp only [decide_eq_true_eq]
        rintro rfl
        exact h.1 (hb ▸ List.mem_map.mpr ⟨x, hx, rfl⟩)
      rw [hn, if_pos hb, List.find?_cons_of_pos (by simpa using hb)]
    · rw [List.find?_cons_of_neg (by simpa using hb), if_neg hb]

theorem foldl_tableSet_noCodes {es : List (Byte × Bits)} (h : (es.map (·.1)).Nodup) :
    es.foldl (fun t e => tableSet t e.1 (some e.2)) noCodes = tableOfEntries es := by
  apply table_ext
  intro b
  rw [foldl_tableSet h, tableGet_noCodes, tableOfEntries, tableGet_tableOf]
  cases es.find? fun e => decide (e.1 = b) <;> rfl

/-! ## Reading fields (R175, R176) -/

theorem readField_append (a w c : Bits) :
    readField (a ++ (w ++ c)) a.length w.length = .ok (w, a.length + w.length) := by
  rw [readField, bsGet_append]

theorem readField_append' {a w c : Bits} {n : Nat} (h : w.length = n) :
    readField (a ++ (w ++ c)) a.length n = .ok (w, a.length + n) := by
  subst h; exact readField_append a w c

theorem readField_short {b : Bits} {cur n : Nat} (h : b.length < cur + n) :
    readField b cur n = .error (.raise .malformedContainer cur) := by
  rw [readField, bsGet_eq_none.mpr h]

/-- Everything a field read can answer. -/
theorem readField_cases (b : Bits) (cur n : Nat) :
    (cur + n ≤ b.length ∧ ∃ w, w.length = n ∧ readField b cur n = .ok (w, cur + n)) ∨
    (b.length < cur + n ∧ readField b cur n = .error (.raise .malformedContainer cur)) := by
  by_cases h : cur + n ≤ b.length
  · refine .inl ⟨h, bsSlice b cur (cur + n), by rw [bsSlice_length h]; omega, ?_⟩
    rw [readField, bsGet_eq_some.mpr ⟨h, rfl, rfl⟩]
  · exact .inr ⟨by omega, readField_short (by omega)⟩

/-- The entry loop takes the entries that stand at the cursor, whatever follows (R176). -/
theorem readEntries_append {es : List (Byte × Bits)} (h : EntriesOk es) {codes : Table CodeEntry}
    (hn : ∀ e, e ∈ es → tableGet codes e.1 = none) (a rest : Bits) (k : Nat) :
    readEntries (a ++ (es.flatMap entryBits ++ rest)) (es.length + k) a.length codes =
      readEntries (a ++ (es.flatMap entryBits ++ rest)) k (a.length + (es.flatMap entryBits).length)
        (es.foldl (fun t e => tableSet t e.1 (some e.2)) codes) := by
  induction es generalizing a codes with
  | nil => simp
  | cons e es ih =>
    obtain ⟨b, c⟩ := e
    obtain ⟨hnd, hwf⟩ := h
    rw [List.map_cons, List.nodup_cons] at hnd
    have hc := hwf (b, c) List.mem_cons_self
    rw [codeWellFormed_iff] at hc
    simp only at hc
    have hb := hn (b, c) List.mem_cons_self
    simp only at hb
    have hs : a ++ (((b, c) :: es).flatMap entryBits ++ rest) =
        (a ++ entryBits (b, c)) ++ (es.flatMap entryBits ++ rest) := by simp
    have ih := ih ⟨hnd.2, fun e he => hwf e (List.mem_cons_of_mem _ he)⟩ (codes := tableSet codes b (some c))
      (fun e he => by
        rw [tableGet_tableSet, if_neg]
        · exact hn e (List.mem_cons_of_mem _ he)
        · rintro rfl; exact hnd.1 (List.mem_map.mpr ⟨e, he, rfl⟩))
      (a ++ entryBits (b, c))
    rw [List.length_cons, show es.length + 1 + k = (es.length + k) + 1 by omega, readEntries, hs]
    have r1 : readField ((a ++ entryBits (b, c)) ++ (es.flatMap entryBits ++ rest)) a.length 8 =
        .ok (bitsN 8 b.toNat, a.length + 8) := by
      have := readField_append' (a := a) (w := bitsN 8 b.toNat) (n := 8)
        (c := bitsN 8 c.length ++ (c ++ (es.flatMap entryBits ++ rest))) (by simp)
      rw [← this]; simp [entryBits]
    have r2 : readField ((a ++ entryBits (b, c)) ++ (es.flatMap entryBits ++ rest)) (a.length + 8) 8 =
        .ok (bitsN 8 c.length, a.length + 8 + 8) := by
      have := readField_append' (a := a ++ bitsN 8 b.toNat) (w := bitsN 8 c.length) (n := 8)
        (c := c ++ (es.flatMap entryBits ++ rest)) (by simp)
      simp only [List.length_append, bitsN_length] at this
      rw [← this]; simp [entryBits]
    have r3 : readField ((a ++ entryBits (b, c)) ++ (es.flatMap entryBits ++ rest)) (a.length + 8 + 8) c.length =
        .ok (c, a.length + 8 + 8 + c.length) := by
      have := readField_append' (a := a ++ bitsN 8 b.toNat ++ bitsN 8 c.length) (w := c) (n := c.length)
        (c := es.flatMap entryBits ++ rest) rfl
      simp only [List.length_append, bitsN_length] at this
      rw [← this]; simp [entryBits]
    have v1 : BitVec.ofNat 8 (val (bitsN 8 b.toNat)) = b := by rw [val_bitsN b.isLt]; simp
    have v2 : val (bitsN 8 c.length) = c.length := val_bitsN (by omega)
    rw [r1]
    simp only [Bind.bind, Except.bind, v1, hb, Option.isSome_none, Bool.false_eq_true, if_false]
    rw [r2]
    simp only [v2]
    rw [if_neg (by omega), r3]
    simp only
    have hl : a.length + 8 + 8 + c.length = (a ++ entryBits (b, c)).length := by simp [entryBits]; omega
    rw [hl, ih, List.foldl_cons]
    congr 1
    simp only [List.flatMap_cons, List.length_append]
    omega

theorem readEntries_short {b : Bits} {cur k : Nat} {codes : Table CodeEntry} (hk : 0 < k) (h : b.length < cur + 8) :
    readEntries b k cur codes = .error (.raise .malformedContainer cur) := by
  cases k with
  | zero => omega
  | succ k => rw [readEntries, readField_short h]; rfl

theorem entryCount_tableSet {codes : Table CodeEntry} {b : Byte} {c : Bits} (h : tableGet codes b = none) :
    entryCount (tableSet codes b (some c)) = entryCount codes + 1 := by
  unfold entryCount
  have hb : ∀ S : List Byte, b ∉ S →
      (S.filter fun x => (tableGet (tableSet codes b (some c)) x).isSome) = S.filter fun x => (tableGet codes x).isSome := by
    intro S hS
    refine List.filter_congr fun x hx => ?_
    rw [tableGet_tableSet, if_neg (by rintro rfl; exact hS hx)]
  have key : ∀ S : List Byte, S.Nodup → b ∈ S →
      (S.filter fun x => (tableGet (tableSet codes b (some c)) x).isSome).length =
        (S.filter fun x => (tableGet codes x).isSome).length + 1 := by
    intro S hS hm
    induction S with
    | nil => cases hm
    | cons x rest ih =>
      obtain ⟨hx, hrest⟩ := List.nodup_cons.mp hS
      by_cases hxb : x = b
      · subst hxb
        rw [List.filter_cons_of_pos (by simp), List.filter_cons_of_neg (by simp [h]), hb rest hx, List.length_cons]
      · have hm' : b ∈ rest := (List.mem_cons.mp hm).resolve_left fun hh => hxb hh.symm
        have ih := ih hrest hm'
        by_cases hs : (tableGet codes x).isSome = true
        · rw [List.filter_cons_of_pos (by simp [Ne.symm hxb, hs]), List.filter_cons_of_pos (p := fun x => (tableGet codes x).isSome) hs, List.length_cons, ih,
            List.length_cons]
        · rw [List.filter_cons_of_neg (by simpa [Ne.symm hxb] using hs), List.filter_cons_of_neg (p := fun x => (tableGet codes x).isSome) hs, ih]
  exact key allSymbols allSymbols_nodup (mem_allSymbols b)

/-- Everything the entry loop can answer: a table of `k` more codes, each of length 1 to 255, or MalformedContainer
at a field of the blob (R175, R177). -/
theorem readEntries_cases {b : Bits} {k cur : Nat} {codes : Table CodeEntry} (hr : CodesInRange codes)
    (hcur : cur ≤ b.length) :
    (∃ cur' codes', readEntries b k cur codes = .ok (cur', codes') ∧ cur ≤ cur' ∧ cur' ≤ b.length ∧
      CodesInRange codes' ∧ entryCount codes' = entryCount codes + k) ∨
    ∃ c, c ≤ b.length ∧ readEntries b k cur codes = .error (.raise .malformedContainer c) := by
  induction k generalizing cur codes with
  | zero => exact .inl ⟨cur, codes, rfl, Nat.le_refl _, hcur, hr, rfl⟩
  | succ k ih =>
    rw [readEntries]
    rcases readField_cases b cur 8 with ⟨h1, ws, hws, e1⟩ | ⟨-, e1⟩ <;> rw [e1]
    swap
    · exact .inr ⟨cur, hcur, rfl⟩
    simp only [Bind.bind, Except.bind]
    split
    · exact .inr ⟨cur, hcur, rfl⟩
    · next hnew =>
      rcases readField_cases b (cur + 8) 8 with ⟨h2, wl, hwl, e2⟩ | ⟨-, e2⟩ <;> rw [e2]
      swap
      · exact .inr ⟨cur + 8, h1, rfl⟩
      simp only
      split
      · exact .inr ⟨cur + 8, h1, rfl⟩
      · next hz =>
        rcases readField_cases b (cur + 8 + 8) (val wl) with ⟨h3, w, hw, e3⟩ | ⟨-, e3⟩ <;> rw [e3]
        swap
        · exact .inr ⟨cur + 8 + 8, h2, rfl⟩
        simp only
        have hlt := val_lt wl
        rw [hwl] at hlt
        have hr' : CodesInRange (tableSet codes (BitVec.ofNat 8 (val ws)) (some w)) := by
          intro x c hc
          rw [tableGet_tableSet] at hc
          split at hc
          · cases hc
            rw [codeWellFormed_iff, hw]
            omega
          · exact hr x c hc
        have hnone : tableGet codes (BitVec.ofNat 8 (val ws)) = none := by simpa using hnew
        have hcount := entryCount_tableSet (c := w) hnone
        rcases ih hr' h3 with ⟨c', t', hok, hle, hle', hrt, hct⟩ | ⟨c, hle, he⟩
        · exact .inl ⟨c', t', hok, by omega, hle', hrt, by rw [hct, hcount]; omega⟩
        · exact .inr ⟨c, hle, he⟩

/-! ## Parsing a blob (R176) -/

/-- The number of entries a count field declares (R88). -/
def declared (count : Nat) : Nat := if count = 0 then 256 else count

/-- The end of a parse, once the entries are read: the checks of R179 and R205, and the payload. -/
def parseEnd (bitsCap : Nat) (b : Bits) (pad n : Nat) (r : Nat × Table CodeEntry) : Except Stop Parsed :=
  if r.1 + pad > b.length then .error (.raise .malformedContainer r.1)
  else if b.length - pad - r.1 > bitsCap then .error (.raise .bufferOverflow r.1)
  else .ok { pad := pad, count := n, codes := r.2, start := r.1, payload := bsSlice b r.1 (b.length - pad) }

theorem tableGet_none_noCodes (es : List (Byte × Bits)) : ∀ e, e ∈ es → tableGet noCodes e.1 = none :=
  fun e _ => tableGet_noCodes e.1

/-- A blob that starts with a header is parsed up to the header's end, whatever follows. -/
theorem parseBlob_header {bitsCap pad count : Nat} {es : List (Byte × Bits)} {rest : Bits} (h : EntriesOk es)
    (hp : pad ≤ 7) (hc : count ≤ 255) (hle : es.length ≤ declared count) :
    parseBlob bitsCap (headerBits pad count es ++ rest) =
      (readEntries (headerBits pad count es ++ rest) (declared count - es.length) (headerBits pad count es).length
        (tableOfEntries es)).bind (parseEnd bitsCap (headerBits pad count es ++ rest) pad (declared count)) := by
  have r1 : readField (headerBits pad count es ++ rest) 0 3 = .ok (bitsN 3 pad, 3) := by
    have := readField_append' (a := []) (w := bitsN 3 pad) (n := 3)
      (c := bitsN 8 count ++ (es.flatMap entryBits ++ rest)) (by simp)
    simpa [headerBits] using this
  have r2 : readField (headerBits pad count es ++ rest) 3 8 = .ok (bitsN 8 count, 11) := by
    have := readField_append' (a := bitsN 3 pad) (w := bitsN 8 count) (n := 8)
      (c := es.flatMap entryBits ++ rest) (by simp)
    simpa [headerBits] using this
  have v1 : val (bitsN 3 pad) = pad := val_bitsN (by omega)
  have v2 : val (bitsN 8 count) = count := val_bitsN (by omega)
  have hre : readEntries (headerBits pad count es ++ rest) (declared count) 11 noCodes =
      readEntries (headerBits pad count es ++ rest) (declared count - es.length) (headerBits pad count es).length
        (tableOfEntries es) := by
    have := readEntries_append h (tableGet_none_noCodes es) (bitsN 3 pad ++ bitsN 8 count) rest
      (declared count - es.length)
    rw [foldl_tableSet_noCodes h.1, show es.length + (declared count - es.length) = declared count by omega] at this
    simpa [headerBits, ← Nat.add_assoc] using this
  unfold parseBlob
  rw [r1]
  simp only [Bind.bind, Except.bind]
  rw [r2]
  simp only [v1, v2]
  rw [show (if count = 0 then 256 else count) = declared count from rfl, hre]
  cases readEntries (headerBits pad count es ++ rest) (declared count - es.length) (headerBits pad count es).length
    (tableOfEntries es) with
  | error e => rfl
  | ok r => rfl

theorem declared_mod {n : Nat} (h1 : 1 ≤ n) (h2 : n ≤ 256) : declared (n % 256) = n := by
  unfold declared
  split <;> omega

/-- A whole blob: its table, payload, pad and count come back (R176, R178, R181). -/
theorem parseBlob_ok {bitsCap : Nat} {es : List (Byte × Bits)} {p padBits : Bits} (h : EntriesOk es)
    (h1 : 1 ≤ es.length) (hp : padBits.length ≤ 7) (hc : p.length ≤ bitsCap) :
    parseBlob bitsCap (headerBits padBits.length (es.length % 256) es ++ p ++ padBits) =
      .ok { pad := padBits.length, count := es.length, codes := tableOfEntries es,
            start := (headerBits padBits.length (es.length % 256) es).length, payload := p } := by
  have hd := declared_mod h1 h.length_le
  rw [List.append_assoc, parseBlob_header h hp (by omega) (by omega), hd, Nat.sub_self, readEntries]
  simp only [Except.bind, parseEnd]
  rw [if_neg (by simp only [List.length_append]; omega), if_neg (by simp only [List.length_append]; omega)]
  congr 2
  simp only [bsSlice, List.drop_left, List.length_append]
  rw [show (headerBits padBits.length (es.length % 256) es).length + (p.length + padBits.length) - padBits.length -
    (headerBits padBits.length (es.length % 256) es).length = p.length by omega, List.take_left]

/-- A payload that BITS cannot hold (R205). -/
theorem parseBlob_overflow {bitsCap : Nat} {es : List (Byte × Bits)} {p padBits : Bits} (h : EntriesOk es)
    (h1 : 1 ≤ es.length) (hp : padBits.length ≤ 7) (hc : bitsCap < p.length) :
    parseBlob bitsCap (headerBits padBits.length (es.length % 256) es ++ p ++ padBits) =
      .error (.raise .bufferOverflow (headerBits padBits.length (es.length % 256) es).length) := by
  have hd := declared_mod h1 h.length_le
  rw [List.append_assoc, parseBlob_header h hp (by omega) (by omega), hd, Nat.sub_self, readEntries]
  simp only [Except.bind, parseEnd]
  rw [if_neg (by simp only [List.length_append]; omega), if_pos (by simp only [List.length_append]; omega)]

/-- Everything a parse can answer: a table of 1 to 256 codes of length 1 to 255 and a payload, or
MalformedContainer or BufferOverflow at a bit of the blob. -/
theorem parseBlob_cases (bitsCap : Nat) (b : Bits) :
    (∃ r, parseBlob bitsCap b = .ok r ∧ r.pad ≤ 7 ∧ 1 ≤ r.count ∧ r.count ≤ 256 ∧ CodesInRange r.codes ∧
      entryCount r.codes = r.count ∧ r.payload.length ≤ bitsCap ∧ r.payload.length ≤ b.length) ∨
    (∃ c, c ≤ b.length ∧ parseBlob bitsCap b = .error (.raise .malformedContainer c)) ∨
    ∃ c, c ≤ b.length ∧ parseBlob bitsCap b = .error (.raise .bufferOverflow c) := by
  unfold parseBlob
  rcases readField_cases b 0 3 with ⟨h1, wp, hwp, e1⟩ | ⟨-, e1⟩ <;> rw [e1]
  swap
  · exact .inr (.inl ⟨0, Nat.zero_le _, rfl⟩)
  simp only [Bind.bind, Except.bind]
  rcases readField_cases b (0 + 3) 8 with ⟨h2, wv, hwv, e2⟩ | ⟨-, e2⟩ <;> rw [e2]
  swap
  · exact .inr (.inl ⟨0 + 3, h1, rfl⟩)
  simp only
  have hvp := val_lt wp
  have hvv := val_lt wv
  rw [hwp] at hvp
  rw [hwv] at hvv
  have hno : CodesInRange noCodes := by
    intro x c hc
    rw [tableGet_noCodes] at hc
    cases hc
  have hz : entryCount noCodes = 0 := by simp [entryCount, tableGet_noCodes]
  rcases readEntries_cases (k := if val wv = 0 then 256 else val wv) hno h2 with
    ⟨cur, codes, hok, hge, hle, hr, hcnt⟩ | ⟨c, hle, he⟩
  · rw [hok]
    simp only
    split
    · exact .inr (.inl ⟨cur, hle, rfl⟩)
    · split
      · exact .inr (.inr ⟨cur, hle, rfl⟩)
      · refine .inl ⟨_, rfl, by simp only; omega, ?_, ?_, hr, by rw [hcnt, hz]; simp, ?_, ?_⟩
        · simp only; split <;> omega
        · simp only; split <;> omega
        · simp only [bsSlice_length (show b.length - val wp ≤ b.length by omega)]; omega
        · simp only [bsSlice_length (show b.length - val wp ≤ b.length by omega)]; omega
  · rw [he]
    exact .inr (.inl ⟨c, hle, rfl⟩)

/-! ## DESERIALIZE -/

/-- IN_LEN above IN_CAP stops DESERIALIZE first (R205). -/
theorem deserializeEffect_over {s : State} (h : s.cfg.inCap < s.inLen) :
    deserializeEffect s = .error (.raise .bufferOverflow 0) := by
  unfold deserializeEffect
  rw [checkInputLength_eq_error.mpr ⟨h, rfl⟩]
  rfl

/-- A blob byte the host has not written stops DESERIALIZE (R232). -/
theorem deserializeEffect_unread {s : State} {e : Stop} (hc : s.inLen ≤ s.cfg.inCap) (h : readInput s = .error e) :
    deserializeEffect s = .error e := by
  unfold deserializeEffect
  rw [checkInputLength_eq_ok (u := ()) |>.mpr hc, h]
  rfl

/-- DESERIALIZE's effect on a blob the host has written (R176). -/
theorem deserializeEffect_eq {s : State} {input : List Byte} (h : InputIs s input) (hc : s.inLen ≤ s.cfg.inCap) :
    deserializeEffect s = (parseBlob s.cfg.bitsCap (bsFromBytes input)).map fun r =>
      { s with code := r.codes, symCount := BitVec.ofNat 9 r.count, padLen := BitVec.ofNat 3 r.pad,
               bits := Store.ofList r.payload s.draw, bitsLen := r.payload.length, draw := s.draw + 1 } := by
  unfold deserializeEffect
  rw [checkInputLength_eq_ok (u := ()) |>.mpr hc, readInput_eq_ok.mpr h]
  simp only [Bind.bind, Except.bind]
  cases parseBlob s.cfg.bitsCap (bsFromBytes input) <;> rfl

end Sys2Proof.Machine
end

