-- ==== Sys2Proof/Laws/Commands.lean ====
section
/-! SUPPORT. From a body's answer to the command's, and one inversion lemma for a step: which inputs there are and
what each comes to. -/

namespace Sys2Proof.Machine

/-! ## A command from its body -/

theorem exec_of_ok {i : Instr} {s u : State} (hi : i ≠ .reset) (hr : Ready s)
    (h : bodyOf i { s with seq := .busy } = .ok u) : exec i s = .next { u with seq := .done } := by
  rw [exec_eq_runCommand hi, runCommand_ready hr, h]
  rfl

theorem exec_of_raise {i : Instr} {s : State} {e : Err} {info : Nat} (hi : i ≠ .reset) (hr : Ready s)
    (h : bodyOf i { s with seq := .busy } = .error (.raise e info)) : exec i s = .next (abort e info s) := by
  rw [exec_eq_runCommand hi, runCommand_ready hr, h]
  rfl

theorem exec_of_fault {i : Instr} {s : State} {f : Fault} (hi : i ≠ .reset) (hr : Ready s)
    (h : bodyOf i { s with seq := .busy } = .error (.fault f)) : exec i s = .fault f := by
  rw [exec_eq_runCommand hi, runCommand_ready hr, h]
  rfl

/-- A ready command that ended in DONE: its body answered a state. -/
theorem body_of_done {i : Instr} {s t : State} (hi : i ≠ .reset) (hr : Ready s) (h : exec i s = .next t)
    (hd : t.seq = .done) : ∃ u, bodyOf i { s with seq := .busy } = .ok u ∧ t = { u with seq := .done } := by
  rcases exec_eq_next h with ⟨h, -⟩ | ⟨-, h, -⟩ | ⟨-, -, h⟩ | ⟨-, -, e, info, -, rfl⟩
  · exact absurd h hi
  · rcases hr with hr | hr <;> rw [hr] at h <;> cases h
  · exact h
  · cases hd

/-- A ready command that ended in ERROR: its body raised. -/
theorem body_of_error {i : Instr} {s t : State} (hi : i ≠ .reset) (hr : Ready s) (h : exec i s = .next t)
    (hd : t.seq = .error) :
    ∃ e info, bodyOf i { s with seq := .busy } = .error (.raise e info) ∧ t = abort e info s := by
  rcases exec_eq_next h with ⟨h, -⟩ | ⟨-, h, -⟩ | ⟨-, -, u, -, rfl⟩ | ⟨-, -, h⟩
  · exact absurd h hi
  · rcases hr with hr | hr <;> rw [hr] at h <;> cases h
  · cases hd
  · exact h

/-! ## A step -/

/-- A write to CMD (R190). -/
theorem step_cmdWrite {s : State} {v : Nat} {rest : List HostInput}
    (hi : s.inputs = .access (.writeReg 0 v) :: rest) (hb : s.seq ≠ .busy) (hv : v < 2 ^ 32) :
    step s = match decode (BitVec.ofNat 32 v) with
      | .ok i => exec i (takeWrite s rest)
      | .error _ => illegalCommand (BitVec.ofNat 32 v) (takeWrite s rest) := by
  unfold step fetch
  rw [hi]
  simp only [hostAccess, hb, if_false, HostAccess.fits, hv, decide_true, if_true, cmdWrite]
  cases decode (BitVec.ofNat 32 v) <;> rfl

theorem step_read {s : State} {sp : Space} {i : Nat} {rest : List HostInput}
    (hi : s.inputs = .access (.read sp i) :: rest) (hb : s.seq ≠ .busy) :
    step s = .next { s with inputs := rest, portData := some (hostRead s sp i) } := by
  unfold step fetch
  rw [hi]
  simp only [hostAccess, hb, if_false, HostAccess.fits, if_true]
  rfl

/-- A host write other than a CMD write. -/
theorem step_write {s : State} {a : HostAccess} {rest : List HostInput} (hi : s.inputs = .access a :: rest)
    (hb : s.seq ≠ .busy) (hf : a.fits s.cfg = true) (hc : ∀ v, a ≠ .writeReg 0 v) (hr : ∀ sp i, a ≠ .read sp i) :
    step s = .next (hostWrite (takeWrite s rest) a) := by
  unfold step fetch
  rw [hi]
  simp only [hostAccess, hb, if_false, hf, if_true]

theorem step_hardReset {s : State} {rest : List HostInput} (hi : s.inputs = .hardReset :: rest) :
    step s = .next (hardwareReset (takeWrite s rest)) := by
  unfold step fetch
  rw [hi]

theorem step_idle {s : State} (hi : s.inputs = []) : step s = .next s := by
  unfold step fetch
  rw [hi]

theorem step_busy {s : State} {a : HostAccess} {rest : List HostInput} (hi : s.inputs = .access a :: rest)
    (hb : s.seq = .busy) : step s = .next s := by
  unfold step fetch
  rw [hi]
  simp only [hostAccess, hb, if_true]

/-- Everything a step can answer as a next state. -/
theorem step_eq_next {s t : State} (h : step s = .next t) :
    (s.inputs = [] ∧ t = s) ∨
    (∃ rest, s.inputs = .hardReset :: rest ∧ t = hardwareReset (takeWrite s rest)) ∨
    (∃ a rest, s.inputs = .access a :: rest ∧ s.seq = .busy ∧ t = s) ∨
    (∃ sp i rest, s.inputs = .access (.read sp i) :: rest ∧ s.seq ≠ .busy ∧
      t = { s with inputs := rest, portData := some (hostRead s sp i) }) ∨
    (∃ v rest i, s.inputs = .access (.writeReg 0 v) :: rest ∧ s.seq ≠ .busy ∧ v < 2 ^ 32 ∧
      decode (BitVec.ofNat 32 v) = .ok i ∧ exec i (takeWrite s rest) = .next t) ∨
    (∃ v rest, s.inputs = .access (.writeReg 0 v) :: rest ∧ s.seq ≠ .busy ∧ v < 2 ^ 32 ∧
      (decode (BitVec.ofNat 32 v)).toOption = none ∧
      illegalCommand (BitVec.ofNat 32 v) (takeWrite s rest) = .next t) ∨
    (∃ a rest, s.inputs = .access a :: rest ∧ s.seq ≠ .busy ∧ a.fits s.cfg = true ∧ (∀ v, a ≠ .writeReg 0 v) ∧
      (∀ sp i, a ≠ .read sp i) ∧ t = hostWrite (takeWrite s rest) a) := by
  cases hin : s.inputs with
  | nil => rw [step_idle hin] at h; cases h; exact .inl ⟨rfl, rfl⟩
  | cons x rest =>
    cases x with
    | hardReset =>
      rw [step_hardReset hin] at h; cases h; exact .inr (.inl ⟨rest, rfl, rfl⟩)
    | access a =>
      by_cases hb : s.seq = .busy
      · rw [step_busy hin hb] at h; cases h; exact .inr (.inr (.inl ⟨a, rest, rfl, hb, rfl⟩))
      refine .inr (.inr (.inr ?_))
      by_cases hf : a.fits s.cfg = true
      swap
      · exfalso
        unfold step fetch at h
        rw [hin] at h
        simp only [hostAccess, hb, if_false, hf] at h
        cases h
      by_cases hrd : ∃ sp i, a = .read sp i
      · obtain ⟨sp, i, rfl⟩ := hrd
        rw [step_read hin hb] at h
        cases h
        exact .inl ⟨sp, i, rest, rfl, hb, rfl⟩
      by_cases hcmd : ∃ v, a = .writeReg 0 v
      · obtain ⟨v, rfl⟩ := hcmd
        have hv : v < 2 ^ 32 := by simpa [HostAccess.fits] using hf
        rw [step_cmdWrite hin hb hv] at h
        cases hd : decode (BitVec.ofNat 32 v) with
        | ok i => rw [hd] at h; exact .inr (.inl ⟨v, rest, i, rfl, hb, hv, hd, h⟩)
        | error e => rw [hd] at h; exact .inr (.inr (.inl ⟨v, rest, rfl, hb, hv, by rw [hd]; rfl, h⟩))
      · have hc : ∀ v, a ≠ .writeReg 0 v := fun v hv => hcmd ⟨v, hv⟩
        have hr : ∀ sp i, a ≠ .read sp i := fun sp i hv => hrd ⟨sp, i, hv⟩
        rw [step_write hin hb hf hc hr] at h
        cases h
        exact .inr (.inr (.inr ⟨a, rest, rfl, hb, hf, hc, hr, rfl⟩))

end Sys2Proof.Machine
end

