-- ==== Sys2Proof/Laws/Frames.lean ====
section
/-! SUPPORT. What each completed command did: one inversion lemma for each effect and each body. They say whole what
the command wrote, so that a frame is read off the record update. -/

namespace Sys2Proof.Machine

/-! ## The effects -/

theorem assignEffect_ok {s t : State} (h : assignEffect s = .ok t) :
    ∃ codes, assignCodes s = .ok codes ∧ t = { s with code := codes } := by
  rw [assignEffect_eq] at h
  cases hc : assignCodes s with
  | error e => rw [hc] at h; cases h
  | ok codes => rw [hc] at h; cases h; exact ⟨codes, rfl, rfl⟩

theorem packFrom_ok_get? {s : State} {k i n : Nat} {p : Bits} (h : packFrom s k i n = .ok p) :
    ∀ j, j < k → (s.inBuf.get? (i + j)).isSome = true := by
  induction k generalizing i n p with
  | zero => omega
  | succ k ih =>
    rw [packFrom] at h
    intro j hj
    cases hg : s.inBuf.get? i with
    | none => rw [hg] at h; cases h
    | some b =>
      rw [hg] at h
      simp only at h
      cases hb : tableGet s.code b with
      | none => rw [hb] at h; cases h
      | some c =>
        rw [hb] at h
        simp only at h
        split at h
        · cases h
        · cases hr : packFrom s k (i + 1) (n + c.length) with
          | error e => rw [hr] at h; cases h
          | ok rest =>
            cases j with
            | zero => simp [hg]
            | succ j =>
              have := ih hr j (by omega)
              rwa [show i + 1 + j = i + (j + 1) by omega] at this

/-- A store whose first `n` elements hold values holds a list of them. -/
theorem exists_list_of_specified {α : Type} {m : Store α} {n : Nat} (h : m.Specified n) :
    ∃ l : List α, n = l.length ∧ m.Holds l := by
  obtain ⟨l, hl⟩ := readFrom_ok_of_specified (f := .unwrittenInput) h
  exact ⟨l, readFrom_zero_eq_ok.mp hl⟩

theorem Store.Holds.specified {α : Type} {m : Store α} {l : List α} (h : m.Holds l) : m.Specified l.length := by
  intro i hi
  rw [h i hi, List.getElem?_eq_getElem hi]
  rfl

theorem encodeEffect_ok {s t : State} (h : encodeEffect s = .ok t) :
    s.inLen ≤ s.cfg.inCap ∧ ∃ input, InputIs s input ∧ AllCoded s.code input ∧
      (input ≠ [] → (encodeBytes s.code input).length ≤ s.cfg.bitsCap) ∧
      t = { s with bits := Store.ofList (encodeBytes s.code input) s.draw,
                   bitsLen := (encodeBytes s.code input).length, draw := s.draw + 1 } := by
  have hc : s.inLen ≤ s.cfg.inCap := by
    by_contra hc
    unfold encodeEffect at h
    rw [checkInputLength_eq_error.mpr ⟨by omega, rfl⟩] at h
    cases h
  refine ⟨hc, ?_⟩
  have hin : ∃ input, InputIs s input := by
    unfold encodeEffect at h
    rw [checkInputLength_eq_ok (u := ()) |>.mpr hc] at h
    simp only [Bind.bind, Except.bind] at h
    cases hp : packFrom s s.inLen 0 0 with
    | error e => rw [hp] at h; cases h
    | ok p =>
      refine exists_list_of_specified fun i hi => ?_
      have := packFrom_ok_get? hp i hi
      rwa [Nat.zero_add] at this
  obtain ⟨input, hin⟩ := hin
  rw [encodeEffect_eq hin hc] at h
  rcases packList_cases s.code s.cfg.bitsCap 0 0 input with ⟨ha, hp, hl⟩ | ⟨j, -, -, -, hp⟩ | ⟨j, -, -, hp⟩ <;>
    rw [hp] at h <;> cases h
  exact ⟨input, hin, ha, by simpa using hl, rfl⟩

theorem serializeEffect_ok {s t : State} (h : serializeEffect s = .ok t) :
    ∃ p, PayloadIs s p ∧ (blobBits s.code p).length / 8 ≤ s.cfg.outCap ∧
      t = { s with outBuf := Store.ofList (bsToBytes (blobBits s.code p)) s.draw,
                   outLen := (blobBits s.code p).length / 8,
                   padLen := BitVec.ofNat 3 (blobPad s.code p), draw := s.draw + 1 } := by
  have hp : ∃ p, PayloadIs s p := by
    unfold serializeEffect at h
    cases hr : readPayload s with
    | error e => rw [hr] at h; cases h
    | ok p => exact ⟨p, readPayload_eq_ok.mp hr⟩
  obtain ⟨p, hp⟩ := hp
  rw [serializeEffect_eq hp] at h
  split at h
  · cases h
  · cases h; exact ⟨p, hp, by omega, rfl⟩

theorem deserializeEffect_ok {s t : State} (h : deserializeEffect s = .ok t) :
    s.inLen ≤ s.cfg.inCap ∧ ∃ input r, InputIs s input ∧ parseBlob s.cfg.bitsCap (bsFromBytes input) = .ok r ∧
      t = { s with code := r.codes, symCount := BitVec.ofNat 9 r.count, padLen := BitVec.ofNat 3 r.pad,
                   bits := Store.ofList r.payload s.draw, bitsLen := r.payload.length, draw := s.draw + 1 } := by
  have hc : s.inLen ≤ s.cfg.inCap := by
    by_contra hc
    unfold deserializeEffect at h
    rw [checkInputLength_eq_error.mpr ⟨by omega, rfl⟩] at h
    cases h
  have hin : ∃ input, InputIs s input := by
    unfold deserializeEffect at h
    rw [checkInputLength_eq_ok (u := ()) |>.mpr hc] at h
    simp only [Bind.bind, Except.bind] at h
    cases hr : readInput s with
    | error e => rw [hr] at h; cases h
    | ok input => exact ⟨input, readInput_eq_ok.mp hr⟩
  obtain ⟨input, hin⟩ := hin
  rw [deserializeEffect_eq hin hc] at h
  cases hp : parseBlob s.cfg.bitsCap (bsFromBytes input) with
  | error e => rw [hp] at h; cases h
  | ok r => rw [hp] at h; cases h; exact ⟨hc, input, r, hin, hp, rfl⟩

theorem decodeEffect_ok {s t : State} (h : decodeEffect s = .ok t) :
    ∃ p out, PayloadIs s p ∧ unpackFrom s.code p s.cfg.outCap p.length 0 0 = .ok out ∧
      t = { s with outBuf := Store.ofList out s.draw, outLen := out.length, draw := s.draw + 1 } := by
  have hp : ∃ p, PayloadIs s p := by
    unfold decodeEffect at h
    cases hr : readPayload s with
    | error e => rw [hr] at h; cases h
    | ok p => exact ⟨p, readPayload_eq_ok.mp hr⟩
  obtain ⟨p, hp⟩ := hp
  rw [decodeEffect_eq hp] at h
  cases hu : unpackFrom s.code p s.cfg.outCap p.length 0 0 with
  | error e => rw [hu] at h; cases h
  | ok out => rw [hu] at h; cases h; exact ⟨p, out, hp, hu, rfl⟩

/-! ## The bodies

Each says: the flag check passed, the effect ran on the state with the flags of R34 cleared, and the flags of R34 were
set after it. -/

theorem countBody_ok {s t : State} (h : countBody s = .ok t) :
    s.inLen ≤ s.cfg.inCap ∧ ∃ input, InputIs s input ∧
      t = { s with flags := { Flags.clear with freqValid := true }, freq := freqOf input,
                   symCount := BitVec.ofNat 9 (distinctSymbols (freqOf input)) } := by
  obtain ⟨-, u, hu, rfl⟩ := stage_eq_ok.mp h
  obtain ⟨hc, input, hin, rfl⟩ := countEffect_eq_ok.mp hu
  refine ⟨hc, input, hin, ?_⟩
  simp [Flags.without, Flags.plus, flagsCleared, flagsSet, Flags.all, Flags.clear]

theorem buildBody_ok {s t : State} (h : buildBody s = .ok t) :
    s.flags.freqValid = true ∧ 0 < distinctSymbols s.freq ∧
      t = { s with
        flags := { Flags.clear with freqValid := true, treeValid := true }
        node := Store.ofList (buildForest s.freq).nodes s.draw
        nodeCount := BitVec.ofNat 10 (buildForest s.freq).nodes.length
        root := BitVec.ofNat 9 ((buildForest s.freq).pq.headD 0)
        pq := (buildForest s.freq).pq
        draw := s.draw + 1 } := by
  obtain ⟨hf, u, hu, rfl⟩ := stage_eq_ok.mp h
  obtain ⟨hd, hu⟩ := buildEffect_eq_ok.mp hu
  subst hu
  have hf : s.flags.freqValid = true := by simpa [Flags.covers, flagsNeeded, Flags.clear] using hf
  refine ⟨hf, hd, ?_⟩
  simp [Flags.without, Flags.plus, flagsCleared, flagsSet, Flags.all, Flags.clear, hf]

theorem assignBody_ok {s t : State} (h : assignBody s = .ok t) :
    s.flags.treeValid = true ∧ ∃ codes, assignCodes s = .ok codes ∧
      t = { s with
        flags := { Flags.clear with freqValid := s.flags.freqValid, treeValid := true, codeValid := true }
        code := codes } := by
  obtain ⟨hf, u, hu, rfl⟩ := stage_eq_ok.mp h
  obtain ⟨codes, hc, rfl⟩ := assignEffect_ok hu
  have hf : s.flags.treeValid = true := by simpa [Flags.covers, flagsNeeded, Flags.clear] using hf
  have he : (s.flags.without (flagsCleared .assign)).plus (flagsSet .assign) =
      { Flags.clear with freqValid := s.flags.freqValid, treeValid := true, codeValid := true } := by
    simp [Flags.without, Flags.plus, flagsCleared, flagsSet, Flags.clear, hf]
  rw [assignCodes_congr (s := { s with flags := s.flags.without (flagsCleared .assign) }) (s' := s) (fun _ => rfl) rfl] at hc
  exact ⟨hf, codes, hc, by rw [← he]⟩

theorem encodeBody_ok {s t : State} (h : encodeBody s = .ok t) :
    s.flags.codeValid = true ∧ s.inLen ≤ s.cfg.inCap ∧ ∃ input, InputIs s input ∧ AllCoded s.code input ∧
      (input ≠ [] → (encodeBytes s.code input).length ≤ s.cfg.bitsCap) ∧
      t = { s with
        flags := { s.flags with bitsValid := true, outValid := false }
        bits := Store.ofList (encodeBytes s.code input) s.draw
        bitsLen := (encodeBytes s.code input).length
        draw := s.draw + 1 } := by
  obtain ⟨hf, u, hu, rfl⟩ := stage_eq_ok.mp h
  obtain ⟨hc, input, hin, ha, hl, rfl⟩ := encodeEffect_ok hu
  have hf : s.flags.codeValid = true := by simpa [Flags.covers, flagsNeeded, Flags.clear] using hf
  refine ⟨hf, hc, input, hin, ha, hl, ?_⟩
  simp [Flags.without, Flags.plus, flagsCleared, flagsSet, Flags.clear]

theorem serializeBody_ok {s t : State} (h : serializeBody s = .ok t) :
    s.flags.codeValid = true ∧ s.flags.bitsValid = true ∧
      ∃ p, PayloadIs s p ∧ (blobBits s.code p).length / 8 ≤ s.cfg.outCap ∧
      t = { s with
        flags := { s.flags with outValid := true }
        outBuf := Store.ofList (bsToBytes (blobBits s.code p)) s.draw
        outLen := (blobBits s.code p).length / 8
        padLen := BitVec.ofNat 3 (blobPad s.code p)
        draw := s.draw + 1 } := by
  obtain ⟨hf, u, hu, rfl⟩ := stage_eq_ok.mp h
  obtain ⟨p, hp, hl, rfl⟩ := serializeEffect_ok hu
  have hf : s.flags.codeValid = true ∧ s.flags.bitsValid = true := by
    simpa [Flags.covers, flagsNeeded, Flags.clear] using hf
  refine ⟨hf.1, hf.2, p, hp, hl, ?_⟩
  simp [Flags.without, Flags.plus, flagsCleared, flagsSet, Flags.clear]

theorem deserializeBody_ok {s t : State} (h : deserializeBody s = .ok t) :
    s.inLen ≤ s.cfg.inCap ∧ ∃ input r, InputIs s input ∧ parseBlob s.cfg.bitsCap (bsFromBytes input) = .ok r ∧
      t = { s with
        flags := { Flags.clear with codeValid := true, bitsValid := true }
        code := r.codes
        symCount := BitVec.ofNat 9 r.count
        padLen := BitVec.ofNat 3 r.pad
        bits := Store.ofList r.payload s.draw
        bitsLen := r.payload.length
        draw := s.draw + 1 } := by
  obtain ⟨-, u, hu, rfl⟩ := stage_eq_ok.mp h
  obtain ⟨hc, input, r, hin, hp, rfl⟩ := deserializeEffect_ok hu
  refine ⟨hc, input, r, hin, hp, ?_⟩
  simp [Flags.without, Flags.plus, flagsCleared, flagsSet, Flags.all, Flags.clear]

theorem decodeBody_ok {s t : State} (h : decodeBody s = .ok t) :
    s.flags.codeValid = true ∧ s.flags.bitsValid = true ∧ ∃ p out, PayloadIs s p ∧
      unpackFrom s.code p s.cfg.outCap p.length 0 0 = .ok out ∧
      t = { s with
        flags := { s.flags with outValid := true }
        outBuf := Store.ofList out s.draw
        outLen := out.length
        draw := s.draw + 1 } := by
  obtain ⟨hf, u, hu, rfl⟩ := stage_eq_ok.mp h
  obtain ⟨p, out, hp, hout, rfl⟩ := decodeEffect_ok hu
  have hf : s.flags.codeValid = true ∧ s.flags.bitsValid = true := by
    simpa [Flags.covers, flagsNeeded, Flags.clear] using hf
  refine ⟨hf.1, hf.2, p, out, hp, hout, ?_⟩
  simp [Flags.without, Flags.plus, flagsCleared, flagsSet, Flags.clear]

/-! ## The whole calls (R193, R195) -/

theorem bind_eq_ok {ε α β : Type} {x : Except ε α} {f : α → Except ε β} {b : β} :
    x >>= f = .ok b ↔ ∃ a, x = .ok a ∧ f a = .ok b := by
  cases x with
  | error e => exact ⟨nofun, fun ⟨_, h, _⟩ => nomatch h⟩
  | ok a => exact ⟨fun h => ⟨a, rfl, h⟩, fun ⟨_, h, h'⟩ => by cases h; exact h'⟩

theorem bind_eq_error {ε α β : Type} {x : Except ε α} {f : α → Except ε β} {e : ε} :
    x >>= f = .error e ↔ x = .error e ∨ ∃ a, x = .ok a ∧ f a = .error e := by
  cases x with
  | error e' =>
    constructor
    · intro h; cases h; exact .inl rfl
    · rintro (h | ⟨_, h, -⟩)
      · cases h; rfl
      · cases h
  | ok a =>
    constructor
    · exact fun h => .inr ⟨a, rfl, h⟩
    · rintro (h | ⟨_, h, h'⟩)
      · cases h
      · cases h; exact h'

theorem compressBody_ok {s t : State} (h : compressBody s = .ok t) :
    ∃ s1 s2 s3 s4, countBody { s with flags := s.flags.without (flagsCleared .compress) } = .ok s1 ∧
      buildBody s1 = .ok s2 ∧ assignBody s2 = .ok s3 ∧ encodeBody s3 = .ok s4 ∧ serializeBody s4 = .ok t := by
  unfold compressBody at h
  obtain ⟨s1, h1, h⟩ := bind_eq_ok.mp h
  obtain ⟨s2, h2, h⟩ := bind_eq_ok.mp h
  obtain ⟨s3, h3, h⟩ := bind_eq_ok.mp h
  obtain ⟨s4, h4, h⟩ := bind_eq_ok.mp h
  exact ⟨s1, s2, s3, s4, h1, h2, h3, h4, h⟩

theorem decompressBody_ok {s t : State} (h : decompressBody s = .ok t) :
    ∃ s1, deserializeBody { s with flags := s.flags.without (flagsCleared .decompress) } = .ok s1 ∧
      decodeBody s1 = .ok t :=
  bind_eq_ok.mp h

end Sys2Proof.Machine
end

