-- ==== Sys2Proof/Laws/Exceptions.lean ====
section
/-! SUPPORT. Which errors each command can raise, in any state at all: the column of exceptions of its rule. -/

namespace Sys2Proof.Machine

theorem readFrom_ne_raise {α : Type} {m : Store α} {f : Nat → Fault} {i n : Nat} {e : Err} {info : Nat} :
    readFrom m f i n ≠ .error (.raise e info) := by
  intro h
  obtain ⟨_, _, _, _, h⟩ := readFrom_eq_error.mp h
  cases h

theorem readNode_ne_raise {s : State} {i : Nat} {e : Err} {info : Nat} :
    readNode s i ≠ .error (.raise e info) := by
  intro h
  unfold readNode at h
  split at h <;> cases h

/-- COUNT (R111): BufferOverflow. -/
theorem countEffect_raise {s : State} {e : Err} {info : Nat} (h : countEffect s = .error (.raise e info)) :
    e = .bufferOverflow := by
  rcases countEffect_eq_error.mp h with ⟨-, h⟩ | ⟨-, h⟩
  · cases h; rfl
  · exact absurd h readFrom_ne_raise

/-- BUILD (R126): EmptyInput. -/
theorem buildEffect_raise {s : State} {e : Err} {info : Nat} (h : buildEffect s = .error (.raise e info)) :
    e = .emptyInput := by
  obtain ⟨-, h⟩ := buildEffect_eq_error.mp h
  cases h; rfl

theorem walk_raise {s : State} {fuel i : Nat} {path : Bits} {codes : Table CodeEntry} {e : Err} {info : Nat}
    (h : walk s fuel i path codes = .error (.raise e info)) : e = .codeLengthOverflow := by
  induction fuel generalizing i path codes with
  | zero => cases h
  | succ fuel ih =>
    rw [walk] at h
    rcases bind_eq_error.mp h with h | ⟨n, -, h⟩
    · exact absurd h readNode_ne_raise
    · cases hk : n.kind with
      | leaf =>
        simp only [hk] at h
        split at h
        · cases h; rfl
        · cases h
      | internal =>
        simp only [hk] at h
        rcases bind_eq_error.mp h with h | ⟨_, -, h⟩
        · exact ih h
        · exact ih h

/-- ASSIGN (R142): CodeLengthOverflow. -/
theorem assignEffect_raise {s : State} {e : Err} {info : Nat} (h : assignEffect s = .error (.raise e info)) :
    e = .codeLengthOverflow := by
  rw [assignEffect_eq] at h
  cases hc : assignCodes s with
  | ok codes => rw [hc] at h; cases h
  | error x =>
    rw [hc] at h
    cases h
    unfold assignCodes at hc
    rcases bind_eq_error.mp hc with h | ⟨n, -, h⟩
    · exact absurd h readNode_ne_raise
    · cases hk : n.kind with
      | leaf => simp only [hk] at h; cases h
      | internal => simp only [hk] at h; exact walk_raise h

theorem packFrom_raise {s : State} {k i n : Nat} {e : Err} {info : Nat}
    (h : packFrom s k i n = .error (.raise e info)) : e = .missingCode ∨ e = .bufferOverflow := by
  induction k generalizing i n with
  | zero => cases h
  | succ k ih =>
    rw [packFrom] at h
    split at h
    · cases h
    · split at h
      · cases h; exact .inl rfl
      · split at h
        · cases h; exact .inr rfl
        · split at h
          · cases h
          · next hr => cases h; exact ih hr

/-- ENCODE (R151): MissingCode and BufferOverflow. -/
theorem encodeEffect_raise {s : State} {e : Err} {info : Nat} (h : encodeEffect s = .error (.raise e info)) :
    e = .missingCode ∨ e = .bufferOverflow := by
  unfold encodeEffect at h
  rcases bind_eq_error.mp h with h | ⟨_, -, h⟩
  · obtain ⟨-, h⟩ := checkInputLength_eq_error.mp h
    cases h; exact .inr rfl
  · rcases bind_eq_error.mp h with h | ⟨_, -, h⟩
    · exact packFrom_raise h
    · cases h

/-- SERIALIZE (R172): BufferOverflow. -/
theorem serializeEffect_raise {s : State} {e : Err} {info : Nat} (h : serializeEffect s = .error (.raise e info)) :
    e = .bufferOverflow := by
  unfold serializeEffect at h
  rcases bind_eq_error.mp h with h | ⟨_, -, h⟩
  · exact absurd h readFrom_ne_raise
  · simp only at h
    split at h
    · cases h; rfl
    · cases h

/-- DESERIALIZE (R176): MalformedContainer and BufferOverflow. -/
theorem deserializeEffect_raise {s : State} {e : Err} {info : Nat}
    (h : deserializeEffect s = .error (.raise e info)) : e = .malformedContainer ∨ e = .bufferOverflow := by
  unfold deserializeEffect at h
  rcases bind_eq_error.mp h with h | ⟨_, -, h⟩
  · obtain ⟨-, h⟩ := checkInputLength_eq_error.mp h
    cases h; exact .inr rfl
  · rcases bind_eq_error.mp h with h | ⟨input, -, h⟩
    · exact absurd h readFrom_ne_raise
    · rcases bind_eq_error.mp h with h | ⟨_, -, h⟩
      · rcases parseBlob_cases s.cfg.bitsCap (bsFromBytes input) with ⟨r, hp, -⟩ | ⟨c, -, hp⟩ | ⟨c, -, hp⟩ <;>
          rw [hp] at h <;> cases h
        · exact .inl rfl
        · exact .inr rfl
      · cases h

theorem unpackFrom_raise {codes : Table CodeEntry} {b : Bits} {outCap fuel cur k : Nat} {e : Err} {info : Nat}
    (h : unpackFrom codes b outCap fuel cur k = .error (.raise e info)) : e = .unknownCode ∨ e = .bufferOverflow := by
  induction fuel generalizing cur k with
  | zero => rw [unpackFrom] at h; split at h <;> cases h
  | succ fuel ih =>
    rw [unpackFrom] at h
    split at h
    · split at h
      · cases h; exact .inl rfl
      · split at h
        · cases h; exact .inr rfl
        · split at h
          · cases h
          · next hr => cases h; exact ih hr
    · cases h

/-- DECODE (R162): UnknownCode and BufferOverflow. -/
theorem decodeEffect_raise {s : State} {e : Err} {info : Nat} (h : decodeEffect s = .error (.raise e info)) :
    e = .unknownCode ∨ e = .bufferOverflow := by
  unfold decodeEffect at h
  rcases bind_eq_error.mp h with h | ⟨_, -, h⟩
  · exact absurd h readFrom_ne_raise
  · rcases bind_eq_error.mp h with h | ⟨_, -, h⟩
    · exact unpackFrom_raise h
    · cases h

/-- A body raises BadSequence only where a flag is missing (R203). -/
theorem stage_raise {i : Instr} {effect : State → Except Stop State} {s : State} {e : Err} {info : Nat}
    (hc : s.flags.covers (flagsNeeded i) = true) (h : stage i effect s = .error (.raise e info)) :
    effect { s with flags := s.flags.without (flagsCleared i) } = .error (.raise e info) := by
  rcases stage_eq_error.mp h with ⟨h', -⟩ | ⟨-, h'⟩
  · rw [hc] at h'; cases h'
  · exact h'

/-- COMPRESS (R193): each flag check passes, so its errors are those of the effects. -/
theorem compressBody_raise {s : State} {e : Err} {info : Nat} (h : compressBody s = .error (.raise e info)) :
    e = .emptyInput ∨ e = .codeLengthOverflow ∨ e = .missingCode ∨ e = .bufferOverflow := by
  unfold compressBody at h
  rcases bind_eq_error.mp h with h | ⟨s1, h1, h⟩
  · exact .inr (.inr (.inr (countEffect_raise (stage_raise (covers_clear _) h))))
  obtain ⟨-, _, -, e1⟩ := countBody_ok h1
  subst e1
  rcases bind_eq_error.mp h with h | ⟨s2, h2, h⟩
  · exact .inl (buildEffect_raise (stage_raise rfl h))
  obtain ⟨-, -, e1⟩ := buildBody_ok h2
  subst e1
  rcases bind_eq_error.mp h with h | ⟨s3, h3, h⟩
  · exact .inr (.inl (assignEffect_raise (stage_raise rfl h)))
  obtain ⟨-, _, -, e1⟩ := assignBody_ok h3
  subst e1
  rcases bind_eq_error.mp h with h | ⟨s4, h4, h⟩
  · exact .inr (.inr (encodeEffect_raise (stage_raise rfl h)))
  obtain ⟨-, -, _, -, -, -, e1⟩ := encodeBody_ok h4
  subst e1
  exact .inr (.inr (.inr (serializeEffect_raise (stage_raise rfl h))))

/-- DECOMPRESS (R195). -/
theorem decompressBody_raise {s : State} {e : Err} {info : Nat} (h : decompressBody s = .error (.raise e info)) :
    e = .malformedContainer ∨ e = .unknownCode ∨ e = .bufferOverflow := by
  rcases bind_eq_error.mp h with h | ⟨s1, h1, h⟩
  · rcases deserializeEffect_raise (stage_raise (covers_clear _) h) with h | h
    · exact .inl h
    · exact .inr (.inr h)
  obtain ⟨-, _, _, -, -, e1⟩ := deserializeBody_ok h1
  subst e1
  exact .inr (decodeEffect_raise (stage_raise rfl h))

/-! ## ERR_INFO fits its register -/

theorem walk_raise_lt {s : State} {fuel i : Nat} {path : Bits} {codes : Table CodeEntry} {e : Err} {info : Nat}
    (h : walk s fuel i path codes = .error (.raise e info)) : info < 256 := by
  induction fuel generalizing i path codes with
  | zero => cases h
  | succ fuel ih =>
    rw [walk] at h
    rcases bind_eq_error.mp h with h | ⟨n, -, h⟩
    · exact absurd h readNode_ne_raise
    · cases hk : n.kind with
      | leaf =>
        simp only [hk] at h
        split at h
        · cases h; exact n.sym.isLt
        · cases h
      | internal =>
        simp only [hk] at h
        rcases bind_eq_error.mp h with h | ⟨_, -, h⟩
        · exact ih h
        · exact ih h

theorem assignEffect_raise_lt {s : State} {e : Err} {info : Nat} (h : assignEffect s = .error (.raise e info)) :
    info < 256 := by
  rw [assignEffect_eq] at h
  cases hc : assignCodes s with
  | ok codes => rw [hc] at h; cases h
  | error x =>
    rw [hc] at h
    cases h
    unfold assignCodes at hc
    rcases bind_eq_error.mp hc with h | ⟨n, -, h⟩
    · exact absurd h readNode_ne_raise
    · cases hk : n.kind with
      | leaf => simp only [hk] at h; cases h
      | internal => simp only [hk] at h; exact walk_raise_lt h

theorem packFrom_raise_lt {s : State} {k i n : Nat} {e : Err} {info : Nat}
    (h : packFrom s k i n = .error (.raise e info)) : info < i + k := by
  induction k generalizing i n with
  | zero => cases h
  | succ k ih =>
    rw [packFrom] at h
    split at h
    · cases h
    · split at h
      · cases h; omega
      · split at h
        · cases h; omega
        · split at h
          · cases h
          · next hr => cases h; have := ih hr; omega

theorem unpackFrom_raise_lt {codes : Table CodeEntry} {b : Bits} {outCap fuel cur k : Nat} {e : Err} {info : Nat}
    (h : unpackFrom codes b outCap fuel cur k = .error (.raise e info)) : info < b.length := by
  induction fuel generalizing cur k with
  | zero => rw [unpackFrom] at h; split at h <;> cases h
  | succ fuel ih =>
    rw [unpackFrom] at h
    split at h
    · split at h
      · cases h; assumption
      · split at h
        · cases h; assumption
        · split at h
          · cases h
          · next hr => cases h; exact ih hr
    · cases h

/-- Every number a command records as ERR_INFO fits BITPOS_W bits, where IN_LEN and BITS_LEN fit their own. -/
theorem body_raise_lt {i : Instr} {s : State} {e : Err} {info : Nat} (hi : i ≠ .compress) (hi' : i ≠ .decompress)
    (hw : s.inLen < 2 ^ s.cfg.lenW) (hb : i = .decode → s.bitsLen < 2 ^ s.cfg.bitposW)
    (h : bodyOf i s = .error (.raise e info)) : info < 2 ^ s.cfg.bitposW := by
  have frame : ∀ {eff : State → Except Stop State}, bodyOf i = stage i eff →
      (∀ fl : Flags, eff { s with flags := fl } = .error (.raise e info) → info < 2 ^ s.cfg.bitposW) →
      info < 2 ^ s.cfg.bitposW := by
    intro eff hbody he
    rw [hbody] at h
    rcases stage_eq_error.mp h with ⟨-, h⟩ | ⟨-, h⟩
    · cases h; exact lt_bitposW (by cases i <;> decide)
    · exact he _ h
  cases i with
  | reset => cases h
  | nop => cases h
  | compress => exact absurd rfl hi
  | decompress => exact absurd rfl hi'
  | count =>
    refine frame rfl fun fl h => ?_
    rcases countEffect_eq_error.mp h with ⟨-, h⟩ | ⟨-, h⟩
    · cases h; exact lt_bitposW (by omega)
    · exact absurd h readFrom_ne_raise
  | build =>
    refine frame (funext fun _ => rfl) fun fl h => ?_
    obtain ⟨-, h⟩ := buildEffect_eq_error.mp h
    cases h; exact lt_bitposW (by omega)
  | assign => exact frame rfl fun fl h => lt_bitposW (assignEffect_raise_lt h)
  | encode =>
    refine frame rfl fun fl h => ?_
    rcases bind_eq_error.mp h with h | ⟨_, -, h⟩
    · obtain ⟨-, h⟩ := checkInputLength_eq_error.mp h
      cases h; exact lt_bitposW (by omega)
    · rcases bind_eq_error.mp h with h | ⟨_, -, h⟩
      · have : info < 0 + s.inLen := packFrom_raise_lt h
        exact lt_bitposW_of_inLen hw (by omega)
      · cases h
  | serialize =>
    refine frame rfl fun fl h => ?_
    rcases bind_eq_error.mp h with h | ⟨_, -, h⟩
    · exact absurd h readFrom_ne_raise
    · simp only at h
      split at h
      · cases h; exact lt_bitposW (by omega)
      · cases h
  | deserialize =>
    refine frame rfl fun fl h => ?_
    rcases bind_eq_error.mp h with h | ⟨_, -, h⟩
    · obtain ⟨-, h⟩ := checkInputLength_eq_error.mp h
      cases h; exact lt_bitposW (by omega)
    · rcases bind_eq_error.mp h with h | ⟨input, hin, h⟩
      · exact absurd h readFrom_ne_raise
      · have hl : s.inLen = input.length := (readInput_eq_ok.mp hin).1
        rcases bind_eq_error.mp h with h | ⟨_, -, h⟩
        · rcases parseBlob_cases s.cfg.bitsCap (bsFromBytes input) with ⟨r, hp, -⟩ | ⟨c, hc, hp⟩ | ⟨c, hc, hp⟩ <;>
            rw [hp] at h <;> cases h <;> rw [bsFromBytes_length] at hc <;>
            exact lt_bitposW_of_inLen hw (by omega)
        · cases h
  | decode =>
    refine frame rfl fun fl h => ?_
    rcases bind_eq_error.mp h with h | ⟨p, hp, h⟩
    · exact absurd h readFrom_ne_raise
    · have hl : s.bitsLen = p.length := (readPayload_eq_ok.mp hp).1
      rcases bind_eq_error.mp h with h | ⟨_, -, h⟩
      · have := unpackFrom_raise_lt h
        have := hb rfl
        omega
      · cases h

end Sys2Proof.Machine
end

