-- ==== Sys2Proof/Laws/Completions.lean ====
section
/-! SUPPORT. What each body answers when its operands are there: the forward direction of Frames, from which the
commands' results and errors follow. -/

namespace Sys2Proof.Machine

theorem countBody_eq {s : State} {input : List Byte} (hin : InputIs s input) (hc : s.inLen ≤ s.cfg.inCap) :
    countBody s = .ok { s with
      flags := { Flags.clear with freqValid := true }
      freq := freqOf input
      symCount := BitVec.ofNat 9 (distinctSymbols (freqOf input)) } := by
  have h1 : countEffect { s with flags := s.flags.without (flagsCleared .count) } = .ok _ :=
    countEffect_eq_ok.mpr ⟨hc, input, hin, rfl⟩
  refine stage_eq_ok.mpr ⟨covers_clear _, _, h1, ?_⟩
  simp [Flags.without, Flags.plus, flagsCleared, flagsSet, Flags.all, Flags.clear]

theorem buildBody_eq {s : State} (hf : s.flags.freqValid = true) (hd : 0 < distinctSymbols s.freq) :
    buildBody s = .ok { s with
      flags := { Flags.clear with freqValid := true, treeValid := true }
      node := Store.ofList (buildForest s.freq).nodes s.draw
      nodeCount := BitVec.ofNat 10 (buildForest s.freq).nodes.length
      root := BitVec.ofNat 9 ((buildForest s.freq).pq.headD 0)
      pq := (buildForest s.freq).pq
      draw := s.draw + 1 } := by
  refine stage_eq_ok.mpr ⟨by simp [Flags.covers, flagsNeeded, Flags.clear, hf], _, buildEffect_eq_ok.mpr ⟨hd, rfl⟩, ?_⟩
  simp [Flags.without, Flags.plus, flagsCleared, flagsSet, Flags.all, Flags.clear, hf]

/-- What a completed BUILD leaves is the tree of FREQ, whatever else changed. -/
theorem treeIsBuilt_of {t : State} {freq : Table Nat} {d : Nat} (hd : 0 < distinctSymbols freq) (h1 : t.freq = freq)
    (h2 : t.node = Store.ofList (buildForest freq).nodes d)
    (h3 : t.nodeCount = BitVec.ofNat 10 (buildForest freq).nodes.length)
    (h4 : t.root = BitVec.ofNat 9 ((buildForest freq).pq.headD 0)) (h5 : t.pq = (buildForest freq).pq) :
    TreeIsBuilt t := by
  subst h1
  exact ⟨leafForest_pq_ne_nil.mpr hd, by rw [h2]; exact Store.holdsOnly_ofList _ _, h3, h4, h5⟩

theorem assignBody_eq {s : State} {codes : Table CodeEntry} (hf : s.flags.treeValid = true)
    (hc : assignCodes s = .ok codes) :
    assignBody s = .ok { s with
      flags := { Flags.clear with freqValid := s.flags.freqValid, treeValid := true, codeValid := true }
      code := codes } := by
  have h1 : assignEffect { s with flags := s.flags.without (flagsCleared .assign) } =
      .ok { s with flags := s.flags.without (flagsCleared .assign), code := codes } := by
    rw [assignEffect_eq, assignCodes_congr (s := { s with flags := s.flags.without (flagsCleared .assign) })
      (s' := s) (fun _ => rfl) rfl, hc]
    rfl
  have he : (s.flags.without (flagsCleared .assign)).plus (flagsSet .assign) =
      { Flags.clear with freqValid := s.flags.freqValid, treeValid := true, codeValid := true } := by
    simp [Flags.without, Flags.plus, flagsCleared, flagsSet, Flags.clear, hf]
  refine stage_eq_ok.mpr ⟨by simp [Flags.covers, flagsNeeded, Flags.clear, hf], _, h1, ?_⟩
  simp only [he]

theorem encodeBody_eq {s : State} {input : List Byte} {r : Except Stop Bits} (hin : InputIs s input)
    (hf : s.flags.codeValid = true) (hc : s.inLen ≤ s.cfg.inCap)
    (h : packList s.code s.cfg.bitsCap 0 0 input = r) :
    encodeBody s = r.map fun p =>
      { s with
        flags := { s.flags with bitsValid := true, outValid := false }
        bits := Store.ofList p s.draw
        bitsLen := p.length
        draw := s.draw + 1 } := by
  subst h
  have h1 := encodeEffect_eq (s := { s with flags := s.flags.without (flagsCleared .encode) }) hin hc
  unfold encodeBody stage
  rw [if_pos (by simp [Flags.covers, flagsNeeded, Flags.clear, hf]), h1]
  cases packList s.code s.cfg.bitsCap 0 0 input with
  | error e => rfl
  | ok p =>
    simp [Except.map, Bind.bind, Except.bind, Pure.pure, Except.pure, Flags.without, Flags.plus, flagsCleared,
      flagsSet, Flags.clear]

theorem serializeBody_eq {s : State} {p : Bits} (hp : PayloadIs s p) (hf : s.flags.codeValid = true)
    (hf' : s.flags.bitsValid = true) :
    serializeBody s =
      if (blobBits s.code p).length / 8 > s.cfg.outCap then .error (.raise .bufferOverflow 0)
      else .ok { s with
        flags := { s.flags with outValid := true }
        outBuf := Store.ofList (bsToBytes (blobBits s.code p)) s.draw
        outLen := (blobBits s.code p).length / 8
        padLen := BitVec.ofNat 3 (blobPad s.code p)
        draw := s.draw + 1 } := by
  have h1 := serializeEffect_eq (s := { s with flags := s.flags.without (flagsCleared .serialize) }) hp
  unfold serializeBody stage
  rw [if_pos (by simp [Flags.covers, flagsNeeded, Flags.clear, hf, hf']), h1]
  simp only
  split
  · rfl
  · simp [Bind.bind, Except.bind, Pure.pure, Except.pure, Flags.without, Flags.plus, flagsCleared, flagsSet,
      Flags.clear]

theorem deserializeBody_eq {s : State} {input : List Byte} {r : Except Stop Parsed} (hin : InputIs s input)
    (hc : s.inLen ≤ s.cfg.inCap) (h : parseBlob s.cfg.bitsCap (bsFromBytes input) = r) :
    deserializeBody s = r.map fun x =>
      { s with
        flags := { Flags.clear with codeValid := true, bitsValid := true }
        code := x.codes
        symCount := BitVec.ofNat 9 x.count
        padLen := BitVec.ofNat 3 x.pad
        bits := Store.ofList x.payload s.draw
        bitsLen := x.payload.length
        draw := s.draw + 1 } := by
  subst h
  have h1 := deserializeEffect_eq (s := { s with flags := s.flags.without (flagsCleared .deserialize) }) hin hc
  unfold deserializeBody stage
  rw [if_pos (show s.flags.covers (flagsNeeded .deserialize) = true from covers_clear _), h1]
  simp only
  cases parseBlob s.cfg.bitsCap (bsFromBytes input) with
  | error e => rfl
  | ok p =>
    simp [Except.map, Bind.bind, Except.bind, Pure.pure, Except.pure, Flags.without, Flags.plus, flagsCleared,
      flagsSet, Flags.clear, Flags.all]

theorem decodeBody_eq {s : State} {p : Bits} {r : Except Stop (List Byte)} (hp : PayloadIs s p)
    (hf : s.flags.codeValid = true) (hf' : s.flags.bitsValid = true)
    (h : unpackFrom s.code p s.cfg.outCap p.length 0 0 = r) :
    decodeBody s = r.map fun out =>
      { s with
        flags := { s.flags with outValid := true }
        outBuf := Store.ofList out s.draw
        outLen := out.length
        draw := s.draw + 1 } := by
  subst h
  have h1 := decodeEffect_eq (s := { s with flags := s.flags.without (flagsCleared .decode) }) hp
  unfold decodeBody stage
  rw [if_pos (by simp [Flags.covers, flagsNeeded, Flags.clear, hf, hf']), h1]
  simp only
  cases unpackFrom s.code p s.cfg.outCap p.length 0 0 with
  | error e => rfl
  | ok p =>
    simp [Except.map, Bind.bind, Except.bind, Pure.pure, Except.pure, Flags.without, Flags.plus, flagsCleared,
      flagsSet, Flags.clear]

end Sys2Proof.Machine
end

