-- ==== Sys2Proof/Laws/WholeCalls.lean ====
section
/-! SUPPORT. COMPRESS and DECOMPRESS as functions of the input: which error, or which state, whatever else the state
they start in holds (R72). -/

namespace Sys2Proof.Machine

/-- COMPRESS's end state for an input with the codes `codes` (R193). -/
def compressed (codes : Table CodeEntry) (input : List Byte) (s : State) : State :=
  { s with
    flags := ⟨true, true, true, true, true⟩
    freq := freqOf input
    symCount := BitVec.ofNat 9 (distinctSymbols (freqOf input))
    node := Store.ofList (buildForest (freqOf input)).nodes s.draw
    nodeCount := BitVec.ofNat 10 (buildForest (freqOf input)).nodes.length
    root := BitVec.ofNat 9 ((buildForest (freqOf input)).pq.headD 0)
    pq := (buildForest (freqOf input)).pq
    code := codes
    bits := Store.ofList (encodeBytes codes input) (s.draw + 1)
    bitsLen := (encodeBytes codes input).length
    outBuf := Store.ofList (bsToBytes (blobBits codes (encodeBytes codes input))) (s.draw + 1 + 1)
    outLen := (blobBits codes (encodeBytes codes input)).length / 8
    padLen := BitVec.ofNat 3 (blobPad codes (encodeBytes codes input))
    draw := s.draw + 1 + 1 + 1 }

/-- The codes of a table with a symbol in it: the same from every state that holds its tree. -/
theorem exists_codes {freq : Table Nat} (hd : 0 < distinctSymbols freq) :
    ∃ codes, (∀ b, (tableGet codes b).isSome = true ↔ 0 < tableGet freq b) ∧ CodesInRange codes ∧ PrefixFree codes ∧
      ∀ s : State, s.freq = freq → TreeIsBuilt s → assignCodes s = .ok codes := by
  have ht : TreeIsBuilt { State.reset with
      freq := freq
      node := Store.ofList (buildForest freq).nodes 0
      nodeCount := BitVec.ofNat 10 (buildForest freq).nodes.length
      root := BitVec.ofNat 9 ((buildForest freq).pq.headD 0)
      pq := (buildForest freq).pq } := treeIsBuilt_of hd rfl rfl rfl rfl rfl
  obtain ⟨codes, hc, h1, h2, h3, -⟩ := assignCodes_ok ht
  refine ⟨codes, h1, h2, h3, fun s hs hb => ?_⟩
  subst hs
  rw [← hc]
  refine assignCodes_congr (fun i => ?_) ?_
  · rw [hb.nodes i, Store.get?_ofList]
  · exact hb.root

theorem allCoded_input {codes : Table CodeEntry} {input : List Byte}
    (h : ∀ b, (tableGet codes b).isSome = true ↔ 0 < tableGet (freqOf input) b) : AllCoded codes input := by
  intro b hb
  rw [h b, tableGet_freqOf]
  exact List.count_pos_iff.mpr hb

/-- Everything COMPRESS can answer on an input the host has written (R193): an error that depends on the input and the
parameters alone, or the state `compressed` gives. -/
theorem compressBody_cases (p : Params) (input : List Byte) :
    (∃ e info, info ≤ input.length ∧ (input ≠ [] → e = .bufferOverflow) ∧
      ∀ s : State, s.cfg = p → InputIs s input → compressBody s = .error (.raise e info)) ∨
    (input.length ≤ p.inCap ∧ input ≠ [] ∧ ∃ codes,
      (∀ b, (tableGet codes b).isSome = true ↔ 0 < tableGet (freqOf input) b) ∧
      CodesInRange codes ∧ PrefixFree codes ∧
      (encodeBytes codes input).length ≤ p.bitsCap ∧
      (blobBits codes (encodeBytes codes input)).length / 8 ≤ p.outCap ∧
      ∀ s : State, s.cfg = p → InputIs s input → compressBody s = .ok (compressed codes input s)) := by
  by_cases hcap : input.length ≤ p.inCap
  swap
  · refine .inl ⟨.bufferOverflow, 0, Nat.zero_le _, fun _ => rfl, fun s hs hin => ?_⟩
    refine bind_eq_error.mpr (.inl (stage_eq_error.mpr (.inr ⟨covers_clear _, countEffect_eq_error.mpr (.inl ⟨?_, rfl⟩)⟩)))
    show s.cfg.inCap < s.inLen
    rw [hs, hin.1]
    omega
  have count : ∀ s : State, s.cfg = p → InputIs s input →
      countBody { s with flags := s.flags.without (flagsCleared .compress) } = .ok { s with
        flags := { Flags.clear with freqValid := true }
        freq := freqOf input
        symCount := BitVec.ofNat 9 (distinctSymbols (freqOf input)) } := by
    intro s hs hin
    refine countBody_eq (s := { s with flags := s.flags.without (flagsCleared .compress) }) hin ?_
    show s.inLen ≤ s.cfg.inCap
    rw [hs, hin.1]
    exact hcap
  have hd := distinctSymbols_pos (f := freqOf input)
  by_cases hne : input = []
  · subst hne
    have hz : distinctSymbols (freqOf []) = 0 := by rw [distinctSymbols_freqOf]; rfl
    refine .inl ⟨.emptyInput, 0, Nat.zero_le _, fun h => absurd rfl h, fun s hs hin => ?_⟩
    refine bind_eq_error.mpr (.inr ⟨_, count s hs hin, bind_eq_error.mpr (.inl ?_)⟩)
    exact stage_eq_error.mpr (.inr ⟨rfl, buildEffect_eq_error.mpr ⟨hz, rfl⟩⟩)
  have hpos : 0 < distinctSymbols (freqOf input) := by
    rw [hd]
    obtain ⟨b, hb⟩ := List.exists_mem_of_ne_nil input hne
    exact ⟨b, by rw [tableGet_freqOf]; exact List.count_pos_iff.mpr hb⟩
  obtain ⟨codes, h1, h2, h3, hcodes⟩ := exists_codes hpos
  have hall := allCoded_input h1
  have build : ∀ s : State, s.cfg = p → InputIs s input →
      compressBody s = (do
        let s4 ← encodeBody { s with
          flags := { Flags.clear with freqValid := true, treeValid := true, codeValid := true }
          freq := freqOf input
          symCount := BitVec.ofNat 9 (distinctSymbols (freqOf input))
          node := Store.ofList (buildForest (freqOf input)).nodes s.draw
          nodeCount := BitVec.ofNat 10 (buildForest (freqOf input)).nodes.length
          root := BitVec.ofNat 9 ((buildForest (freqOf input)).pq.headD 0)
          pq := (buildForest (freqOf input)).pq
          code := codes
          draw := s.draw + 1 }
        serializeBody s4) := by
    intro s hs hin
    unfold compressBody
    rw [count s hs hin]
    simp only [Bind.bind, Except.bind]
    rw [buildBody_eq rfl hpos]
    simp only
    rw [assignBody_eq rfl (hcodes _ rfl (treeIsBuilt_of hpos rfl rfl rfl rfl rfl))]
  rcases packList_cases codes p.bitsCap 0 0 input with ⟨-, hp, hl⟩ | ⟨j, -, -, hno, -⟩ | ⟨j, -, hj, hp⟩
  · have hl := hl hne
    rw [Nat.zero_add] at hl
    have encode : ∀ s : State, s.cfg = p → InputIs s input → compressBody s = serializeBody { s with
          flags := { Flags.clear with freqValid := true, treeValid := true, codeValid := true, bitsValid := true }
          freq := freqOf input
          symCount := BitVec.ofNat 9 (distinctSymbols (freqOf input))
          node := Store.ofList (buildForest (freqOf input)).nodes s.draw
          nodeCount := BitVec.ofNat 10 (buildForest (freqOf input)).nodes.length
          root := BitVec.ofNat 9 ((buildForest (freqOf input)).pq.headD 0)
          pq := (buildForest (freqOf input)).pq
          code := codes
          bits := Store.ofList (encodeBytes codes input) (s.draw + 1)
          bitsLen := (encodeBytes codes input).length
          draw := s.draw + 1 + 1 } := by
      intro s hs hin
      rw [build s hs hin]
      have := encodeBody_eq (r := .ok (encodeBytes codes input)) (s := { s with
          flags := { Flags.clear with freqValid := true, treeValid := true, codeValid := true }
          freq := freqOf input
          symCount := BitVec.ofNat 9 (distinctSymbols (freqOf input))
          node := Store.ofList (buildForest (freqOf input)).nodes s.draw
          nodeCount := BitVec.ofNat 10 (buildForest (freqOf input)).nodes.length
          root := BitVec.ofNat 9 ((buildForest (freqOf input)).pq.headD 0)
          pq := (buildForest (freqOf input)).pq
          code := codes
          draw := s.draw + 1 }) hin rfl (by show s.inLen ≤ s.cfg.inCap; rw [hs, hin.1]; exact hcap)
          (by show packList codes s.cfg.bitsCap 0 0 input = _; rw [hs]; exact hp)
      rw [this]
      rfl
    have ser : ∀ s : State, s.cfg = p → InputIs s input → compressBody s =
        if (blobBits codes (encodeBytes codes input)).length / 8 > p.outCap then .error (.raise .bufferOverflow 0)
        else .ok (compressed codes input s) := by
      intro s hs hin
      rw [encode s hs hin, serializeBody_eq (p := encodeBytes codes input)
        ⟨rfl, (Store.holdsOnly_ofList _ _).holds⟩ rfl rfl, ← hs]
      rfl
    by_cases ho : (blobBits codes (encodeBytes codes input)).length / 8 ≤ p.outCap
    · refine .inr ⟨hcap, hne, codes, h1, h2, h3, hl, ho, fun s hs hin => ?_⟩
      rw [ser s hs hin, if_neg (by omega)]
    · refine .inl ⟨.bufferOverflow, 0, Nat.zero_le _, fun _ => rfl, fun s hs hin => ?_⟩
      rw [ser s hs hin, if_pos (by omega)]
  · exact absurd hall hno
  · refine .inl ⟨.bufferOverflow, j, by omega, fun _ => rfl, fun s hs hin => ?_⟩
    rw [build s hs hin]
    refine bind_eq_error.mpr (.inl ?_)
    rw [encodeBody_eq (r := .error (.raise .bufferOverflow j)) (s := { s with
          flags := { Flags.clear with freqValid := true, treeValid := true, codeValid := true }
          freq := freqOf input
          symCount := BitVec.ofNat 9 (distinctSymbols (freqOf input))
          node := Store.ofList (buildForest (freqOf input)).nodes s.draw
          nodeCount := BitVec.ofNat 10 (buildForest (freqOf input)).nodes.length
          root := BitVec.ofNat 9 ((buildForest (freqOf input)).pq.headD 0)
          pq := (buildForest (freqOf input)).pq
          code := codes
          draw := s.draw + 1 }) hin rfl (by show s.inLen ≤ s.cfg.inCap; rw [hs, hin.1]; exact hcap)
          (by show packList codes s.cfg.bitsCap 0 0 input = _; rw [hs]; exact hp)]
    rfl

/-- DECOMPRESS's end state for a parsed blob that decodes to `out` (R195). -/
def decompressed (r : Parsed) (out : List Byte) (s : State) : State :=
  { s with
    flags := ⟨false, false, true, true, true⟩
    code := r.codes
    symCount := BitVec.ofNat 9 r.count
    padLen := BitVec.ofNat 3 r.pad
    bits := Store.ofList r.payload s.draw
    bitsLen := r.payload.length
    outBuf := Store.ofList out (s.draw + 1)
    outLen := out.length
    draw := s.draw + 1 + 1 }

/-- DECOMPRESS on a blob the host has written, once its fields are parsed (R195). -/
theorem decompressBody_eq {s : State} {input : List Byte} {r : Except Stop Parsed} (hin : InputIs s input)
    (hc : s.inLen ≤ s.cfg.inCap) (h : parseBlob s.cfg.bitsCap (bsFromBytes input) = r) :
    decompressBody s = r.bind fun x =>
      (unpackFrom x.codes x.payload s.cfg.outCap x.payload.length 0 0).map fun out => decompressed x out s := by
  unfold decompressBody
  rw [deserializeBody_eq (s := { s with flags := s.flags.without (flagsCleared .decompress) }) hin hc h]
  cases r with
  | error e => rfl
  | ok x =>
    simp only [Except.map, Bind.bind, Except.bind]
    rw [decodeBody_eq (p := x.payload) ⟨rfl, (Store.holdsOnly_ofList _ _).holds⟩ rfl rfl rfl]
    rfl

/-- Everything DECOMPRESS can answer on a blob the host has written: an error that depends on the blob and the
parameters alone, or the state `decompressed` gives. -/
theorem decompressBody_cases (p : Params) (input : List Byte) :
    (∃ e info, info ≤ 8 * input.length ∧ e ≠ .codeLengthOverflow ∧
      ∀ s : State, s.cfg = p → InputIs s input → decompressBody s = .error (.raise e info)) ∨
    (input.length ≤ p.inCap ∧ ∃ r out, parseBlob p.bitsCap (bsFromBytes input) = .ok r ∧
      (out ≠ [] → out.length ≤ p.outCap) ∧
      ∀ s : State, s.cfg = p → InputIs s input → decompressBody s = .ok (decompressed r out s)) := by
  by_cases hcap : input.length ≤ p.inCap
  swap
  · refine .inl ⟨.bufferOverflow, 0, Nat.zero_le _, nofun, fun s hs hin => ?_⟩
    refine bind_eq_error.mpr (.inl (stage_eq_error.mpr (.inr ⟨covers_clear _, deserializeEffect_over ?_⟩)))
    show s.cfg.inCap < s.inLen
    rw [hs, hin.1]
    omega
  have eq : ∀ (s : State) (x : Except Stop Parsed), s.cfg = p → InputIs s input →
      parseBlob p.bitsCap (bsFromBytes input) = x →
      decompressBody s = x.bind fun x =>
        (unpackFrom x.codes x.payload p.outCap x.payload.length 0 0).map fun out => decompressed x out s := by
    intro s x hs hin hx
    rw [← hs, decompressBody_eq (r := x) hin (by rw [hs, hin.1]; exact hcap) (by rw [hs]; exact hx)]
  rcases parseBlob_cases p.bitsCap (bsFromBytes input) with ⟨r, hr, -, -, -, hcr, -, -, hl⟩ | ⟨c, hc, hr⟩ | ⟨c, hc, hr⟩
  · rw [bsFromBytes_length] at hl
    rcases unpackFrom_cases (b := r.payload) (outCap := p.outCap) (fuel := r.payload.length) (cur := 0) (k := 0) hcr
      (Nat.zero_le _) (by omega) with ⟨out, ho, hle⟩ | ⟨c, -, hc, ho⟩ | ⟨c, -, hc, ho⟩
    · refine .inr ⟨hcap, r, out, hr, by simpa using hle, fun s hs hin => ?_⟩
      rw [eq s _ hs hin hr]
      simp only [Except.bind, ho]
      rfl
    · refine .inl ⟨.unknownCode, c, by omega, nofun, fun s hs hin => ?_⟩
      rw [eq s _ hs hin hr]
      simp only [Except.bind, ho]
      rfl
    · refine .inl ⟨.bufferOverflow, c, by omega, nofun, fun s hs hin => ?_⟩
      rw [eq s _ hs hin hr]
      simp only [Except.bind, ho]
      rfl
  · rw [bsFromBytes_length] at hc
    refine .inl ⟨.malformedContainer, c, hc, nofun, fun s hs hin => ?_⟩
    rw [eq s _ hs hin hr]
    rfl
  · rw [bsFromBytes_length] at hc
    refine .inl ⟨.bufferOverflow, c, hc, nofun, fun s hs hin => ?_⟩
    rw [eq s _ hs hin hr]
    rfl

end Sys2Proof.Machine
end

