-- ==== Sys2Proof/Laws/Invariant.lean ====
section
/-! SUPPORT. Lemmas for the invariant (spec/10_state.md R45, R46): what each command body, each host write, the
abort and the two resets keep. -/

namespace Sys2Proof.Machine

/-- R6's constraints, one by one. -/
theorem Params.wf_bounds {p : Params} (h : p.wf = true) : 1 ≤ p.lenW ∧ 1 ≤ p.inCap ∧ p.inCap ≤ 2 ^ p.lenW - 1 ∧ 1 ≤ p.outCap ∧ p.outCap ≤ 2 ^ p.lenW - 1 ∧ 1 ≤ p.bitsCap := by
  simp only [Params.wf, Bool.and_eq_true, decide_eq_true_eq] at h; tauto

/-- The state after reset meets the invariant whatever the parameters are. -/
theorem inv_resetWith {p : Params} (hp : p.wf = true) : Inv (State.resetWith p) where
  params := hp
  inBuf := rfl
  outBuf := rfl
  node := rfl
  bits := rfl
  queue := ⟨List.Pairwise.nil, by simp [State.resetWith], by simp [State.resetWith]⟩
  notBusy := nofun
  noError := fun _ => ⟨rfl, rfl⟩
  inError := nofun
  widths := ⟨Nat.two_pow_pos _, Nat.two_pow_pos _, Nat.two_pow_pos _, Nat.two_pow_pos _⟩
  ranges := ⟨Nat.zero_le _, Nat.zero_le _, Nat.zero_le _⟩
  freqWidth := fun b => by
    show tableGet (Vector.replicate 256 0) b < _
    rw [tableGet_replicate]; exact Nat.two_pow_pos _
  codeWidth := fun b c h => by
    have h : tableGet (Vector.replicate 256 none) b = some c := h
    rw [tableGet_replicate] at h; cases h
  freqValid := nofun
  treeValid := nofun
  codeValid := nofun
  codeOfTree := nofun
  bitsValid := nofun
  outValid := nofun

/-- RESET keeps the invariant. -/
theorem inv_recover {s : State} (h : Inv s) : Inv (recover s) :=
  let b := inv_resetWith h.params
  { params := b.params, inBuf := h.inBuf, outBuf := rfl, node := rfl, bits := rfl, queue := b.queue, notBusy := b.notBusy,
    noError := b.noError, inError := b.inError, widths := b.widths, ranges := b.ranges, freqWidth := b.freqWidth, codeWidth := b.codeWidth,
    freqValid := b.freqValid, treeValid := nofun, codeValid := b.codeValid, codeOfTree := b.codeOfTree, bitsValid := nofun, outValid := nofun }

/-- The reset input keeps the invariant. -/
theorem inv_hardwareReset {s : State} (h : Inv s) : Inv (hardwareReset s) :=
  let b := inv_recover h
  { b with inBuf := rfl, treeValid := nofun, bitsValid := nofun, outValid := nofun }

/-- What TREE_VALID promises reads only FREQ, NODE, NODE_COUNT, ROOT and PQ. -/
theorem TreeIsBuilt.congr {s t : State} (h : TreeIsBuilt s) (h1 : t.freq = s.freq) (h2 : t.node = s.node) (h3 : t.nodeCount = s.nodeCount) (h4 : t.root = s.root) (h5 : t.pq = s.pq) : TreeIsBuilt t :=
  ⟨by rw [h1]; exact h.someSymbol, by rw [h1, h2]; exact h.nodes, by rw [h1, h3]; exact h.count, by rw [h1, h4]; exact h.root, by rw [h1, h5]; exact h.queue⟩

/-- The model's own fields are not in the invariant. -/
theorem inv_port {s : State} (h : Inv s) (r : List HostInput) (p : Option Datum) (d : Nat) : Inv { s with inputs := r, portData := p, draw := d } :=
  ⟨h.params, h.inBuf, h.outBuf, h.node, h.bits, h.queue, h.notBusy, h.noError, h.inError, h.widths, h.ranges, h.freqWidth, h.codeWidth, h.freqValid,
   fun hf => ⟨(h.treeValid hf).1, (h.treeValid hf).2.congr rfl rfl rfl rfl rfl⟩, h.codeValid, h.codeOfTree, h.bitsValid, h.outValid⟩

/-- A host write to IN keeps the invariant. -/
theorem inv_inBuf {s : State} (h : Inv s) {m : Memory} (hm : Memory.wf m s.cfg.inCap = true) : Inv { s with inBuf := m } :=
  ⟨h.params, hm, h.outBuf, h.node, h.bits, h.queue, h.notBusy, h.noError, h.inError, h.widths, h.ranges, h.freqWidth, h.codeWidth, h.freqValid,
   fun hf => ⟨(h.treeValid hf).1, (h.treeValid hf).2.congr rfl rfl rfl rfl rfl⟩, h.codeValid, h.codeOfTree, h.bitsValid, h.outValid⟩

/-- A host write to IN_LEN keeps the invariant. -/
theorem inv_inLen {s : State} (h : Inv s) {v : Nat} (hm : v < 2 ^ s.cfg.lenW) : Inv { s with inLen := v } :=
  ⟨h.params, h.inBuf, h.outBuf, h.node, h.bits, h.queue, h.notBusy, h.noError, h.inError, ⟨hm, h.widths.2⟩, h.ranges, h.freqWidth, h.codeWidth, h.freqValid,
   fun hf => ⟨(h.treeValid hf).1, (h.treeValid hf).2.congr rfl rfl rfl rfl rfl⟩, h.codeValid, h.codeOfTree, h.bitsValid, h.outValid⟩

/-- An abort keeps the invariant. -/
theorem inv_abort {s : State} (h : Inv s) (e : Err) (info : Nat) : Inv (abort e info s) where
  params := h.params
  inBuf := h.inBuf
  outBuf := rfl
  node := rfl
  bits := rfl
  queue := by rw [abort_pq]; exact freeQueue_ok s.draw
  notBusy := nofun
  noError := fun h => absurd rfl h
  inError := fun _ => ⟨by rw [abort_err]; cases e <;> decide, by rw [abort_err]; cases e <;> decide, rfl, rfl⟩
  widths := ⟨h.widths.1, Nat.two_pow_pos _, Nat.mod_lt _ (Nat.two_pow_pos _), errInfoValue_lt _ _ _⟩
  ranges := by
    refine ⟨?_, ?_, ?_⟩
    · have : Config.free s.draw .symCount % 257 < 257 := Nat.mod_lt _ (by omega)
      rw [abort_symCount, BitVec.toNat_ofNat]; omega
    · have : Config.free s.draw .root % Config.nodeCap < 511 := Nat.mod_lt _ (by decide)
      rw [abort_root, BitVec.toNat_ofNat]; omega
    · have : Config.free s.draw .nodeCount % (Config.nodeCap + 1) < 512 := Nat.mod_lt _ (by decide)
      rw [abort_nodeCount, BitVec.toNat_ofNat]; omega
  freqWidth := fun b => by
    rw [abort_freq, tableGet_tableOf]; exact Nat.mod_lt _ (Nat.two_pow_pos _)
  codeWidth := fun b c hc => by
    rw [abort_code, tableGet_tableOf] at hc; exact freeCode_length hc
  freqValid := nofun
  treeValid := nofun
  codeValid := nofun
  codeOfTree := nofun
  bitsValid := nofun
  outValid := nofun

/-- In IDLE and DONE no error stands. -/
theorem ready_noError {s : State} (h : Inv s) (hr : Ready s) : s.err = 0 ∧ s.errInfo = 0 :=
  h.noError (by rcases hr with h | h <;> rw [h] <;> decide)

/-- A count is at most the input's length, so it fits LEN_W bits. -/
theorem tableGet_freqOf_lt {s : State} {input : List Byte} (hin : InputIs s input) (hw : s.inLen < 2 ^ s.cfg.lenW)
    (b : Byte) : tableGet (freqOf input) b < 2 ^ s.cfg.lenW := by
  have h1 := tableGet_le_freqTotal (freqOf input) b
  rw [freqTotal_freqOf, ← hin.1] at h1
  omega

/-- A store made from a list holds every element of it. -/
theorem Store.specified_ofList {α : Type} (l : List α) (n : Nat) : (Store.ofList l n).Specified l.length := (Store.holdsOnly_ofList l n).holds.specified

/-- A completed COUNT keeps the invariant. -/
theorem inv_count {s u : State} (h : Inv s) (he : s.err = 0 ∧ s.errInfo = 0) (hb : countBody { s with seq := .busy } = .ok u) : Inv { u with seq := .done } := by
  obtain ⟨hc, input, hin, e⟩ := countBody_ok hb
  have hd : distinctSymbols (freqOf input) ≤ 256 := distinctSymbols_le _
  have ht := freqTotal_freqOf input
  have hd9 := toNat_ofNat_distinctSymbols (freqOf input)
  subst e
  exact
  { params := h.params, inBuf := h.inBuf, outBuf := h.outBuf, node := h.node, bits := h.bits, queue := h.queue, notBusy := nofun,
    noError := fun _ => he, inError := nofun, widths := h.widths,
    ranges := ⟨by show (BitVec.ofNat 9 _).toNat ≤ _; rw [hd9]; exact hd, h.ranges.2⟩
    freqWidth := tableGet_freqOf_lt hin h.widths.1
    codeWidth := h.codeWidth
    freqValid := fun _ => ⟨by rw [ht, ← hin.1]; exact hc, hd9⟩
    treeValid := nofun
    codeValid := nofun
    codeOfTree := nofun
    bitsValid := nofun
    outValid := nofun }

/-- After BUILD the queue holds one NODE index. -/
theorem buildForest_queue_ok {freq : Table Nat} (hd : 0 < distinctSymbols freq) :
   (buildForest freq).pq.Pairwise (· < ·) ∧ (buildForest freq).pq.length ≤ Config.pqCap ∧ ∀ i, i ∈ (buildForest freq).pq → i < Config.nodeCap := by
  obtain ⟨h0, h1, h2⟩ := buildForest_ok hd
  have := distinctSymbols_le freq
  rw [h2, h1]
  refine ⟨List.pairwise_singleton _ _, by simp [Config.pqCap], fun i hi => ?_⟩
  rw [List.mem_singleton] at hi
  show i < 511
  omega

/-- A completed BUILD keeps the invariant. -/
theorem inv_build {s u : State} (h : Inv s) (he : s.err = 0 ∧ s.errInfo = 0) (hb : buildBody { s with seq := .busy } = .ok u) : Inv { u with seq := .done } := by
  obtain ⟨hf, hd, e⟩ := buildBody_ok hb
  have hd : 0 < distinctSymbols s.freq := hd
  have hr := buildForest_registers hd
  have hl := distinctSymbols_le s.freq
  have hq := buildForest_queue_ok hd
  have hlen : (buildForest s.freq).nodes.length ≤ 511 := (buildForest_ok hd).1.length_le
  subst e
  exact
  { params := h.params, inBuf := h.inBuf, outBuf := h.outBuf, node := Store.wf_ofList hlen, bits := h.bits, queue := hq, notBusy := nofun,
    noError := fun _ => he, inError := nofun, widths := h.widths,
    ranges := ⟨h.ranges.1, by show (BitVec.ofNat 9 _).toNat ≤ 510; exact hr.2.le.trans (by omega), by show (BitVec.ofNat 10 _).toNat ≤ 511; exact hr.1.le.trans (by omega)⟩
    freqWidth := h.freqWidth
    codeWidth := h.codeWidth
    freqValid := fun _ => h.freqValid hf
    treeValid := fun _ => ⟨rfl, treeIsBuilt_of (freq := s.freq) hd rfl rfl rfl rfl rfl⟩
    codeValid := nofun
    codeOfTree := nofun
    bitsValid := nofun
    outValid := nofun }

/-- A completed ASSIGN keeps the invariant. -/
theorem inv_assign {s u : State} (h : Inv s) (he : s.err = 0 ∧ s.errInfo = 0) (hb : assignBody { s with seq := .busy } = .ok u) : Inv { u with seq := .done } := by
  obtain ⟨hf, codes, hc, e⟩ := assignBody_ok hb
  obtain ⟨hfv, ht⟩ := h.treeValid hf
  obtain ⟨codes', hc', h1, h2, h3, -⟩ := assignCodes_ok ht
  have hc : assignCodes s = .ok codes := by rw [← hc]; exact assignCodes_congr (fun _ => rfl) rfl
  rw [hc'] at hc
  cases hc
  have hcount := entryCount_eq h1
  have hpos : 0 < distinctSymbols s.freq := leafForest_pq_ne_nil.mp ht.someSymbol
  subst e
  exact
  { params := h.params, inBuf := h.inBuf, outBuf := h.outBuf, node := h.node, bits := h.bits, queue := h.queue, notBusy := nofun,
    noError := fun _ => he, inError := nofun, widths := h.widths,
    ranges := h.ranges
    freqWidth := h.freqWidth
    codeWidth := fun b c hbc => (codeWellFormed_iff.mp (h2 b c hbc)).2
    freqValid := fun _ => h.freqValid hfv
    treeValid := fun _ => ⟨hfv, ht.congr rfl rfl rfl rfl rfl⟩
    codeValid := fun _ => ⟨h2, by rw [hcount]; omega, by rw [hcount]; exact (h.freqValid hfv).2⟩
    codeOfTree := fun _ _ => h3
    bitsValid := nofun
    outValid := nofun }

/-- A payload fits BITPOS_W bits: at most 255 bits a byte. -/
theorem encodeBytes_lt_bitposW {s : State} {input : List Byte} (h : Inv s) (hin : InputIs s input) : (encodeBytes s.code input).length < 2 ^ s.cfg.bitposW := by
  have h1 := encodeBytes_length_le h.codeWidth input
  have h2 := h.widths.1
  rw [hin.1] at h2
  unfold Params.bitposW; rw [Nat.pow_add]; omega

/-- A completed ENCODE keeps the invariant. -/
theorem inv_encode {s u : State} (h : Inv s) (he : s.err = 0 ∧ s.errInfo = 0) (hb : encodeBody { s with seq := .busy } = .ok u) : Inv { u with seq := .done } := by
  obtain ⟨hf, hc, input, hin, ha, hl, e⟩ := encodeBody_ok hb
  have hlen := encodeBytes_lt_bitposW h hin
  have hl' : (encodeBytes s.code input).length ≤ s.cfg.bitsCap := by
    by_cases hne : input = []
    · subst hne; simp [encodeBytes]
    · exact hl hne
  subst e
  exact
  { params := h.params, inBuf := h.inBuf, outBuf := h.outBuf, node := h.node, bits := Store.wf_ofList hl', queue := h.queue, notBusy := nofun,
    noError := fun _ => he, inError := nofun, widths := ⟨h.widths.1, h.widths.2.1, hlen, h.widths.2.2.2⟩,
    ranges := h.ranges
    freqWidth := h.freqWidth
    codeWidth := h.codeWidth
    freqValid := h.freqValid
    treeValid := fun hf => ⟨(h.treeValid hf).1, (h.treeValid hf).2.congr rfl rfl rfl rfl rfl⟩
    codeValid := h.codeValid
    codeOfTree := h.codeOfTree
    bitsValid := fun _ => ⟨Store.specified_ofList _ _, hf⟩
    outValid := nofun }

/-- A completed SERIALIZE keeps the invariant. -/
theorem inv_serialize {s u : State} (h : Inv s) (he : s.err = 0 ∧ s.errInfo = 0) (hb : serializeBody { s with seq := .busy } = .ok u) : Inv { u with seq := .done } := by
  obtain ⟨hf, hf', p, hp, hl, e⟩ := serializeBody_ok hb
  have hl : (blobBits s.code p).length / 8 ≤ s.cfg.outCap := hl
  have hlen : (bsToBytes (blobBits s.code p)).length = (blobBits s.code p).length / 8 := bsToBytes_length (blobBits_mod _ _)
  have hw := Params.wf_bounds h.params
  have hlt : (blobBits s.code p).length / 8 < 2 ^ s.cfg.lenW := by have := Nat.two_pow_pos s.cfg.lenW; omega
  subst e
  exact
  { params := h.params, inBuf := h.inBuf, outBuf := Store.wf_ofList (hlen.le.trans hl), node := h.node, bits := h.bits, queue := h.queue, notBusy := nofun,
    noError := fun _ => he, inError := nofun, widths := ⟨h.widths.1, hlt, h.widths.2.2⟩,
    ranges := h.ranges
    freqWidth := h.freqWidth
    codeWidth := h.codeWidth
    freqValid := h.freqValid
    treeValid := fun hf => ⟨(h.treeValid hf).1, (h.treeValid hf).2.congr rfl rfl rfl rfl rfl⟩
    codeValid := h.codeValid
    codeOfTree := h.codeOfTree
    bitsValid := h.bitsValid
    outValid := fun _ => ⟨by rw [← hlen]; exact Store.specified_ofList _ _, hl⟩ }

/-- A completed DESERIALIZE keeps the invariant. -/
theorem inv_deserialize {s u : State} (h : Inv s) (he : s.err = 0 ∧ s.errInfo = 0) (hb : deserializeBody { s with seq := .busy } = .ok u) : Inv { u with seq := .done } := by
  obtain ⟨hc, input, r, hin, hp, e⟩ := deserializeBody_ok hb
  have hc : s.inLen ≤ s.cfg.inCap := hc
  have hp : parseBlob s.cfg.bitsCap (bsFromBytes input) = .ok r := hp
  rcases parseBlob_cases s.cfg.bitsCap (bsFromBytes input) with ⟨r', hp', h1, h2, h3, h4, h5, h6, h7⟩ | ⟨c, -, hp'⟩ | ⟨c, -, hp'⟩ <;> rw [hp] at hp' <;> cases hp'
  have h9 : (BitVec.ofNat 9 r.count).toNat = r.count := toNat_ofNat9 (by omega)
  have hlen : r.payload.length < 2 ^ s.cfg.bitposW := by
    refine lt_bitposW_of_inLen h.widths.1 ?_
    rw [bsFromBytes_length, ← (show s.inLen = input.length from hin.1)] at h7; exact h7
  subst e
  exact
  { params := h.params, inBuf := h.inBuf, outBuf := h.outBuf, node := h.node, bits := Store.wf_ofList h6, queue := h.queue, notBusy := nofun,
    noError := fun _ => he, inError := nofun, widths := ⟨h.widths.1, h.widths.2.1, hlen, h.widths.2.2.2⟩,
    ranges := ⟨h9.le.trans h3, h.ranges.2⟩
    freqWidth := h.freqWidth
    codeWidth := fun b c hbc => (codeWellFormed_iff.mp (h4 b c hbc)).2
    freqValid := nofun
    treeValid := nofun
    codeValid := fun _ => ⟨h4, by rw [h5]; exact h2, h9.trans h5.symm⟩
    codeOfTree := nofun
    bitsValid := fun _ => ⟨Store.specified_ofList _ _, rfl⟩
    outValid := nofun }

/-- A completed DECODE keeps the invariant. -/
theorem inv_decode {s u : State} (h : Inv s) (he : s.err = 0 ∧ s.errInfo = 0) (hb : decodeBody { s with seq := .busy } = .ok u) : Inv { u with seq := .done } := by
  obtain ⟨hf, hf', p, out, hp, ho, e⟩ := decodeBody_ok hb
  obtain ⟨hcr, -, -⟩ := h.codeValid hf
  have hl : out.length ≤ s.cfg.outCap := by
    rcases unpackFrom_cases (b := p) (outCap := s.cfg.outCap) (fuel := p.length) (cur := 0) (k := 0) hcr (Nat.zero_le _) (by omega) with ⟨out', ho', hle⟩ | ⟨c, -, -, ho'⟩ | ⟨c, -, -, ho'⟩ <;>
      have := ho.symm.trans ho' <;> cases this
    by_cases hne : out = []
    · subst hne; simp
    · have := hle hne; omega
  have hw := Params.wf_bounds h.params
  have hlt : out.length < 2 ^ s.cfg.lenW := by have := Nat.two_pow_pos s.cfg.lenW; omega
  subst e
  exact
  { params := h.params, inBuf := h.inBuf, outBuf := Store.wf_ofList hl, node := h.node, bits := h.bits, queue := h.queue, notBusy := nofun,
    noError := fun _ => he, inError := nofun, widths := ⟨h.widths.1, hlt, h.widths.2.2⟩,
    ranges := h.ranges
    freqWidth := h.freqWidth
    codeWidth := h.codeWidth
    freqValid := h.freqValid
    treeValid := fun hf => ⟨(h.treeValid hf).1, (h.treeValid hf).2.congr rfl rfl rfl rfl rfl⟩
    codeValid := h.codeValid
    codeOfTree := h.codeOfTree
    bitsValid := h.bitsValid
    outValid := fun _ => ⟨Store.specified_ofList _ _, hl⟩ }

/-- Moving to DONE with no error standing keeps the invariant. -/
theorem inv_done {s : State} (h : Inv s) (he : s.err = 0 ∧ s.errInfo = 0) : Inv { s with seq := .done } :=
  ⟨h.params, h.inBuf, h.outBuf, h.node, h.bits, h.queue, nofun, fun _ => he, nofun, h.widths, h.ranges, h.freqWidth, h.codeWidth, h.freqValid,
   fun hf => ⟨(h.treeValid hf).1, (h.treeValid hf).2.congr rfl rfl rfl rfl rfl⟩, h.codeValid, h.codeOfTree, h.bitsValid, h.outValid⟩

/-- Between the bodies of a whole call the state is BUSY throughout. -/
theorem busy_done_busy {u : State} (h : u.seq = .busy) : ({ ({ u with seq := .done } : State) with seq := .busy } : State) = u := by
  cases u; simp at h; subst h; rfl

/-- A completed body leaves STATUS.state and the error registers as they are. -/
theorem count_keeps {s u : State} (h : countBody s = .ok u) : u.seq = s.seq ∧ u.err = s.err ∧ u.errInfo = s.errInfo := by obtain ⟨-, _, -, rfl⟩ := countBody_ok h; exact ⟨rfl, rfl, rfl⟩

/-- A completed body leaves STATUS.state and the error registers as they are. -/
theorem build_keeps {s u : State} (h : buildBody s = .ok u) : u.seq = s.seq ∧ u.err = s.err ∧ u.errInfo = s.errInfo := by obtain ⟨-, -, e⟩ := buildBody_ok h; subst e; exact ⟨rfl, rfl, rfl⟩

/-- A completed body leaves STATUS.state and the error registers as they are. -/
theorem assign_keeps {s u : State} (h : assignBody s = .ok u) : u.seq = s.seq ∧ u.err = s.err ∧ u.errInfo = s.errInfo := by obtain ⟨-, _, -, e⟩ := assignBody_ok h; subst e; exact ⟨rfl, rfl, rfl⟩

/-- A completed body leaves STATUS.state and the error registers as they are. -/
theorem encode_keeps {s u : State} (h : encodeBody s = .ok u) : u.seq = s.seq ∧ u.err = s.err ∧ u.errInfo = s.errInfo := by obtain ⟨-, -, _, -, -, -, e⟩ := encodeBody_ok h; subst e; exact ⟨rfl, rfl, rfl⟩

/-- A completed body leaves STATUS.state and the error registers as they are. -/
theorem deserialize_keeps {s u : State} (h : deserializeBody s = .ok u) : u.seq = s.seq ∧ u.err = s.err ∧ u.errInfo = s.errInfo := by obtain ⟨-, _, _, -, -, e⟩ := deserializeBody_ok h; subst e; exact ⟨rfl, rfl, rfl⟩

end Sys2Proof.Machine
end

