-- ==== Sys2Proof/Laws/PerInstr.lean ====
section
/-! SUPPORT. What is proved of every command as syntax, one lemma for each constructor (spec/30_encoding.md R80,
R81). -/

namespace Sys2Proof.Laws.Encoding

/-- The command is well formed, its word has zeros in bits [31:8] (R80), and decoding its word gives it back
(R81). -/
def Statement (i : Instr) : Prop :=
  i.wellFormed = true ∧ zeroField (encode i) = 0 ∧ decode (encode i) = .ok i

theorem reset : Statement .reset := ⟨rfl, rfl, rfl⟩
theorem count : Statement .count := ⟨rfl, rfl, rfl⟩
theorem build : Statement .build := ⟨rfl, rfl, rfl⟩
theorem assign : Statement .assign := ⟨rfl, rfl, rfl⟩
theorem encode : Statement .encode := ⟨rfl, rfl, rfl⟩
theorem serialize : Statement .serialize := ⟨rfl, rfl, rfl⟩
theorem deserialize : Statement .deserialize := ⟨rfl, rfl, rfl⟩
theorem decode : Statement .decode := ⟨rfl, rfl, rfl⟩
theorem compress : Statement .compress := ⟨rfl, rfl, rfl⟩
theorem decompress : Statement .decompress := ⟨rfl, rfl, rfl⟩
theorem nop : Statement .nop := ⟨rfl, rfl, rfl⟩

end Sys2Proof.Laws.Encoding
end

