-- ==== Sys2Proof/Tests/Slice0.lean ====
section
/-! SUPPORT. Tests: the checks of WellFormed and the decoder; one-step tests whose expected results are the vectors
of spec/95_test_vectors.md (V1 to V51); and, in the second half, a witness for every statement of
Certificates/Slice0/Obligations.lean that has hypotheses. -/

namespace Sys2Proof.Tests

open Sys2Proof.Machine

set_option Elab.async false

/-! ## WellFormed: each check refuses an ill-formed term -/

theorem test_params_default : Params.wf {} = true := by decide +kernel

theorem test_params_bounds_refused :
    Params.wf { lenW := 0 } = false ∧ Params.wf { inCap := 0 } = false ∧
    Params.wf { lenW := 8, inCap := 256, outCap := 255 } = false ∧ Params.wf { outCap := 0 } = false ∧
    Params.wf { lenW := 8, inCap := 255, outCap := 256 } = false ∧ Params.wf { bitsCap := 0 } = false ∧
    Params.wf { lenW := 8, inCap := 255, outCap := 255 } = true := by decide +kernel

theorem test_code_length_refused :
    codeWellFormed [] = false ∧ codeWellFormed (zeros 256) = false ∧ codeWellFormed [false] = true ∧
    codeWellFormed (zeros 255) = true := by decide +kernel

theorem test_host_access_refused :
    (HostAccess.writeReg 0 (2 ^ 32)).fits {} = false ∧ (HostAccess.writeReg 4 (2 ^ 32)).fits {} = false ∧
    (HostAccess.writeReg 0 (2 ^ 32 - 1)).fits {} = true ∧ (HostAccess.writeReg 5 (2 ^ 40)).fits {} = true := by
  decide +kernel

/-- An index that does not rise, one listed twice, one outside the buffer. -/
theorem test_memory_refused :
    Memory.wf { cells := [(2, 0), (1, 0)], seed := 0 } 4 = false ∧
    Memory.wf { cells := [(1, 0), (1, 1)], seed := 0 } 4 = false ∧
    Memory.wf { cells := [(0, 0), (4, 0)], seed := 0 } 4 = false ∧
    Memory.wf { cells := [(0, 0), (3, 0)], seed := 0 } 4 = true := by decide +kernel

/-! ## Decoding: words written out from the opcode map (R80, R81), field `zero` then field `opcode` -/

theorem test_decode_words :
    decode 0b000000000000000000000000_00000001#32 = .ok .reset ∧
    decode 0b000000000000000000000000_00000010#32 = .ok .count ∧
    decode 0b000000000000000000000000_00000011#32 = .ok .build ∧
    decode 0b000000000000000000000000_00000100#32 = .ok .assign ∧
    decode 0b000000000000000000000000_00000101#32 = .ok .encode ∧
    decode 0b000000000000000000000000_00000110#32 = .ok .serialize ∧
    decode 0b000000000000000000000000_00000111#32 = .ok .deserialize ∧
    decode 0b000000000000000000000000_00001000#32 = .ok .decode ∧
    decode 0b000000000000000000000000_00001001#32 = .ok .compress ∧
    decode 0b000000000000000000000000_00001010#32 = .ok .decompress ∧
    decode 0b000000000000000000000000_00001011#32 = .ok .nop := by decide +kernel

/-- V33's words: the opcode map's two edges, a bit of the field `zero` beside a good opcode, all ones. -/
theorem test_decode_refuses :
    decode 0x00000000#32 = .error (.unknownOpcode 0) ∧ decode 0x0000000C#32 = .error (.unknownOpcode 0x0C) ∧
    decode 0x000000FF#32 = .error (.unknownOpcode 0xFF) ∧ decode 0x00000109#32 = .error .zeroFieldNotZero ∧
    decode 0xFFFFFFFF#32 = .error .zeroFieldNotZero := by decide +kernel

theorem test_decodeTableWord :
    decodeTableWord 32 9 = some .compress ∧ decodeTableWord 32 0x109 = none ∧ decodeTableWord 8 0x0B = some .nop ∧
    decodeTableWord 40 (2 ^ 32 + 9) = none := by decide +kernel

/-! ## Small states to test on -/

/-- IN holds the bytes, IN_LEN their number, everything else is as after hardware reset. -/
def given (p : Params) (input : List Byte) : State :=
  { State.resetWith p with inLen := input.length, inBuf := Store.ofList input 0 }

/-- As `given`, with FREQ of the input (what COUNT leaves). -/
def counted (p : Params) (input : List Byte) : State :=
  { given p input with
    seq := .done
    flags := { Flags.clear with freqValid := true }
    freq := freqOf input
    symCount := BitVec.ofNat 9 (distinctSymbols (freqOf input)) }

/-- As `given`, with a code table and a payload (what DESERIALIZE leaves). -/
def coded (p : Params) (input : List Byte) (es : List (Byte × Bits)) (payload : Bits) : State :=
  { given p input with
    seq := .done
    flags := { Flags.clear with codeValid := true, bitsValid := true }
    symCount := BitVec.ofNat 9 es.length
    code := tableOfEntries es
    bits := Store.ofList payload 0
    bitsLen := payload.length }

/-- As `given`, with a tree of the listed entries under the last of them. -/
def planted (input : List Byte) (nodes : List NodeEntry) : State :=
  { given {} input with
    flags := { Flags.clear with freqValid := true, treeValid := true }
    node := Store.ofList nodes 0
    nodeCount := BitVec.ofNat 10 nodes.length
    root := BitVec.ofNat 9 (nodes.length - 1) }

/-- An error state: what V24 leaves. -/
def failed : State := abort .malformedContainer 28 (given {} [0xE0, 0x4C, 0x20, 0x36])

/-- The outcome is a next state in which the test holds. -/
def ends (o : Host.Outcome State Fault Refusal) (test : State → Bool) : Bool :=
  match o with
  | .next t => test t
  | .fault _ | .refused _ => false

/-- The outcome is DONE with this STATUS, and the test holds. -/
def completes (o : Host.Outcome State Fault Refusal) (status : BitVec 9) (test : State → Bool) : Bool :=
  ends o fun t => decide (t.seq = .done) && (decide (statusWord t = status) && test t)

/-- The outcome is an abort with this ERR and ERR_INFO: STATUS 0x003 and OUT_LEN 0. -/
def raises (o : Host.Outcome State Fault Refusal) (code : BitVec 4) (info : Nat) : Bool :=
  ends o fun t => decide (t.seq = .error ∧ t.err = code ∧ t.errInfo = info ∧ statusWord t = 0x003 ∧ t.outLen = 0)

/-- "aaab". -/
def aaab : List Byte := [0x61, 0x61, 0x61, 0x62]

/-- V1's blob. -/
def blobV1 : List Byte := [0xE0, 0x4C, 0x20, 0x36, 0x20, 0x17, 0x00]

/-- V1's code table. -/
def codesV1 : List (Byte × Bits) := [(0x61, [true]), (0x62, [false])]

/-! ## One step of each command: spec/95_test_vectors.md -/

/-- V39, V38: from DONE and from ERROR. -/
theorem test_reset :
    ends (exec .reset (coded {} blobV1 codesV1 [true])) (fun t => decide (statusWord t = 0 ∧ t.inLen = 0 ∧
      t.bitsLen = 0 ∧ t.symCount = 0 ∧ tableGet t.code 0x61 = none ∧ t.inBuf.get? 1 = some 0x4C)) = true ∧
    ends (exec .reset failed) (fun t => decide (statusWord t = 0 ∧ t.err = 0 ∧ t.errInfo = 0 ∧ t.inLen = 0)) = true := by
  decide +kernel

/-- V1: COUNT. -/
theorem test_count_V1 :
    completes (exec .count (given {} aaab)) 0x012 (fun t => decide (tableGet t.freq 0x61 = 3 ∧ tableGet t.freq 0x62 = 1 ∧
      tableGet t.freq 0x63 = 0 ∧ t.symCount = 2)) = true := by decide +kernel

/-- V36 (a): BufferOverflow before any byte is read. -/
theorem test_count_V36a :
    raises (exec .count { given { lenW := 8, inCap := 16, outCap := 16 } [] with inLen := 17 }) 8 0 = true := by
  decide +kernel

/-- V6: the new internal node of frequency 2 waits behind the older leaves. -/
theorem test_build_V6 :
    completes (exec .build (counted {} [0x61, 0x61, 0x62, 0x62, 0x63, 0x64])) 0x032 (fun t => decide (
      t.node.get? 4 = some ⟨.internal, 0, 2, 2, 3⟩ ∧ t.node.get? 5 = some ⟨.internal, 0, 4, 0, 1⟩ ∧
      t.node.get? 6 = some ⟨.internal, 0, 6, 4, 5⟩ ∧ t.node.get? 1 = some ⟨.leaf, 0x62, 2, 0, 0⟩ ∧ t.root = 6 ∧
      t.nodeCount = 7 ∧ t.pq = [6])) = true := by decide +kernel

/-- V34: BUILD from reset is BadSequence(3). -/
theorem test_build_V34 : raises (exec .build State.reset) 6 3 = true := by decide +kernel

/-- V5: the codes of three tied symbols. -/
theorem test_assign_V5 :
    completes (exec .assign (planted [] [⟨.leaf, 0x61, 1, 0, 0⟩, ⟨.leaf, 0x62, 1, 0, 0⟩, ⟨.leaf, 0x63, 1, 0, 0⟩,
        ⟨.internal, 0, 2, 0, 1⟩, ⟨.internal, 0, 3, 2, 3⟩])) 0x072 (fun t => decide (
      tableGet t.code 0x61 = some [true, false] ∧ tableGet t.code 0x62 = some [true, true] ∧
      tableGet t.code 0x63 = some [false] ∧ tableGet t.code 0x64 = none)) = true := by
  decide +kernel

/-- V2: the tree of one leaf. -/
theorem test_assign_V2 :
    ends (exec .assign (planted [] [⟨.leaf, 0x61, 1, 0, 0⟩])) (fun t => decide (
      tableGet t.code 0x61 = some [false] ∧ tableGet t.code 0x00 = none)) = true := by decide +kernel

/-- V1: ENCODE. -/
theorem test_encode_V1 :
    completes (exec .encode (coded {} aaab codesV1 [])) 0x0C2 (fun t => decide (
      t.bits.cells = cellsFrom 0 [true, true, true, false] ∧ t.bitsLen = 4)) = true := by decide +kernel

/-- V35: MissingCode(2). -/
theorem test_encode_V35 :
    raises (exec .encode (coded {} [0x61, 0x61, 0x63, 0x62] codesV1 [])) 7 2 = true := by decide +kernel

/-- V1: SERIALIZE. -/
theorem test_serialize_V1 :
    completes (exec .serialize (coded {} [] codesV1 [true, true, true, false])) 0x1C2 (fun t => decide (
      t.outBuf.cells = cellsFrom 0 blobV1 ∧ t.outLen = 7 ∧ t.padLen = 7)) = true := by
  decide +kernel

/-- V36 (b): a blob longer than OUT_CAP. -/
theorem test_serialize_V36b :
    raises (exec .serialize (coded { outCap := 4 } [] codesV1 [true, true, true, false])) 8 0 = true := by
  decide +kernel

/-- V15: entries in another order. -/
theorem test_deserialize_V15 :
    completes (exec .deserialize (given {} [0xE0, 0x4C, 0x40, 0x26, 0x10, 0x1F, 0x00])) 0x0C2 (fun t => decide (
      tableGet t.code 0x62 = some [false] ∧ tableGet t.code 0x61 = some [true] ∧ t.symCount = 2 ∧ t.padLen = 7 ∧
      t.bits.cells = cellsFrom 0 [true, true, true, false])) = true := by decide +kernel

/-- V26, V29 and V27: a repeated symbol, a length field cut short, a length of 0. -/
theorem test_deserialize_malformed :
    raises (exec .deserialize (given {} [0xE0, 0x4C, 0x20, 0x36, 0x10, 0x17, 0x00])) 2 28 = true ∧
    raises (exec .deserialize (given {} [0xE0, 0x6C, 0x20, 0x36, 0x20, 0x17, 0x00])) 2 53 = true ∧
    raises (exec .deserialize (given {} [0x60, 0x2C, 0x20, 0x00])) 2 19 = true := by decide +kernel

/-- V18: a table that is not prefix-free; the shortest code wins. -/
theorem test_decode_V18 :
    completes (exec .decode (coded {} [] [(0x61, [true]), (0x62, [true, false]), (0x63, [false])] [true, false]))
      0x1C2 (fun t => decide (t.outBuf.cells = cellsFrom 0 [0x61, 0x63] ∧ t.outLen = 2)) = true := by
  decide +kernel

/-- V31: the payload ends inside a code. -/
theorem test_decode_V31 :
    raises (exec .decode (coded {} [] [(0x61, [false]), (0x62, [true, false]), (0x63, [true, true])] [false, true]))
      3 1 = true := by decide +kernel

/-- V4: COMPRESS of "ab". -/
theorem test_compress_V4 :
    completes (exec .compress (given {} [0x61, 0x62])) 0x1F2 (fun t => decide (
      t.outBuf.cells = cellsFrom 0 [0x20, 0x4C, 0x20, 0x26, 0x20, 0x1A] ∧ t.outLen = 6 ∧ t.padLen = 1 ∧
      t.bitsLen = 2 ∧ t.root = 2 ∧ t.nodeCount = 3 ∧ tableGet t.code 0x62 = some [true])) = true := by decide +kernel

/-- V20: COMPRESS of nothing. -/
theorem test_compress_V20 : raises (exec .compress State.reset) 1 0 = true := by decide +kernel

/-- V14 for V1. -/
theorem test_decompress_V14 :
    completes (exec .decompress (given {} blobV1)) 0x1C2 (fun t => decide (
      t.outBuf.cells = cellsFrom 0 aaab ∧ t.outLen = 4 ∧ t.bitsLen = 4 ∧ t.symCount = 2 ∧ t.padLen = 7 ∧
      t.root = 0)) = true := by decide +kernel

/-- V30: a payload no code matches; ERR_INFO is the payload index. -/
theorem test_decompress_V30 :
    raises (exec .decompress (given {} [0xE0, 0x4C, 0x20, 0x26, 0x20, 0x29, 0x80])) 3 1 = true := by decide +kernel

/-- V40, V38: NOP after reset, and ignored in ERROR. -/
theorem test_nop :
    ends (exec .nop State.reset) (fun t => decide (statusWord t = 0x002)) = true ∧
    ends (exec .nop failed) (fun t => decide (t.err = 2 ∧ t.errInfo = 28 ∧ statusWord t = 0x003)) = true := by
  decide +kernel

/-! ## The host port and primitives -/

/-- V41: ignored writes, and registers 0 and 11 read as 0. -/
theorem test_port_V41 :
    ends (step { coded {} [] codesV1 [] with outLen := 7, inputs := [.access (.writeReg 5 9)] })
      (fun t => decide (t.outLen = 7 ∧ statusWord t = 0x0C2)) = true ∧
    regRead (coded {} aaab codesV1 []) 0 = 0 ∧ regRead (coded {} aaab codesV1 []) 11 = 0 ∧
    regRead (coded {} aaab codesV1 []) 4 = 4 ∧ regRead (coded {} aaab codesV1 []) 1 = 0x0C2 := by decide +kernel

/-- V33: an illegal word is written to CMD. -/
theorem test_port_V33 :
    raises (step { counted {} [] with inputs := [.access (.writeReg 0 0x109)] }) 5 0x109 = true := by decide +kernel

/-- The host's way in (`withFetchWord`): the next step runs NOP. -/
theorem test_withFetchWord :
    ends (step (State.reset.withFetchWord 32 0x0B)) (fun t => decide (t.seq = .done ∧ t.inputs = [])) = true := by
  decide +kernel

/-- V45 to V48, and R8's examples. -/
theorem test_bitstream :
    bsPad [] = ([], 0) ∧ bsPad (bitsN 5 0b10110) = (bitsN 8 0b10110000, 3) ∧
    bsPad (bitsN 9 0b101010101) = (bitsN 16 0b1010101010000000, 7) ∧
    bsPut (bitsN 3 7) 8 2 = bitsN 11 0b11100000010 ∧
    bsGet (bitsN 11 0b11100000010) 3 8 = some (bitsN 8 2, 11) ∧ bsGet (bitsN 11 0b11100000010) 4 8 = none ∧
    bsToBytes (bitsN 16 0b1110000001001100) = [0xE0, 0x4C] ∧
    bsFromBytes [0x80] = [true, false, false, false, false, false, false, false] ∧
    bitsN 3 5 = [true, false, true] ∧ val (bitsN 8 2) = 2 := by decide +kernel

/-- V49 and V50: ties go to the lower index; COMBINE(1, 0). -/
theorem test_queue :
    extractMin (aaab.map fun b => leafNode b 2) [0, 1, 3] = some (0, [1, 3]) ∧
    extractMin [leafNode 0x61 3, leafNode 0x62 1] [0, 1] = some (1, [0]) ∧
    internalNode [leafNode 0x61 3, leafNode 0x62 1] 1 0 = ⟨.internal, 0, 4, 1, 0⟩ := by decide +kernel

/-- V51: MATCH on the table of V31. -/
theorem test_match :
    matchAt (tableOfEntries [(0x61, [false]), (0x62, [true, false]), (0x63, [true, true])]) [false, true] 0 =
      some (0x61, 1) ∧
    matchAt (tableOfEntries [(0x61, [false]), (0x62, [true, false]), (0x63, [true, true])]) [false, true] 1 =
      none := by decide +kernel

/-! ## Witnesses: concrete states and operands that meet each statement's hypotheses

Named after the statement of Certificates/Slice0/Obligations.lean they belong to. -/

/-- Bounds the default parameters give. -/
theorem default_bounds :
    0 < ({} : Params).inCap ∧ 2 ^ 32 - 2 < ({} : Params).inCap ∧ 2 ^ 32 - 1 < 2 ^ ({} : Params).lenW ∧
    0 < ({} : Params).outCap ∧ 1 ≤ ({} : Params).bitsCap ∧ 7 ≤ ({} : Params).inCap ∧ 7 < 2 ^ ({} : Params).lenW := by
  decide

theorem given_input (p : Params) (l : List Byte) : InputIs (given p l) l := ⟨rfl, (Store.holdsOnly_ofList _ _).holds⟩

theorem coded_input (p : Params) (l : List Byte) (es : List (Byte × Bits)) (b : Bits) : InputIs (coded p l es b) l :=
  ⟨rfl, (Store.holdsOnly_ofList _ _).holds⟩

theorem coded_payload (p : Params) (l : List Byte) (es : List (Byte × Bits)) (b : Bits) :
    PayloadIs (coded p l es b) b := ⟨rfl, (Store.holdsOnly_ofList _ _).holds⟩

theorem given_ready (p : Params) (l : List Byte) : Ready (given p l) := .inl rfl

theorem coded_ready (p : Params) (l : List Byte) (es : List (Byte × Bits)) (b : Bits) : Ready (coded p l es b) :=
  .inr rfl

theorem ends_next {o : Host.Outcome State Fault Refusal} {test : State → Bool} (h : ends o test = true) :
    ∃ t, o = .next t ∧ test t = true := by
  cases o with
  | next t => exact ⟨t, rfl, h⟩
  | fault _ => cases h
  | refused _ => cases h

theorem completes_next {o : Host.Outcome State Fault Refusal} {st : BitVec 9} {test : State → Bool}
    (h : completes o st test = true) : ∃ t, o = .next t ∧ t.seq = .done ∧ test t = true := by
  obtain ⟨t, ht, h⟩ := ends_next h
  simp only [Bool.and_eq_true, decide_eq_true_eq] at h
  exact ⟨t, ht, h.1, h.2.2⟩

theorem raises_next {o : Host.Outcome State Fault Refusal} {code : BitVec 4} {info : Nat}
    (h : raises o code info = true) : ∃ t, o = .next t ∧ t.seq = .error ∧ t.err = code := by
  obtain ⟨t, ht, h⟩ := ends_next h
  rw [decide_eq_true_eq] at h
  exact ⟨t, ht, h.1, h.2.1⟩

theorem holdsOnly_of_cells {α : Type} {m : Store α} {l : List α} (h : m.cells = cellsFrom 0 l) : m.HoldsOnly l := by
  obtain ⟨c, n⟩ := m
  subst h
  exact Store.holdsOnly_ofList l n

theorem codesV1_cover : AllCoded (tableOfEntries codesV1) aaab := by unfold AllCoded; decide +kernel

theorem payloadV1 : encodeBytes (tableOfEntries codesV1) aaab = bitsN 4 14 := by decide +kernel

/-! ### The command word, dispatch and the host port -/

theorem witness_HardwareResetLeavesTheResetValues :
    ∃ (s : State) (rest : List HostInput), s.inputs = .hardReset :: rest ∧ s.seq = .error ∧ s.err = 2 :=
  ⟨{ failed with inputs := [.hardReset] }, [], rfl, rfl, rfl⟩

theorem witness_ResetCommandRestoresTheResetValues :
    (coded {} blobV1 codesV1 [true]).seq ≠ .busy ∧ failed.seq ≠ .busy ∧ State.reset.seq ≠ .busy := by
  decide

theorem witness_StepRunsTheDecodedCommand :
    ∀ i : Instr, ∃ (s : State) (w : Word), s.inputs = [.access (.writeReg 0 w.toNat)] ∧ s.seq ≠ .busy ∧
      decode w = .ok i := by
  intro i
  refine ⟨{ State.reset with inputs := [.access (.writeReg 0 (encode i).toNat)] }, encode i, rfl, nofun, ?_⟩
  cases i <;> rfl

/-- Each clause of an illegal word, at the edges of the opcode map and of the field `zero`; and the least word that 16
bits of ERR_INFO (LEN_W = 8) do not hold. -/
theorem witness_IllegalWordRaisesIllegalCommand :
    (∀ w ∈ [0x00000000#32, 0x0000000C#32, 0x000000FF#32, 0x00000109#32, 0xFFFFFFFF#32],
      ∃ s : State, s.inputs = [.access (.writeReg 0 w.toNat)] ∧ Ready s ∧
        (w.extractLsb 31 8 ≠ 0 ∨ w.extractLsb 7 0 = 0 ∨ 0x0B < (w.extractLsb 7 0).toNat) ∧
        w.toNat < 2 ^ s.cfg.bitposW) ∧
    ∃ s : State, s.inputs = [.access (.writeReg 0 (0x00010000#32).toNat)] ∧ Ready s ∧ s.cfg.wf = true ∧
      (0x00010000#32).extractLsb 31 8 ≠ 0 ∧ ¬ (0x00010000#32).toNat < 2 ^ s.cfg.bitposW := by
  refine ⟨fun w hw => ⟨{ State.reset with inputs := [.access (.writeReg 0 w.toNat)] }, rfl, .inl rfl, ?_, ?_⟩,
    { State.resetWith { lenW := 8, inCap := 16, outCap := 16 } with
      inputs := [.access (.writeReg 0 (0x00010000#32).toNat)] }, rfl, .inl rfl, by decide, by decide, by decide⟩
  · simp only [List.mem_cons, List.not_mem_nil, or_false] at hw
    rcases hw with rfl | rfl | rfl | rfl | rfl <;> decide
  · show w.toNat < 2 ^ (32 + 8)
    have := w.isLt
    omega

/-- The accesses of the statement one by one, at IN's first and last byte and at IN_LEN's greatest value. -/
theorem witness_ErrorStateIgnoresAllButReset :
    failed.seq = .error ∧ Instr.nop ≠ .reset ∧
    (∀ a ∈ [HostAccess.writeReg 0 (0x00000002#32).toNat, .read .reg 1, .read .inBuf 0, .writeIn (2 ^ 32 - 2) 0x7A,
        .writeReg 4 (2 ^ 32 - 1)],
      ∃ s : State, s.seq = .error ∧ s.inputs = [.access a] ∧ 0 < s.cfg.inCap ∧ s.inBuf.get? 0 = some 0xE0 ∧
        2 ^ 32 - 2 < s.cfg.inCap ∧ 2 ^ 32 - 1 < 2 ^ s.cfg.lenW) ∧
    0x00000002#32 ≠ 0x00000001#32 :=
  ⟨rfl, nofun, fun a _ => ⟨{ failed with inputs := [.access a] }, rfl, rfl, default_bounds.1, rfl, default_bounds.2.1,
    default_bounds.2.2.1⟩, by decide⟩

theorem witness_NopOnlyMovesToDone : Ready State.reset ∧ Ready (coded {} blobV1 codesV1 [true]) := ⟨.inl rfl, .inr rfl⟩

theorem witness_BlockIdlesAndHoldsTheBusyPort :
    State.reset.inputs = [] ∧
    ∃ s : State, s.seq = .busy ∧ s.inputs = [.access (.read .reg 1)] :=
  ⟨rfl, { State.reset with seq := .busy, inputs := [.access (.read .reg 1)] }, rfl, rfl⟩

/-- A read of every register, and of number 11. -/
theorem witness_RegisterReadsByNumber :
    ∀ n, n < 12 → ∃ s : State, s.seq ≠ .busy ∧ s.inputs = [.access (.read .reg n)] :=
  fun n _ => ⟨{ State.reset with inputs := [.access (.read .reg n)] }, nofun, rfl⟩

/-- Reads of an element with a value of each space (NODE's last), and of the last entries of FREQ and CODE. -/
theorem witness_HostReadsReturnTheElement :
    ∀ x ∈ [(Space.inBuf, 0), (.outBuf, 0), (.node, 510), (.bits, 0), (.freq, 255), (.code, 255)],
      ∃ s : State, s.seq ≠ .busy ∧ s.inputs = [.access (.read x.1 x.2)] ∧
        (0 < s.cfg.inCap ∧ s.inBuf.get? 0 = some 0x61) ∧ (0 < s.cfg.outCap ∧ s.outBuf.get? 0 = some 0x62) ∧
        s.node.get? 510 = some (leafNode 0x61 1) ∧ 0 < s.cfg.bitsCap ∧ s.bits.get? 0 = some true :=
  fun x _ => ⟨{ coded {} aaab codesV1 [true] with
      outBuf := Store.ofList [0x62] 0
      node := (Store.empty 0).set 510 (leafNode 0x61 1)
      inputs := [.access (.read x.1 x.2)] }, nofun, rfl, ⟨default_bounds.1, rfl⟩,
    ⟨default_bounds.2.2.2.1, rfl⟩, rfl, default_bounds.2.2.2.2.1, rfl⟩

/-- The last byte of the buffer, and the first index past it. -/
theorem witness_HostWriteToInputBuffer :
    ∀ i ∈ [2 ^ 32 - 2, 2 ^ 32 - 1], ∃ s : State, s.seq ≠ .busy ∧ s.inputs = [.access (.writeIn i 0x7A)] ∧
      (i = 2 ^ 32 - 2 → i < s.cfg.inCap) ∧ (i = 2 ^ 32 - 1 → s.cfg.inCap ≤ i) :=
  fun i _ => ⟨{ State.reset with inputs := [.access (.writeIn i 0x7A)] }, nofun, rfl,
    fun h => by subst h; decide, fun h => by subst h; decide⟩

theorem witness_OtherHostWritesStoreInLenOrNothing :
    2 ^ 32 - 1 < 2 ^ State.reset.cfg.lenW ∧
    ∀ a ∈ [HostAccess.writeReg 4 (2 ^ 32 - 1), .writeReg 5 9, .writeReg 11 9, .writeOut 0 1, .writeFreq 0 1,
        .writeNode 0 (leafNode 0 1), .writeCode 0 none, .writeBits 0 true],
      ∃ s : State, s.seq ≠ .busy ∧ s.inputs = [.access a] :=
  ⟨by decide, fun a _ => ⟨{ State.reset with inputs := [.access a] }, nofun, rfl⟩⟩

/-! ### Flags, aborts, homes -/

/-- A tree of "aaab", as BUILD makes it. -/
def built (p : Params) (input : List Byte) : State :=
  { counted p input with
    flags := { Flags.clear with freqValid := true, treeValid := true }
    node := Store.ofList (buildForest (freqOf input)).nodes 0
    nodeCount := BitVec.ofNat 10 (buildForest (freqOf input)).nodes.length
    root := BitVec.ofNat 9 ((buildForest (freqOf input)).pq.headD 0)
    pq := (buildForest (freqOf input)).pq }

/-- Every command but RESET completes somewhere: the tests above. -/
theorem each_command_completes (i : Instr) (hi : i ≠ .reset) :
    ∃ s t : State, Ready s ∧ exec i s = .next t ∧ t.seq = .done := by
  have key : ∀ {s : State} {st test}, Ready s → completes (exec i s) st test = true →
      ∃ s t : State, Ready s ∧ exec i s = .next t ∧ t.seq = .done := fun hr h =>
    let ⟨t, h1, h2, _⟩ := completes_next h
    ⟨_, t, hr, h1, h2⟩
  cases i with
  | reset => exact absurd rfl hi
  | count => exact key (.inl rfl) test_count_V1
  | build => exact key (.inr rfl) test_build_V6
  | assign => exact key (.inl rfl) test_assign_V5
  | encode => exact key (.inr rfl) test_encode_V1
  | serialize => exact key (.inr rfl) test_serialize_V1
  | deserialize => exact key (.inl rfl) test_deserialize_V15
  | decode => exact key (.inr rfl) test_decode_V18
  | compress => exact key (.inl rfl) test_compress_V4
  | decompress => exact key (.inl rfl) test_decompress_V14
  | nop => exact ⟨State.reset, _, .inl rfl, rfl, rfl⟩

theorem ready_not_error {s : State} (h : Ready s) : s.seq ≠ .error := by rcases h with h | h <;> rw [h] <;> nofun

/-- Each command completing; a command aborting; both host writes. -/
theorem witness_FlagTableOfAllCommands :
    (∀ i : Instr, ∃ s t : State, exec i s = .next t ∧ s.seq ≠ .error ∧ t.seq ≠ .error) ∧
    (∃ s t : State, exec .build s = .next t ∧ s.seq ≠ .error ∧ t.seq = .error) ∧
    ∀ a ∈ [HostAccess.writeIn 0 1, .writeReg 4 9],
      ∃ s t : State, s.inputs = [.access a] ∧ step s = .next t ∧ s.flags.codeValid = true := by
  refine ⟨fun i => ?_, ?_, fun a ha => ?_⟩
  · by_cases hi : i = .reset
    · subst hi; exact ⟨State.reset, _, rfl, nofun, nofun⟩
    · obtain ⟨s, t, hr, h, hd⟩ := each_command_completes i hi
      exact ⟨s, t, h, ready_not_error hr, by rw [hd]; nofun⟩
  · obtain ⟨t, h, he, -⟩ := raises_next test_build_V34
    exact ⟨_, t, h, nofun, he⟩
  · refine ⟨{ coded {} aaab codesV1 [] with inputs := [.access a] }, _, rfl, step_write rfl nofun ?_ ?_ ?_, rfl⟩
    all_goals revert a; simp [HostAccess.fits, coded, given, State.resetWith]

/-- An abort of a staged command, of a whole call and with ERR 1, 3 and 8. -/
theorem witness_EveryAbortLeavesTheErrorState :
    ∀ x ∈ [(Instr.compress, (1 : BitVec 4)), (.decode, 3), (.serialize, 8), (.build, 6), (.encode, 7)],
      ∃ s t : State, Ready s ∧ exec x.1 s = .next t ∧ t.seq = .error ∧ t.err = x.2 := by
  have key : ∀ {i : Instr} {s : State} {c n}, Ready s → raises (exec i s) c n = true →
      ∃ s t : State, Ready s ∧ exec i s = .next t ∧ t.seq = .error ∧ t.err = c := fun hr h =>
    let ⟨t, h1, h2, h3⟩ := raises_next h
    ⟨_, t, hr, h1, h2, h3⟩
  intro x hx
  simp only [List.mem_cons, List.not_mem_nil, or_false] at hx
  rcases hx with rfl | rfl | rfl | rfl | rfl
  · exact key (.inl rfl) test_compress_V20
  · exact key (.inr rfl) test_decode_V31
  · exact key (.inr rfl) test_serialize_V36b
  · exact key (.inl rfl) test_build_V34
  · exact key (.inr rfl) test_encode_V35

/-- No flag; each of the two flags SERIALIZE and DECODE need missing alone; a run that ends with ERR 6. -/
theorem witness_BadSequenceExactlyInStagedCommands :
    (Ready State.reset ∧ State.reset.flags = Flags.clear) ∧
    (∃ s : State, Ready s ∧ s.flags.codeValid = true ∧ s.flags.bitsValid = false) ∧
    (∃ s : State, Ready s ∧ s.flags.codeValid = false ∧ s.flags.bitsValid = true) ∧
    ∃ t, exec .build State.reset = .next t ∧ t.seq = .error ∧ t.err = 6 :=
  ⟨⟨.inl rfl, rfl⟩, ⟨{ State.reset with flags := { Flags.clear with codeValid := true } }, .inl rfl, rfl, rfl⟩,
    ⟨{ State.reset with flags := { Flags.clear with bitsValid := true } }, .inl rfl, rfl, rfl⟩,
    raises_next test_build_V34⟩

/-- IN_LEN one above IN_CAP. -/
theorem witness_InputLongerThanBufferOverflows :
    ∃ s : State, Ready s ∧ s.inLen = s.cfg.inCap + 1 ∧ s.cfg.inCap < s.inLen ∧ s.flags.codeValid = true ∧
      s.cfg.wf = true ∧ s.inLen < 2 ^ s.cfg.lenW :=
  ⟨{ coded { lenW := 8, inCap := 16, outCap := 16 } [] codesV1 [] with inLen := 17 }, .inr rfl, rfl, by decide, rfl,
    by decide, by decide⟩

/-- The last byte of the input was not written: for the commands that read all of it first, and for ENCODE with BITS_CAP
exactly the payload of the bytes before. -/
theorem witness_UnwrittenInputByteFaults :
    (∃ s : State, Ready s ∧ s.inLen ≤ s.cfg.inCap ∧ 4 < s.inLen ∧ s.inBuf.get? 4 = none ∧
      ∀ j, j < 4 → (s.inBuf.get? j).isSome = true) ∧
    ∃ (s : State) (before : List Byte), Ready s ∧ s.flags.codeValid = true ∧ s.inLen ≤ s.cfg.inCap ∧
      before.length < s.inLen ∧ s.inBuf.Holds before ∧ s.inBuf.get? before.length = none ∧
      AllCoded s.code before ∧ (encodeBytes s.code before).length ≤ s.cfg.bitsCap ∧ before ≠ [] := by
  refine ⟨⟨{ given {} aaab with inLen := 5 }, .inl rfl, by decide, by decide, by decide, by decide⟩,
    { coded { bitsCap := 4 } aaab codesV1 [] with inLen := 5 }, aaab, .inr rfl, rfl, by decide, by decide,
    (coded_input { bitsCap := 4 } aaab codesV1 []).2, by decide, codesV1_cover, ?_, by decide⟩
  rw [show encodeBytes ({ coded { bitsCap := 4 } aaab codesV1 [] with inLen := 5 } : State).code aaab = bitsN 4 14 from
    payloadV1]
  decide

theorem witness_CommandsWriteOnlyTheirHomes :
    ∀ i : Instr, i ≠ .reset → ∃ s t : State, Ready s ∧ exec i s = .next t ∧ t.seq = .done :=
  each_command_completes

/-! ### COUNT, BUILD, ASSIGN -/

/-- An input, and the longest input: IN_LEN = IN_CAP. -/
theorem witness_CountTabulatesTheInput :
    (Ready (given {} aaab) ∧ InputIs (given {} aaab) aaab ∧ (given {} aaab).inLen ≤ (given {} aaab).cfg.inCap) ∧
    InputIs (given { inCap := 4 } aaab) aaab ∧ (given { inCap := 4 } aaab).inLen = 4 :=
  ⟨⟨.inl rfl, given_input _ _, by decide⟩, given_input _ _, rfl⟩

theorem witness_EmptyInputIsBuildsError : Ready State.reset ∧ State.reset.inLen = 0 := ⟨.inl rfl, rfl⟩

/-- "aaab" has two symbols. -/
theorem distinct_aaab : distinctSymbols (freqOf aaab) = 2 := by rw [distinctSymbols_freqOf]; decide

/-- BUILD's first internal node is node 2, and node 0 is a leaf (V1). -/
theorem nodes_aaab :
    (buildForest (freqOf aaab)).nodes = [leafNode 0x61 3, leafNode 0x62 1, ⟨.internal, 0, 4, 1, 0⟩] := by
  decide +kernel

theorem witness_BuildWritesLeavesThenInternalNodes :
    (Ready (counted {} aaab) ∧ (counted {} aaab).flags.freqValid = true ∧
      0 < distinctSymbols (counted {} aaab).freq) ∧
    ∃ e : NodeEntry, distinctSymbols (counted {} aaab).freq ≤ 2 ∧ (buildForest (freqOf aaab)).nodes[2]? = some e :=
  ⟨⟨.inr rfl, rfl, by show 0 < distinctSymbols (freqOf aaab); rw [distinct_aaab]; decide⟩,
    ⟨.internal, 0, 4, 1, 0⟩, distinct_aaab.le, by rw [nodes_aaab]; rfl⟩

/-- A run of BUILD whose NODE list has a leaf and an internal node. -/
theorem build_aaab : ∃ t : State, exec .build (counted {} aaab) = .next t ∧ t.seq = .done ∧
    t.node.HoldsOnly [leafNode 0x61 3, leafNode 0x62 1, ⟨.internal, 0, 4, 1, 0⟩] ∧ t.root = 2 := by
  have hd : 0 < distinctSymbols (freqOf aaab) := by rw [distinct_aaab]; decide
  refine ⟨_, exec_of_ok (i := .build) nofun (.inr rfl) (buildBody_eq (s := { counted {} aaab with seq := .busy }) rfl hd), rfl,
    ?_, ?_⟩
  · rw [← nodes_aaab]; exact Store.holdsOnly_ofList _ _
  · exact BitVec.eq_of_toNat_eq ((buildForest_registers hd).2.trans (by rw [distinct_aaab]; rfl))

theorem witness_BuildMakesAStrictWeightedTree :
    ∃ (s t : State) (nodes : List NodeEntry) (e f : NodeEntry), Ready s ∧ s.flags.freqValid = true ∧
      exec .build s = .next t ∧ t.seq = .done ∧ t.node.HoldsOnly nodes ∧ nodes[2]? = some e ∧ e.kind = .internal ∧
      nodes[0]? = some f ∧ f.kind = .leaf ∧ 1 < t.root.toNat := by
  obtain ⟨t, h, hd, hn, hr⟩ := build_aaab
  exact ⟨_, t, _, _, _, .inr rfl, rfl, h, hd, hn, rfl, rfl, rfl, rfl, by rw [hr]; decide⟩

/-- The first combination takes nodes 1 and 0, not yet children; in V6 others are left (test_build_V6). -/
theorem witness_BuildCombinesTheTwoLeastNodes :
    ∃ (s t : State) (nodes : List NodeEntry) (e : NodeEntry), Ready s ∧ s.flags.freqValid = true ∧
      exec .build s = .next t ∧ t.seq = .done ∧ t.node.HoldsOnly nodes ∧ nodes[2]? = some e ∧ e.kind = .internal ∧
      e.left = 1 ∧ e.right = 0 ∧ 0 ≠ e.left.toNat ∧ ∀ p, p < 2 → ¬ IsChild nodes p 0 := by
  obtain ⟨t, h, hd, hn, -⟩ := build_aaab
  refine ⟨_, t, _, _, .inr rfl, rfl, h, hd, hn, rfl, rfl, rfl, rfl, by decide, ?_⟩
  rintro p hp ⟨e, he, hk, -⟩
  match p, hp with
  | 0, _ => cases he; cases hk
  | 1, _ => cases he; cases hk

theorem built_isBuilt (p : Params) {input : List Byte} (h : 0 < distinctSymbols (freqOf input)) :
    TreeIsBuilt (built p input) :=
  treeIsBuilt_of (freq := freqOf input) (d := 0) h rfl rfl rfl rfl rfl

theorem witness_AssignCodesAreRootToLeafPaths :
    Ready (built {} aaab) ∧ (built {} aaab).flags.treeValid = true ∧ TreeIsBuilt (built {} aaab) ∧
    1 < distinctSymbols (built {} aaab).freq :=
  ⟨.inr rfl, rfl, built_isBuilt {} (by rw [distinct_aaab]; decide),
    by show 1 < distinctSymbols (freqOf aaab); rw [distinct_aaab]; decide⟩

theorem witness_SingleLeafGetsTheCodeZero :
    ∃ (s : State) (e : NodeEntry), Ready s ∧ s.flags.treeValid = true ∧ s.node.get? s.root.toNat = some e ∧
      e.kind = .leaf :=
  ⟨planted [] [⟨.leaf, 0x61, 1, 0, 0⟩], ⟨.leaf, 0x61, 1, 0, 0⟩, .inl rfl, rfl, rfl, rfl⟩

theorem witness_BuildThenAssignIsPrefixFree :
    Ready (counted {} aaab) ∧ (counted {} aaab).flags.freqValid = true ∧
    0 < distinctSymbols (counted {} aaab).freq :=
  witness_BuildWritesLeavesThenInternalNodes.1

/-! ### ENCODE, SERIALIZE, DESERIALIZE, DECODE -/

theorem codesV1_ok : EntriesOk codesV1 := ⟨by decide, by decide⟩

/-- The payload fits BITS_CAP exactly. -/
theorem witness_EncodeConcatenatesTheCodes :
    ∃ (s : State) (input : List Byte), Ready s ∧ s.flags.codeValid = true ∧ InputIs s input ∧ s.inLen ≤ s.cfg.inCap ∧
      AllCoded s.code input ∧ (encodeBytes s.code input).length ≤ s.cfg.bitsCap :=
  ⟨coded { bitsCap := 4 } aaab codesV1 [], aaab, .inr rfl, rfl, coded_input _ _ _ _, by decide, codesV1_cover,
    (congrArg List.length payloadV1).le⟩

/-- V35. -/
theorem witness_EncodeReportsTheFirstMissingCode :
    ∃ (s : State) (before after : List Byte) (b : Byte), Ready s ∧ s.flags.codeValid = true ∧
      InputIs s (before ++ b :: after) ∧ s.inLen ≤ s.cfg.inCap ∧ s.inLen < 2 ^ s.cfg.lenW ∧ AllCoded s.code before ∧
      (encodeBytes s.code before).length ≤ s.cfg.bitsCap ∧ tableGet s.code b = none :=
  ⟨coded {} [0x61, 0x61, 0x63, 0x62] codesV1 [], [0x61, 0x61], [0x62], 0x63, .inr rfl, rfl, coded_input _ _ _ _,
    by decide, by decide, by unfold AllCoded; decide +kernel, by decide +kernel, by decide +kernel⟩

/-- V36 (c). -/
theorem witness_EncodeOverflowsAtTheFirstByteTooMany :
    ∃ (s : State) (before after : List Byte) (b : Byte), Ready s ∧ s.flags.codeValid = true ∧
      InputIs s (before ++ b :: after) ∧ s.inLen ≤ s.cfg.inCap ∧ s.inLen < 2 ^ s.cfg.lenW ∧
      AllCoded s.code (before ++ [b]) ∧ (encodeBytes s.code before).length ≤ s.cfg.bitsCap ∧
      s.cfg.bitsCap < (encodeBytes s.code (before ++ [b])).length :=
  ⟨coded { bitsCap := 3 } aaab codesV1 [], [0x61, 0x61, 0x61], [], 0x62, .inr rfl, rfl, coded_input _ _ _ _,
    by decide, by decide, by unfold AllCoded; decide +kernel, by decide +kernel, by decide +kernel⟩

theorem blobV1_bytes : (blobBits (tableOfEntries codesV1) (bitsN 4 14)).length / 8 = 7 := by decide +kernel

/-- V1's blob of 7 bytes, against OUT_CAP 7 and 6. -/
theorem witness_SerializeWritesTheBlobExpression :
    ∃ (s : State) (p : Bits), Ready s ∧ s.flags.codeValid = true ∧ s.flags.bitsValid = true ∧ PayloadIs s p ∧
      (blobBits s.code p).length / 8 ≤ s.cfg.outCap := by
  refine ⟨coded { outCap := 7 } [] codesV1 (bitsN 4 14), bitsN 4 14, .inr rfl, rfl, rfl, coded_payload _ _ _ _, ?_⟩
  rw [show (coded { outCap := 7 } [] codesV1 (bitsN 4 14)).code = tableOfEntries codesV1 from rfl, blobV1_bytes]
  exact Nat.le_refl 7

theorem witness_SerializeOverflowsOutCap :
    ∃ (s : State) (p : Bits), Ready s ∧ s.flags.codeValid = true ∧ s.flags.bitsValid = true ∧ PayloadIs s p ∧
      s.cfg.outCap < (blobBits s.code p).length / 8 := by
  refine ⟨coded { outCap := 6 } [] codesV1 (bitsN 4 14), bitsN 4 14, .inr rfl, rfl, rfl, coded_payload _ _ _ _, ?_⟩
  rw [show (coded { outCap := 6 } [] codesV1 (bitsN 4 14)).code = tableOfEntries codesV1 from rfl, blobV1_bytes]
  exact Nat.lt_succ_self 6

/-- 256 entries, every code "0", with the count field 0. -/
def entries256 : List (Byte × Bits) := allSymbols.map fun b => (b, [false])

/-- The hypotheses of the statement about what DESERIALIZE reads. -/
def ReadsFields (s : State) (input : List Byte) (es : List (Byte × Bits)) (p padBits : Bits) : Prop :=
  Ready s ∧ InputIs s input ∧ s.inLen ≤ s.cfg.inCap ∧ EntriesOk es ∧ 1 ≤ es.length ∧ padBits.length ≤ 7 ∧
    bsFromBytes input = headerBits padBits.length (es.length % 256) es ++ p ++ padBits ∧ p.length ≤ s.cfg.bitsCap

/-- V1's blob with BITS_CAP 4, and a blob of 256 entries, a payload of one bit and a pad of 4. -/
theorem witness_DeserializeReadsTheFields :
    (∃ s input es p padBits, ReadsFields s input es p padBits ∧ padBits.length = 7 ∧ p.length = s.cfg.bitsCap) ∧
    ∃ s input es p padBits, ReadsFields s input es p padBits ∧ es.length = 256 ∧ padBits.length = 4 := by
  refine ⟨⟨given { bitsCap := 4 } blobV1, blobV1, codesV1, bitsN 4 14, zeros 7, ⟨.inl rfl, given_input _ _, by decide,
    codesV1_ok, by decide, by decide, by decide +kernel, by decide⟩, rfl, rfl⟩, ?_⟩
  have h256 : EntriesOk entries256 :=
    ⟨by unfold entries256; rw [List.map_map]; exact allSymbols_nodup.map fun _ _ h => h,
      fun e he => by obtain ⟨b, -, rfl⟩ := List.mem_map.mp he; rfl⟩
  have hl : entries256.length = 256 := by decide +kernel
  have hb : (headerBits 4 0 entries256 ++ [true] ++ zeros 4).length = 4368 := by decide +kernel
  generalize hx : headerBits 4 0 entries256 ++ [true] ++ zeros 4 = x at hb
  have hm : x.length % 8 = 0 := by rw [hb]
  refine ⟨given {} (bsToBytes x), bsToBytes x, entries256, [true], zeros 4, ⟨.inl rfl, given_input _ _, ?_, h256,
    by rw [hl]; decide, by decide, ?_, default_bounds.2.2.2.2.1⟩, hl, rfl⟩
  · show (bsToBytes x).length ≤ 2 ^ 32 - 1
    rw [bsToBytes_length hm, hb]; decide
  · rw [bsFromBytes_bsToBytes hm, hl]; exact hx.symm

/-- V24, and a blob of two bytes with the count field 0: too few bits; V26: a repeated symbol; V29: a length field cut
short; V27: a length of 0; a length of 6 with 5 bits left; V28: a pad that is too long. -/
theorem witness_DeserializeRejectsMalformedBlobs :
    (bsFromBytes [0xE0, 0x4C, 0x20, 0x36] = headerBits 7 2 [(0x61, [true])] ++ bitsN 4 6 ∧
      [((0x61 : Byte), [true])].length < (if 2 = 0 then 256 else 2) ∧ (bitsN 4 6).length < 8) ∧
    (bsFromBytes [0xE0, 0x00] = headerBits 7 0 [] ++ zeros 5 ∧
      ([] : List (Byte × Bits)).length < (if 0 = 0 then 256 else 0) ∧ (zeros 5).length < 8) ∧
    (bsFromBytes [0xE0, 0x4C, 0x20, 0x36, 0x10, 0x17, 0x00] =
        headerBits 7 2 [(0x61, [true])] ++ (bitsN 8 (0x61 : Byte).toNat ++ bitsN 20 0b00000001011100000000) ∧
      [((0x61 : Byte), [true])].length < (if 2 = 0 then 256 else 2) ∧
      (0x61 : Byte) ∈ [((0x61 : Byte), [true])].map (·.1)) ∧
    (bsFromBytes [0xE0, 0x6C, 0x20, 0x36, 0x20, 0x17, 0x00] =
        headerBits 7 3 codesV1 ++ (bitsN 8 (0xE0 : Byte).toNat ++ zeros 3) ∧
      codesV1.length < (if 3 = 0 then 256 else 3) ∧ (0xE0 : Byte) ∉ codesV1.map (·.1) ∧ (zeros 3).length < 8) ∧
    (bsFromBytes [0xE0, 0x2C, 0x20, 0xC0] =
        headerBits 7 1 [] ++ (bitsN 8 (0x61 : Byte).toNat ++ bitsN 8 6 ++ zeros 5) ∧
      ([] : List (Byte × Bits)).length < (if 1 = 0 then 256 else 1) ∧
      (0x61 : Byte) ∉ ([] : List (Byte × Bits)).map (·.1) ∧ (zeros 5).length < 6) ∧
    (bsFromBytes [0x60, 0x2C, 0x20, 0x00] =
        headerBits 3 1 [] ++ (bitsN 8 (0x61 : Byte).toNat ++ bitsN 8 0 ++ zeros 5) ∧
      ([] : List (Byte × Bits)).length < (if 1 = 0 then 256 else 1) ∧
      (0x61 : Byte) ∉ ([] : List (Byte × Bits)).map (·.1)) ∧
    (bsFromBytes [0xE0, 0x2C, 0x20, 0x20] = headerBits 7 1 [(0x61, [false])] ++ zeros 4 ∧
      [((0x61 : Byte), [false])].length = (if 1 = 0 then 256 else 1) ∧ (zeros 4).length < 7) ∧
    (EntriesOk [(0x61, [true])] ∧ EntriesOk [(0x61, [false])] ∧ EntriesOk [] ∧ EntriesOk codesV1) ∧
    ∀ l ∈ [[(0xE0 : Byte), 0x4C, 0x20, 0x36], [0xE0, 0x00], [0xE0, 0x4C, 0x20, 0x36, 0x10, 0x17, 0x00],
        [0xE0, 0x6C, 0x20, 0x36, 0x20, 0x17, 0x00], [0xE0, 0x2C, 0x20, 0xC0], [0x60, 0x2C, 0x20, 0x00],
        [0xE0, 0x2C, 0x20, 0x20]],
      Ready (given {} l) ∧ InputIs (given {} l) l ∧ (given {} l).inLen ≤ (given {} l).cfg.inCap ∧
        (given {} l).inLen < 2 ^ (given {} l).cfg.lenW := by
  refine ⟨by decide +kernel, by decide +kernel, by decide +kernel, by decide +kernel, by decide +kernel,
    by decide +kernel, by decide +kernel,
    ⟨⟨by decide, by decide⟩, ⟨by decide, by decide⟩, ⟨by decide, by decide⟩, codesV1_ok⟩, fun l hl => ⟨.inl rfl, given_input _ _, ?_⟩⟩
  have h7 : l.length ≤ 7 := by revert l; decide
  exact ⟨h7.trans default_bounds.2.2.2.2.2.1, lt_of_le_of_lt h7 default_bounds.2.2.2.2.2.2⟩

/-- V36 (e). -/
theorem witness_DeserializeOverflowsBitsCap :
    ∃ (s : State) (input : List Byte) (es : List (Byte × Bits)) (p padBits : Bits), Ready s ∧ InputIs s input ∧
      s.inLen ≤ s.cfg.inCap ∧ s.inLen < 2 ^ s.cfg.lenW ∧ EntriesOk es ∧ 1 ≤ es.length ∧ padBits.length ≤ 7 ∧
      bsFromBytes input = headerBits padBits.length (es.length % 256) es ++ p ++ padBits ∧ s.cfg.bitsCap < p.length :=
  ⟨given { bitsCap := 3 } blobV1, blobV1, codesV1, bitsN 4 14, zeros 7, .inl rfl, given_input _ _, by decide,
    by decide, codesV1_ok, by decide, by decide, by decide +kernel, by decide⟩

theorem witness_DeserializeRejectsTinyBlobs :
    ∀ l ∈ [([] : List Byte), [0xE0]], Ready (given {} l) ∧ InputIs (given {} l) l ∧
      (given {} l).inLen ≤ (given {} l).cfg.inCap ∧ (l.length = 0 ∨ l.length = 1) := by
  intro l hl
  refine ⟨.inl rfl, given_input _ _, ?_, ?_⟩ <;> revert l <;> decide

theorem codesV1_entries : 1 ≤ entryCount (tableOfEntries codesV1) := by
  unfold entryCount
  exact List.length_pos_of_mem (a := 0x61) (List.mem_filter.mpr ⟨mem_allSymbols _, by decide +kernel⟩)

theorem witness_DeserializeInvertsSerialize :
    ∃ (s t u : State) (p : Bits) (out : List Byte), Ready s ∧ PayloadIs s p ∧ CodesInRange s.code ∧
      1 ≤ entryCount s.code ∧ exec .serialize s = .next t ∧ t.seq = .done ∧ OutputIs t out ∧ Ready u ∧
      InputIs u out ∧ out.length ≤ u.cfg.inCap ∧ p.length ≤ u.cfg.bitsCap := by
  obtain ⟨t, h, hd, hc⟩ := completes_next test_serialize_V1
  obtain ⟨hc, hl, -⟩ := of_decide_eq_true hc
  exact ⟨_, t, given {} blobV1, _, blobV1, .inr rfl, coded_payload _ _ _ _, codesInRange_tableOfEntries codesV1_ok,
    codesV1_entries, h, hd, ⟨hl, (holdsOnly_of_cells hc).holds⟩, .inl rfl, given_input _ _, by decide, by decide⟩

/-- V18's entries. -/
def codesV18 : List (Byte × Bits) := [(0x61, [true]), (0x62, [true, false]), (0x63, [false])]

/-- V31's entries. -/
def codesV31 : List (Byte × Bits) := [(0x61, [false]), (0x62, [true, false]), (0x63, [true, true])]

theorem codesV18_ok : EntriesOk codesV18 := ⟨by decide, by decide⟩

theorem codesV31_ok : EntriesOk codesV31 := ⟨by decide, by decide⟩

/-- Entries none of which begins another give a prefix-free table. -/
theorem prefixFree_tableOfEntries {es : List (Byte × Bits)} (h : EntriesOk es)
    (hp : ∀ e ∈ es, ∀ f ∈ es, e.1 ≠ f.1 → e.2.isPrefixOf f.2 = false) : PrefixFree (tableOfEntries es) := by
  intro a b ca cb hab ha hb hpre
  have := hp _ ((tableGet_tableOfEntries h.1).mp ha) _ ((tableGet_tableOfEntries h.1).mp hb) hab
  rw [List.isPrefixOf_iff_prefix.mpr hpre] at this
  cases this

/-- At the payload's start, before its last bit, and at its end. -/
theorem witness_MatchTakesShortestThenLowest :
    CodesInRange (tableOfEntries codesV18) ∧ ∀ cur ∈ [0, 1, 2], cur ≤ [true, false].length :=
  ⟨codesInRange_tableOfEntries codesV18_ok, by decide⟩

/-- V18, with OUT_CAP exactly the two bytes. -/
theorem witness_DecodeFollowsTheMatches :
    ∃ (s : State) (p : Bits) (out : List Byte), Ready s ∧ s.flags.codeValid = true ∧ s.flags.bitsValid = true ∧
      CodesInRange s.code ∧ PayloadIs s p ∧ MatchesTo s.code p 0 out ∧ out.length ≤ s.cfg.outCap ∧ out ≠ [] :=
  ⟨coded { outCap := 2 } [] codesV18 [true, false], [true, false], [0x61, 0x63], .inr rfl, rfl, rfl,
    codesInRange_tableOfEntries codesV18_ok, coded_payload _ _ _ _, ⟨1, by decide +kernel, 1, by decide +kernel, rfl⟩,
    by decide, by decide⟩

/-- V1's payload, with OUT_CAP exactly the input's length. -/
theorem witness_DecodeInvertsEncode :
    ∃ (s : State) (input : List Byte), Ready s ∧ s.flags.codeValid = true ∧ s.flags.bitsValid = true ∧
      CodesInRange s.code ∧ PrefixFree s.code ∧ AllCoded s.code input ∧ PayloadIs s (encodeBytes s.code input) ∧
      input.length ≤ s.cfg.outCap ∧ input ≠ [] :=
  ⟨coded { outCap := 4 } [] codesV1 (encodeBytes (tableOfEntries codesV1) aaab), aaab, .inr rfl, rfl, rfl,
    codesInRange_tableOfEntries codesV1_ok, prefixFree_tableOfEntries codesV1_ok (by decide), codesV1_cover,
    coded_payload _ _ _ _, by decide, by decide⟩

/-- Codes one of which begins the other: after "0", taken for 0x61, no code begins with "1". -/
def codesNested : List (Byte × Bits) := [(0x61, [false]), (0x62, [false, true])]

theorem codesNested_ok : EntriesOk codesNested := ⟨by decide, by decide⟩

/-- A table that is not prefix-free, with OUT_CAP the one byte; V31: "1", at the payload's end, begins with no code (and a
code that would go past the end begins with it). -/
theorem witness_DecodeRejectsWhatNoCodeMatches :
    (∃ (s : State) (p : Bits) (out : List Byte) (cur : Nat), Ready s ∧ s.flags.codeValid = true ∧
      s.flags.bitsValid = true ∧ s.bitsLen < 2 ^ s.cfg.bitposW ∧ CodesInRange s.code ∧ ¬ PrefixFree s.code ∧
      PayloadIs s p ∧ MatchRun s.code p 0 out cur ∧ cur < p.length ∧
      (∀ b c, tableGet s.code b = some c → ¬ c <+: p.drop cur) ∧ out.length ≤ s.cfg.outCap ∧ out ≠ []) ∧
    ∃ (s : State) (input : List Byte) (rest : Bits), Ready s ∧ s.flags.codeValid = true ∧ s.flags.bitsValid = true ∧
      s.bitsLen < 2 ^ s.cfg.bitposW ∧ CodesInRange s.code ∧ PrefixFree s.code ∧ AllCoded s.code input ∧
      PayloadIs s (encodeBytes s.code input ++ rest) ∧ rest ≠ [] ∧
      (∀ b c, tableGet s.code b = some c → ¬ c <+: rest) ∧ input.length ≤ s.cfg.outCap ∧ input ≠ [] := by
  refine ⟨⟨coded { outCap := 1 } [] codesNested [false, true], [false, true], [0x61], 1, .inr rfl, rfl, rfl, by decide,
    codesInRange_tableOfEntries codesNested_ok, fun h => h 0x61 0x62 [false] [false, true] (by decide)
      ((tableGet_tableOfEntries codesNested_ok.1).mpr (by decide))
      ((tableGet_tableOfEntries codesNested_ok.1).mpr (by decide)) (by decide),
    coded_payload _ _ _ _, ⟨1, by decide +kernel, rfl⟩, by decide, fun b c h => ?_, by decide, by decide⟩, ?_⟩
  · have := (tableGet_tableOfEntries codesNested_ok.1).mp h
    revert this; simp only [codesNested, List.mem_cons, Prod.mk.injEq, List.not_mem_nil, or_false]
    rintro (⟨-, rfl⟩ | ⟨-, rfl⟩) <;> decide
  refine ⟨coded {} [] codesV31 [false, true], [0x61], [true], .inr rfl, rfl, rfl, by decide,
    codesInRange_tableOfEntries codesV31_ok, prefixFree_tableOfEntries codesV31_ok (by decide),
    by unfold AllCoded; decide +kernel, ?_, by decide, fun b c h => ?_, by decide, by decide⟩
  · rw [show encodeBytes (coded {} [] codesV31 [false, true]).code [0x61] = [false] by decide +kernel]
    exact coded_payload _ _ _ _
  · have := (tableGet_tableOfEntries codesV31_ok.1).mp h
    revert this; simp only [codesV31, List.mem_cons, Prod.mk.injEq, List.not_mem_nil, or_false]
    rintro (⟨-, rfl⟩ | ⟨-, rfl⟩ | ⟨-, rfl⟩) <;> decide

/-- V18, whose table is not prefix-free, with OUT_CAP 1; V36 (d). -/
theorem witness_DecodeOverflowsOutCap :
    (∃ (s : State) (p : Bits) (out : List Byte) (cur : Nat) (b : Byte) (n : Nat), Ready s ∧ s.flags.codeValid = true ∧
      s.flags.bitsValid = true ∧ s.bitsLen < 2 ^ s.cfg.bitposW ∧ CodesInRange s.code ∧ PayloadIs s p ∧
      MatchRun s.code p 0 out cur ∧ matchAt s.code p cur = some (b, n) ∧ out.length = s.cfg.outCap) ∧
    ∃ (s : State) (input : List Byte) (b : Byte) (rest : Bits), Ready s ∧ s.flags.codeValid = true ∧
      s.flags.bitsValid = true ∧ s.bitsLen < 2 ^ s.cfg.bitposW ∧ CodesInRange s.code ∧ PrefixFree s.code ∧
      AllCoded s.code (input ++ [b]) ∧ PayloadIs s (encodeBytes s.code (input ++ [b]) ++ rest) ∧
      input.length = s.cfg.outCap := by
  refine ⟨⟨coded { outCap := 1 } [] codesV18 [true, false], [true, false], [0x61], 1, 0x63, 1, .inr rfl, rfl, rfl,
    by decide, codesInRange_tableOfEntries codesV18_ok, coded_payload _ _ _ _, ⟨1, by decide +kernel, rfl⟩,
    by decide +kernel, rfl⟩, coded { outCap := 3 } [] codesV1 (bitsN 4 14), [0x61, 0x61, 0x61], 0x62, [], .inr rfl, rfl, rfl, by decide,
    codesInRange_tableOfEntries codesV1_ok, prefixFree_tableOfEntries codesV1_ok (by decide), codesV1_cover, ?_, rfl⟩
  rw [show encodeBytes (coded { outCap := 3 } [] codesV1 (bitsN 4 14)).code ([0x61, 0x61, 0x61] ++ [0x62]) = bitsN 4 14
    from payloadV1, List.append_nil]
  exact coded_payload _ _ _ _

/-! ### Primitives -/

theorem witness_ValInvertsBitsN : 7 < 8 ∧ 255 < 2 ^ 8 ∧ 0 < 2 ^ 0 := by decide

theorem witness_BytePackingIsABijection :
    (bitsN 16 0b1110000001001100).length % 8 = 0 ∧ [(0xE0 : Byte), 0x4C][15 / 8]? = some 0x4C := by decide

theorem witness_ExtractMinReturnsTheLeastKey : ([0] : List Nat) ≠ [] ∧ ([0, 1, 4] : List Nat) ≠ [] := by decide

/-! ### Whole calls -/

/-- Where COMPRESS completes, the five commands complete one after another, and each keeps the invariant. -/
theorem stages_of_compress {s t : State} (hr : Ready s) (h : exec .compress s = .next t) (hd : t.seq = .done) :
    ∃ s1 s2 s3 s4 s5 : State, exec .count s = .next s1 ∧ s1.seq = .done ∧ exec .build s1 = .next s2 ∧ s2.seq = .done ∧
      exec .assign s2 = .next s3 ∧ s3.seq = .done ∧ exec .encode s3 = .next s4 ∧ s4.seq = .done ∧
      exec .serialize s4 = .next s5 ∧ s5.seq = .done ∧ (Inv s → Inv s3 ∧ Inv s5) ∧ s5 = t := by
  obtain ⟨u, hb, rfl⟩ := body_of_done (i := .compress) nofun hr h hd
  obtain ⟨u1, u2, u3, u4, b1, b2, b3, b4, b5⟩ := compressBody_ok hb
  have b1' : countBody { s with seq := .busy } = .ok u1 := by
    obtain ⟨hc, input, hin, e⟩ := countBody_ok b1
    subst e
    exact countBody_eq (s := { s with seq := .busy }) hin hc
  obtain ⟨k1, k1e, k1i⟩ := count_keeps b1'
  obtain ⟨k2, k2e, k2i⟩ := build_keeps b2
  obtain ⟨k3, k3e, k3i⟩ := assign_keeps b3
  obtain ⟨k4, k4e, k4i⟩ := encode_keeps b4
  have k1 : u1.seq = .busy := k1
  have k2 : u2.seq = .busy := k2.trans k1
  have k3 : u3.seq = .busy := k3.trans k2
  have k4 : u4.seq = .busy := k4.trans k3
  rw [← busy_done_busy k1] at b2
  rw [← busy_done_busy k2] at b3
  rw [← busy_done_busy k3] at b4
  rw [← busy_done_busy k4] at b5
  refine ⟨_, _, _, _, _, exec_of_ok (i := .count) nofun hr b1', rfl, exec_of_ok (i := .build) nofun (.inr rfl) b2, rfl,
    exec_of_ok (i := .assign) nofun (.inr rfl) b3, rfl, exec_of_ok (i := .encode) nofun (.inr rfl) b4, rfl,
    exec_of_ok (i := .serialize) nofun (.inr rfl) b5, rfl, fun hi => ?_, rfl⟩
  have he := ready_noError hi hr
  have e1 : u1.err = 0 ∧ u1.errInfo = 0 := ⟨k1e.trans he.1, k1i.trans he.2⟩
  have e2 : u2.err = 0 ∧ u2.errInfo = 0 := ⟨k2e.trans e1.1, k2i.trans e1.2⟩
  have e3 : u3.err = 0 ∧ u3.errInfo = 0 := ⟨k3e.trans e2.1, k3i.trans e2.2⟩
  have e4 : u4.err = 0 ∧ u4.errInfo = 0 := ⟨k4e.trans e3.1, k4i.trans e3.2⟩
  have i3 := inv_assign (inv_build (inv_count hi he b1') e1 b2) e2 b3
  exact ⟨i3, inv_serialize (inv_encode i3 e3 b4) e4 b5⟩

/-- V20, V30 as staged commands: a stage completes and the next one aborts. -/
theorem test_staged_V20_V30 :
    ends (exec .count State.reset) (fun t => decide (t.seq = .done) && raises (exec .build t) 1 0) = true ∧
    ends (exec .deserialize (given {} [0xE0, 0x4C, 0x20, 0x26, 0x20, 0x29, 0x80]))
      (fun t => decide (t.seq = .done) && raises (exec .decode t) 3 1) = true := by decide +kernel

theorem staged_next {o : Host.Outcome State Fault Refusal} {i : Instr} {code : BitVec 4} {info : Nat}
    (h : ends o (fun t => decide (t.seq = .done) && raises (exec i t) code info) = true) :
    ∃ s' t, o = .next s' ∧ s'.seq = .done ∧ exec i s' = .next t ∧ t.seq = .error := by
  obtain ⟨s', hs, h⟩ := ends_next h
  rw [Bool.and_eq_true, decide_eq_true_eq] at h
  obtain ⟨t, ht, he, -⟩ := raises_next h.2
  exact ⟨s', t, hs, h.1, ht, he⟩

/-- V4: all five complete; V36 (a): the first aborts; V20: the second does. -/
theorem witness_CompressIsTheFiveStages :
    (∃ s t : State, Ready s ∧ RunStages compressStages s t) ∧
    (∃ (s s' t : State) (after : List Instr), Ready s ∧ s.inLen < 2 ^ s.cfg.lenW ∧
      compressStages = [] ++ .count :: after ∧ RunStages [] s s' ∧ exec .count s' = .next t ∧ t.seq = .error) ∧
    ∃ (s s' t : State) (after : List Instr), Ready s ∧ s.inLen < 2 ^ s.cfg.lenW ∧
      compressStages = [.count] ++ .build :: after ∧ RunStages [.count] s s' ∧ exec .build s' = .next t ∧
      t.seq = .error := by
  obtain ⟨t, h, hd, -⟩ := completes_next test_compress_V4
  obtain ⟨s1, s2, s3, s4, s5, a, b, c, d, e, f, g, i, j, k, -⟩ := stages_of_compress (.inl rfl) h hd
  obtain ⟨t', h', he', -⟩ := raises_next test_count_V36a
  obtain ⟨u, v, hu, hud, hv, hve⟩ := staged_next test_staged_V20_V30.1
  exact ⟨⟨_, s5, .inl rfl, s1, a, b, s2, c, d, s3, e, f, s4, g, i, s5, j, k, rfl⟩,
    ⟨_, _, t', _, .inl rfl, by decide, rfl, rfl, h', he'⟩,
    ⟨State.reset, u, v, _, .inl rfl, by decide, rfl, ⟨u, hu, hud, rfl⟩, hv, hve⟩⟩

/-- V14: both complete; V26: the first aborts; V30: the second does. -/
theorem witness_DecompressIsTheTwoStages :
    (∃ s t : State, Ready s ∧ RunStages decompressStages s t) ∧
    (∃ (s s' t : State) (after : List Instr), Ready s ∧ s.inLen < 2 ^ s.cfg.lenW ∧
      decompressStages = [] ++ .deserialize :: after ∧ RunStages [] s s' ∧ exec .deserialize s' = .next t ∧
      t.seq = .error) ∧
    ∃ (s s' t : State) (after : List Instr), Ready s ∧ s.inLen < 2 ^ s.cfg.lenW ∧
      decompressStages = [.deserialize] ++ .decode :: after ∧ RunStages [.deserialize] s s' ∧
      exec .decode s' = .next t ∧ t.seq = .error := by
  obtain ⟨t, h, hd, -⟩ := completes_next test_decompress_V14
  obtain ⟨u, hb, rfl⟩ := body_of_done (i := .decompress) nofun (.inl rfl) h hd
  obtain ⟨u1, b1, b2⟩ := decompressBody_ok hb
  have b1' : deserializeBody { given {} blobV1 with seq := .busy } = .ok u1 := by
    obtain ⟨hc, input, r, hin, hp, e⟩ := deserializeBody_ok b1
    subst e
    exact deserializeBody_eq (s := { given {} blobV1 with seq := .busy }) (r := .ok r) hin hc hp
  have k1 : u1.seq = .busy := (deserialize_keeps b1').1
  rw [← busy_done_busy k1] at b2
  obtain ⟨t', h', he', -⟩ := raises_next test_deserialize_malformed.1
  obtain ⟨v, w, hv, hvd, hw, hwe⟩ := staged_next test_staged_V20_V30.2
  exact ⟨⟨_, _, .inl rfl, _, exec_of_ok (i := .deserialize) nofun (.inl rfl) b1', rfl, _,
      exec_of_ok (i := .decode) nofun (.inr rfl) b2, rfl, rfl⟩,
    ⟨_, _, t', _, .inl rfl, by decide, rfl, rfl, h', he'⟩,
    ⟨_, v, w, _, .inl rfl, by decide, rfl, ⟨v, hv, hvd, rfl⟩, hw, hwe⟩⟩

/-- The default capacities, and the least ones the statement allows for two bytes. -/
theorem witness_CompressCompletesWithinCapacity :
    ∀ p ∈ [({} : Params), { inCap := 2, bitsCap := 510, outCap := 8738 }],
      Ready (given p [0x61, 0x62]) ∧ InputIs (given p [0x61, 0x62]) [0x61, 0x62] ∧ 2 ≤ p.inCap ∧
      255 * 2 ≤ p.bitsCap ∧ 8674 + 32 * 2 ≤ p.outCap := by
  intro p hp
  refine ⟨.inl rfl, given_input _ _, ?_, ?_, ?_⟩ <;> revert p <;> decide

theorem witness_CompressOfNothingIsEmptyInput : Ready State.reset ∧ State.reset.inLen = 0 := ⟨.inl rfl, rfl⟩

theorem witness_WholeCallsRaiseOnlyTheirErrors :
    (∃ s t, Ready s ∧ exec .compress s = .next t ∧ t.seq = .error) ∧
    ∃ s t, Ready s ∧ exec .decompress s = .next t ∧ t.seq = .error := by
  obtain ⟨t, h, he, -⟩ := raises_next test_compress_V20
  obtain ⟨t', h', he', -⟩ := raises_next test_decompress_V30
  exact ⟨⟨_, t, .inl rfl, h, he⟩, ⟨_, t', .inl rfl, h', he'⟩⟩

theorem witness_DecompressReadsABlob :
    ∃ (s : State) (input output : List Byte) (es : List (Byte × Bits)) (padBits : Bits), Ready s ∧ InputIs s input ∧
      s.inLen ≤ s.cfg.inCap ∧ EntriesOk es ∧ 1 ≤ es.length ∧ padBits.length ≤ 7 ∧ PrefixFree (tableOfEntries es) ∧
      AllCoded (tableOfEntries es) output ∧
      bsFromBytes input =
        headerBits padBits.length (es.length % 256) es ++ encodeBytes (tableOfEntries es) output ++ padBits ∧
      (encodeBytes (tableOfEntries es) output).length ≤ s.cfg.bitsCap ∧ output.length ≤ s.cfg.outCap ∧ output ≠ [] := by
  refine ⟨given {} blobV1, blobV1, aaab, codesV1, zeros 7, .inl rfl, given_input _ _, by decide, codesV1_ok, by decide,
    by decide, prefixFree_tableOfEntries codesV1_ok (by decide), codesV1_cover, ?_, ?_, by decide, by decide⟩
  · rw [payloadV1]; decide +kernel
  · rw [payloadV1]; decide

/-- V4 there, with OUT_CAP 2 on the way back. -/
theorem witness_DecompressInvertsCompress :
    ∃ (s t u : State) (input blob : List Byte), Ready s ∧ InputIs s input ∧ s.inLen ≤ s.cfg.inCap ∧ input ≠ [] ∧
      exec .compress s = .next t ∧ t.seq = .done ∧ OutputIs t blob ∧ Ready u ∧ InputIs u blob ∧
      blob.length ≤ u.cfg.inCap ∧ t.bitsLen ≤ u.cfg.bitsCap ∧ input.length ≤ u.cfg.outCap := by
  obtain ⟨t, h, hd, hc⟩ := completes_next test_compress_V4
  obtain ⟨hc, hl, -, hb, -⟩ := of_decide_eq_true hc
  refine ⟨_, t, given { bitsCap := 2, outCap := 2 } [0x20, 0x4C, 0x20, 0x26, 0x20, 0x1A], [0x61, 0x62],
    [0x20, 0x4C, 0x20, 0x26, 0x20, 0x1A], .inl rfl, given_input _ _, by decide,
    by decide, h, hd, ⟨hl, (holdsOnly_of_cells hc).holds⟩, .inl rfl, given_input _ _, by decide, ?_, by decide⟩
  rw [hb]; decide

/-- COMPRESS of "ab" completes in every ready state with the default parameters. -/
theorem compress_ab : ∃ codes, ∀ s : State, Ready s → s.cfg = {} → InputIs s [0x61, 0x62] →
    exec .compress s = .next { compressed codes [0x61, 0x62] { s with seq := .busy } with seq := .done } := by
  obtain ⟨t, h, hd, -⟩ := completes_next test_compress_V4
  obtain ⟨u, hb, -⟩ := body_of_done (i := .compress) nofun (.inl rfl) h hd
  rcases compressBody_cases {} [0x61, 0x62] with ⟨e, info, -, -, hx⟩ | ⟨-, -, codes, -, -, -, -, -, hx⟩
  · cases (hx { given {} [0x61, 0x62] with seq := .busy } rfl (given_input {} _)).symm.trans hb
  · exact ⟨codes, fun s hr hp hin => exec_of_ok (i := .compress) nofun hr (hx { s with seq := .busy } hp hin)⟩

/-- The same input after reset and in a state that holds another table: both complete. -/
theorem witness_WholeCallsDependOnlyOnTheInput :
    ∃ s s' t t' : State, s.seq ≠ s'.seq ∧ Ready s ∧ Ready s' ∧ s.cfg = s'.cfg ∧ InputIs s [0x61, 0x62] ∧
      InputIs s' [0x61, 0x62] ∧ s.inLen < 2 ^ s.cfg.lenW ∧ exec .compress s = .next t ∧
      exec .compress s' = .next t' ∧ t.seq = .done := by
  obtain ⟨codes, hx⟩ := compress_ab
  exact ⟨given {} [0x61, 0x62], coded {} [0x61, 0x62] codesV1 [true], _, _, nofun, .inl rfl, .inr rfl, rfl,
    given_input _ _, coded_input _ _ _ _, by decide, hx _ (.inl rfl) rfl (given_input _ _),
    hx _ (.inr rfl) rfl (coded_input _ _ _ _), rfl⟩

/-! ### The invariant -/

/-- The host has loaded an input after reset: the invariant holds. -/
theorem given_inv : Inv (given {} [0x61, 0x62]) :=
  inv_inLen (v := 2) (inv_inBuf (m := Store.ofList [0x61, 0x62] 0) (inv_resetWith (by decide +kernel)) (by decide +kernel))
    (by decide)

/-- A state a run reaches, after COMPRESS of "ab", in which all five flags are set and ROOT is 2. -/
theorem inv_after_compress :
    ∃ t : State, Inv t ∧ t.flags = Flags.all ∧ t.inBuf.Specified t.inLen ∧ t.root.toNat = 2 := by
  obtain ⟨codes, hx⟩ := compress_ab
  have h := hx (given {} [0x61, 0x62]) (.inl rfl) rfl (given_input _ _)
  obtain ⟨_, _, _, _, _, _, _, _, _, _, _, _, _, _, _, hi, rfl⟩ := stages_of_compress (.inl rfl) h rfl
  have hd : distinctSymbols (freqOf [0x61, 0x62]) = 2 := by rw [distinctSymbols_freqOf]; decide
  exact ⟨_, (hi given_inv).2, rfl, (given_input {} [0x61, 0x62]).2.specified,
    (buildForest_registers (by rw [hd]; decide)).2.trans (by rw [hd])⟩

theorem witness_EveryStepKeepsTheInvariant :
    ∃ s t : State, Inv s ∧ step s = .next t ∧ s.inputs ≠ [] ∧ s.flags = Flags.all := by
  obtain ⟨s, hi, hf, -, -⟩ := inv_after_compress
  exact ⟨{ s with inputs := [.hardReset] }, _, inv_port hi _ s.portData s.draw, step_hardReset rfl, by simp, hf⟩

/-- All five flags and IN written; in ERROR; IN_LEN 1 with no byte of IN written. -/
theorem witness_EveryCommandEnds :
    (∃ s : State, Inv s ∧ s.inBuf.Specified s.inLen ∧ s.flags = Flags.all ∧ s.seq ≠ .error ∧ s.err ≠ 4) ∧
    (∃ s : State, Inv s ∧ s.inBuf.Specified s.inLen ∧ s.seq = .error ∧ s.err ≠ 4) ∧
    ∃ s : State, Inv s ∧ s.seq ≠ .error ∧ ¬ s.inBuf.Specified s.inLen ∧
      Instr.nop ∉ [Instr.count, .encode, .deserialize, .compress, .decompress] := by
  obtain ⟨s, hi, hf, hs, -⟩ := inv_after_compress
  have hne : s.seq ≠ .error := fun h => by
    have := (hi.inError h).2.2.1
    rw [hf] at this
    cases this
  refine ⟨⟨s, hi, hs, hf, hne, by rw [(hi.noError hne).1]; decide⟩,
    ⟨abort .emptyInput 0 (given {} [0x61, 0x62]), inv_abort given_inv _ _, (given_input {} [0x61, 0x62]).2.specified, rfl,
      by decide⟩,
    ⟨{ State.reset with inLen := 1 }, inv_inLen (inv_resetWith (by decide +kernel)) (by decide), nofun, fun h => ?_,
      by decide⟩⟩
  have := h 0 Nat.one_pos
  cases this

/-- All five flags; index 1 is the last below ROOT. -/
theorem witness_ValidFlagsMeanWhatTheyPromise :
    ∃ s : State, Inv s ∧ s.flags.freqValid = true ∧ s.flags.treeValid = true ∧ s.flags.codeValid = true ∧
      s.flags.bitsValid = true ∧ s.flags.outValid = true ∧ 1 < s.root.toNat := by
  obtain ⟨s, hi, hf, -, hr⟩ := inv_after_compress
  exact ⟨s, hi, by rw [hf]; rfl, by rw [hf]; rfl, by rw [hf]; rfl, by rw [hf]; rfl, by rw [hf]; rfl,
    by rw [hr]; decide⟩

end Sys2Proof.Tests
end

section
/-! PROOFS. The statements of spec/00_scope.md. -/

namespace Sys2Proof.Machine

/-- Settles O46: the laws of `bitsN` and `val` (R8), one for each part of the statement. -/
theorem valInvertsBitsN : Obligations.ValInvertsBitsN := by
  refine ⟨fun n v i hi => ?bit, fun n v hv => ?valOfBits, fun b => ?bitsOfVal⟩
  case bit => exact bitsN_getElem? n v i hi
  case valOfBits => exact ⟨val_bitsN hv, bitsN_length n v⟩
  case bitsOfVal => exact ⟨bitsN_val b, val_lt b⟩

end Sys2Proof.Machine
end

section
/-! PROOFS. Reset (spec/10_state.md R44, spec/70_reset_and_hazards.md R230), dispatch and the host port. -/

namespace Sys2Proof.Machine

/-! ## The reset values (R44) -/

theorem Store.holdsOnly_empty {α : Type} (seed : Nat) : (Store.empty seed : Store α).HoldsOnly [] := fun _ => rfl

theorem atResetValues_resetWith (p : Params) : AtResetValues (State.resetWith p) :=
  ⟨rfl, rfl, rfl, rfl, rfl, rfl, rfl, rfl, rfl, rfl, rfl, tableGet_replicate 0, tableGet_replicate none, rfl,
    Store.holdsOnly_empty 0, Store.holdsOnly_empty 0, Store.holdsOnly_empty 0⟩

/-- R44's two columns agree on everything but IN. -/
theorem atResetValues_recover (s : State) : AtResetValues (recover s) :=
  ⟨rfl, rfl, rfl, rfl, rfl, rfl, rfl, rfl, rfl, rfl, rfl, tableGet_replicate 0, tableGet_replicate none, rfl,
    Store.holdsOnly_empty s.draw, Store.holdsOnly_empty s.draw, Store.holdsOnly_empty s.draw⟩

/-- Settles O3: the reset state is `State.resetWith` of the default parameters. -/
theorem resetStateHasTheResetValues : Obligations.ResetStateHasTheResetValues :=
  ⟨atResetValues_resetWith {}, Store.holdsOnly_empty 0⟩

/-- Settles O4: the reset input is obeyed in every state (`step_hardReset`), and it is the recovery with IN emptied. -/
theorem hardwareResetLeavesTheResetValues : Obligations.HardwareResetLeavesTheResetValues := by
  intro s rest hin
  exact ⟨hardwareReset (takeWrite s rest), step_hardReset hin, atResetValues_recover (takeWrite s rest),
    Store.holdsOnly_empty _, rfl, rfl⟩

/-- Settles O5: outside BUSY the command RESET answers the recovered state (`exec_reset`). -/
theorem resetCommandRestoresTheResetValues : Obligations.ResetCommandRestoresTheResetValues := by
  intro s hs
  exact ⟨recover s, exec_reset s hs, atResetValues_recover s, rfl, rfl, rfl, rfl⟩

/-- Settles O57: the default parameters meet R6's constraints. -/
theorem invariantHoldsAtReset : Obligations.InvariantHoldsAtReset := inv_resetWith (by decide +kernel)

/-! ## The host port -/

/-- Settles O6: a 32-bit word fits CMD, so the step dispatches on what it decodes to (`step_cmdWrite`). -/
theorem stepRunsTheDecodedCommand : Obligations.StepRunsTheDecodedCommand := by
  intro s w i rest hin hs hd
  rw [step_cmdWrite hin hs w.isLt, BitVec.ofNat_toNat, BitVec.setWidth_eq, hd]
  rfl

/-- STATUS put together from its fields: the state, two zeros, the five flags in the order of R24. -/
def packStatus (q : BitVec 2) (f t c b o : Bool) : BitVec 9 :=
  BitVec.ofBool o ++ BitVec.ofBool b ++ BitVec.ofBool c ++ BitVec.ofBool t ++ BitVec.ofBool f ++ (0 : BitVec 2) ++ q

theorem statusWord_eq_packStatus (s : State) :
    statusWord s = packStatus s.seq.code s.flags.freqValid s.flags.treeValid s.flags.codeValid s.flags.bitsValid
      s.flags.outValid := rfl

/-- Each field reads back what was put in, for each of the four states and the 32 settings of the flags. -/
theorem packStatus_fields (q : BitVec 2) (f t c b o : Bool) :
    (packStatus q f t c b o).extractLsb 1 0 = q ∧ (packStatus q f t c b o).extractLsb 3 2 = 0#2 ∧
    (packStatus q f t c b o).getLsbD 4 = f ∧ (packStatus q f t c b o).getLsbD 5 = t ∧
    (packStatus q f t c b o).getLsbD 6 = c ∧ (packStatus q f t c b o).getLsbD 7 = b ∧
    (packStatus q f t c b o).getLsbD 8 = o := by
  revert q f t c b o
  decide

/-- Settles O11: STATUS is put together from its fields, and they read back. -/
theorem statusWordFields : Obligations.StatusWordFields := by
  intro s
  rw [statusWord_eq_packStatus]
  obtain ⟨hstate, hrest⟩ := packStatus_fields s.seq.code s.flags.freqValid s.flags.treeValid s.flags.codeValid
    s.flags.bitsValid s.flags.outValid
  exact ⟨hstate.trans (by cases s.seq <;> rfl), hrest⟩

theorem regRead_of_gt {s : State} {n : Nat} (h : 10 < n) : regRead s n = 0 := by
  obtain ⟨k, rfl⟩ : ∃ k, n = k + 11 := ⟨n - 11, by omega⟩
  rfl

/-- Settles O12: `step_read` answers `regRead`, which names the eleven registers. -/
theorem registerReadsByNumber : Obligations.RegisterReadsByNumber := by
  intro s rest n hs hin
  refine ⟨regRead s n, step_read hin hs, ?_, ?_, ?_, ?_, ?_, ?_, ?_, ?_, ?_, ?_, ?_, regRead_of_gt⟩
  all_goals rintro rfl; rfl

/-- Settles O14: `step_write` and read after write (`Store.get?_set`) inside the buffer, nothing outside it. -/
theorem hostWriteToInputBuffer : Obligations.HostWriteToInputBuffer := by
  intro s rest i b hs hin
  refine ⟨_, step_write hin hs rfl nofun nofun, ?_⟩
  by_cases hi : i < s.cfg.inCap
  · have hw : writeInput (takeWrite s rest) i b = { takeWrite s rest with inBuf := s.inBuf.set i b } := if_pos hi
    simp only [hostWrite, hw]
    refine ⟨rfl, fun _ => ⟨?_, fun j hj => ?_⟩, fun h => absurd h (by omega)⟩
    · rw [Store.get?_set, if_pos rfl]
    · rw [Store.get?_set, if_neg (Ne.symm hj)]
  · have hw : writeInput (takeWrite s rest) i b = takeWrite s rest := if_neg hi
    simp only [hostWrite, hw]
    exact ⟨rfl, fun h => absurd h hi, fun _ => rfl⟩

theorem writeRegister_of_ne (s : State) {n : Nat} (h : n ≠ 4) (v : Nat) : writeRegister s n v = s := by
  unfold writeRegister
  split
  · contradiction
  · rfl

theorem fits_writeReg_of_ne {p : Params} {n v : Nat} (h0 : n ≠ 0) (h4 : n ≠ 4) :
    (HostAccess.writeReg n v).fits p = true := by
  unfold HostAccess.fits
  split
  · next h => cases h; contradiction
  · next h => cases h; contradiction
  · rfl

/-- Settles O15: `step_write` for each access that is no read and no CMD write; only IN_LEN is stored. -/
theorem otherHostWritesStoreInLenOrNothing : Obligations.OtherHostWritesStoreInLenOrNothing := by
  intro s rest a hs hin
  refine ⟨?inLen, ?register, ?space⟩
  case inLen =>
    rintro v rfl hv
    exact step_write hin hs (decide_eq_true hv) nofun nofun
  case register =>
    rintro n v rfl h0 h4
    rw [step_write hin hs (fits_writeReg_of_ne h0 h4) (fun _ h => h0 (by cases h; rfl)) nofun]
    exact congrArg Host.Outcome.next (writeRegister_of_ne (takeWrite s rest) h4 v)
  case space =>
    rintro (⟨i, x, rfl⟩ | ⟨i, x, rfl⟩ | ⟨i, x, rfl⟩ | ⟨i, x, rfl⟩ | ⟨i, x, rfl⟩) <;>
      exact step_write hin hs rfl nofun nofun

end Sys2Proof.Machine
end

section
/-! PROOFS. The tree BUILD makes (spec/42_tree_builder.md R129), and what the valid flags promise (spec/10_state.md
R46). -/

namespace Sys2Proof.Machine

/-! ## The tree BUILD makes (R125, R127, R129) -/

/-- With a symbol in the table: the first nodes are the leaves, one for each symbol, and no other node is one. -/
theorem buildForest_leaf_iff {freq : Table Nat} (hd : 0 < distinctSymbols freq) {k : Nat} {e : NodeEntry}
    (he : (buildForest freq).nodes[k]? = some e) : e.kind = .leaf ↔ k < distinctSymbols freq := by
  obtain ⟨hok, -, -⟩ := buildForest_ok hd
  by_cases hk : k < distinctSymbols freq
  · obtain ⟨b, -, rfl, -⟩ := leavesOf_getElem? (hok.leaf hk he)
    exact iff_of_true rfl hk
  · have hkind := (hok.inner k e (by omega) he).kind
    exact iff_of_false (by rw [hkind]; nofun) hk

theorem buildForest_leaf_pos {freq : Table Nat} (hd : 0 < distinctSymbols freq) {k : Nat} {e : NodeEntry}
    (he : (buildForest freq).nodes[k]? = some e) (hk : e.kind = .leaf) : 0 < e.freq := by
  obtain ⟨hok, -, -⟩ := buildForest_ok hd
  obtain ⟨b, -, rfl, hpos⟩ := leavesOf_getElem? (hok.leaf ((buildForest_leaf_iff hd he).mp hk) he)
  exact hpos

theorem buildForest_leaves_ascend {freq : Table Nat} (hd : 0 < distinctSymbols freq) {j k : Nat} {e f : NodeEntry}
    (hjk : j < k) (hk : k < distinctSymbols freq) (he : (buildForest freq).nodes[j]? = some e)
    (hf : (buildForest freq).nodes[k]? = some f) : e.sym.toNat < f.sym.toNat := by
  obtain ⟨hok, -, -⟩ := buildForest_ok hd
  obtain ⟨a, ha, rfl, -⟩ := leavesOf_getElem? (hok.leaf (by omega) he)
  obtain ⟨b, hb, rfl, -⟩ := leavesOf_getElem? (hok.leaf hk hf)
  have hs : (occurring freq).Pairwise fun a b => a.toNat < b.toNat := allSymbols_sorted.filter _
  obtain ⟨hj, rfl⟩ := List.getElem?_eq_some_iff.mp ha
  obtain ⟨hk, rfl⟩ := List.getElem?_eq_some_iff.mp hb
  exact List.pairwise_iff_getElem.mp hs j k hj hk hjk

theorem buildForest_internal {freq : Table Nat} (hd : 0 < distinctSymbols freq) {k : Nat} {e : NodeEntry}
    (he : (buildForest freq).nodes[k]? = some e) (hk : e.kind = .internal) :
    InternalOk (buildForest freq).nodes k e := by
  obtain ⟨hok, -, -⟩ := buildForest_ok hd
  refine hok.inner k e ?_ he
  by_contra hlt
  rw [(buildForest_leaf_iff hd he).mpr (by omega)] at hk
  cases hk

/-- Only the root is no node's child: it alone is left in the queue. -/
theorem buildForest_orphan_iff {freq : Table Nat} (hd : 0 < distinctSymbols freq) {c : Nat} :
    (c < (buildForest freq).nodes.length ∧ ∀ p, ¬ IsChild (buildForest freq).nodes p c) ↔
      c = (buildForest freq).nodes.length - 1 := by
  obtain ⟨hok, -, hpq⟩ := buildForest_ok hd
  rw [← hok.roots, hpq, List.mem_singleton]

theorem buildForest_parent {freq : Table Nat} (hd : 0 < distinctSymbols freq) {c : Nat}
    (hc : c < (buildForest freq).nodes.length - 1) :
    ∃ p, IsChild (buildForest freq).nodes p c ∧ ∀ q, IsChild (buildForest freq).nodes q c → q = p := by
  obtain ⟨hok, -, -⟩ := buildForest_ok hd
  have hne : ¬ ∀ p, ¬ IsChild (buildForest freq).nodes p c := fun h => by
    have := (buildForest_orphan_iff hd).mp ⟨by omega, h⟩
    omega
  obtain ⟨p, hp⟩ := not_forall_not.mp hne
  exact ⟨p, hp, fun q hq => hok.unique q p c hq hp⟩

theorem buildForest_root_orphan {freq : Table Nat} (hd : 0 < distinctSymbols freq) (p : Nat) :
    ¬ IsChild (buildForest freq).nodes p ((buildForest freq).nodes.length - 1) :=
  ((buildForest_orphan_iff hd).mpr rfl).2 p

/-- The root's frequency is the sum of the frequencies left in the queue, so of all counts. -/
theorem buildForest_root_freq {freq : Table Nat} (hd : 0 < distinctSymbols freq) :
    nodeFreq (buildForest freq).nodes ((buildForest freq).nodes.length - 1) = freqTotal freq := by
  obtain ⟨hok, -, hpq⟩ := buildForest_ok hd
  have htotal := hok.total
  rwa [hpq, List.map_singleton, List.sum_singleton] at htotal

/-- ROOT is the last node. -/
theorem buildForest_root {freq : Table Nat} (hd : 0 < distinctSymbols freq) :
    (BitVec.ofNat 9 ((buildForest freq).pq.headD 0)).toNat = (buildForest freq).nodes.length - 1 := by
  obtain ⟨-, hlen, -⟩ := buildForest_ok hd
  rw [(buildForest_registers hd).2, hlen]
  omega

/-- Settles O25: a completed BUILD leaves `buildForest` of FREQ, and the tree's properties are those of the forest. -/
theorem buildMakesAStrictWeightedTree : Obligations.BuildMakesAStrictWeightedTree := by
  intro s t nodes hr hf hx hdone hnodes
  obtain ⟨u, hb, rfl⟩ := body_of_done (i := .build) nofun hr hx hdone
  obtain ⟨-, hd, rfl⟩ := buildBody_ok hb
  have hd : 0 < distinctSymbols s.freq := hd
  obtain rfl : nodes = (buildForest s.freq).nodes := hnodes.unique (Store.holdsOnly_ofList _ _)
  simp only [buildForest_root hd]
  refine ⟨fun k e he hk => ?_, fun k e he hk => buildForest_leaf_pos hd he hk, fun c hc => buildForest_parent hd hc,
    buildForest_root_orphan hd, buildForest_root_freq hd⟩
  have hi := buildForest_internal hd he hk
  exact ⟨hi.left, hi.right, hi.ne, hi.sum⟩

/-! ## What the flags promise (R46) -/

theorem freqTotal_eq_zero_iff {f : Table Nat} : freqTotal f = 0 ↔ distinctSymbols f = 0 := by
  constructor
  · intro h
    by_contra hne
    obtain ⟨b, hb⟩ := distinctSymbols_pos.mp (Nat.pos_of_ne_zero hne)
    have := tableGet_le_freqTotal f b
    omega
  · intro h
    refine List.sum_eq_zero fun n hn => ?_
    obtain ⟨b, -, rfl⟩ := List.mem_map.mp hn
    by_contra hne
    have := distinctSymbols_pos.mpr ⟨b, Nat.pos_of_ne_zero hne⟩
    omega

/-- Settles O60: each flag's promise from its clause of the invariant; the tree's from what BUILD makes of FREQ. -/
theorem validFlagsMeanWhatTheyPromise : Obligations.ValidFlagsMeanWhatTheyPromise := by
  intro s h
  refine ⟨fun hf => ?freq, fun hf => ?tree, fun hf => ?code, fun hf => ?bits, fun hf => ?out⟩
  case freq =>
    obtain ⟨htotal, hsym⟩ := h.freqValid hf
    refine ⟨hsym, htotal, ?_⟩
    rw [freqTotal_eq_zero_iff, ← hsym, ← BitVec.toNat_inj]
    rfl
  case tree =>
    obtain ⟨hfreq, ht⟩ := h.treeValid hf
    obtain ⟨-, hsym⟩ := h.freqValid hfreq
    have hd : 0 < distinctSymbols s.freq := leafForest_pq_ne_nil.mp ht.someSymbol
    obtain ⟨-, hlen, -⟩ := buildForest_ok hd
    have hcount : s.nodeCount.toNat = (buildForest s.freq).nodes.length := by
      rw [ht.count, (buildForest_registers hd).1, hlen]
    have hroot : s.root.toNat = (buildForest s.freq).nodes.length - 1 := by rw [ht.root, buildForest_root hd]
    rw [hcount, hroot, hsym]
    refine ⟨_, ht.nodes, rfl, hlen, rfl, fun k e he => buildForest_leaf_iff hd he,
      fun j k e f hjk hk he hf => buildForest_leaves_ascend hd hjk hk he hf,
      fun k e he hk => buildForest_leaf_pos hd he hk, fun k e he hk => ?_, fun c hc => buildForest_parent hd hc⟩
    have hi := buildForest_internal hd he hk
    exact ⟨hi.left, hi.right, hi.ne, hi.sum⟩
  case code =>
    obtain ⟨hrange, hpos, hsym⟩ := h.codeValid hf
    exact ⟨hrange, hsym.symm, hsym ▸ hpos, fun ht => h.codeOfTree ht hf⟩
  case bits =>
    obtain ⟨hspec, hcode⟩ := h.bitsValid hf
    exact ⟨hcode, exists_list_of_specified hspec⟩
  case out =>
    obtain ⟨hspec, hcap⟩ := h.outValid hf
    obtain ⟨out, hlen, hout⟩ := exists_list_of_specified hspec
    exact ⟨out, ⟨hlen, hout⟩, hlen ▸ hcap⟩

end Sys2Proof.Machine
end

section
/-! PROOFS. Every step keeps the invariant (spec/10_state.md R45, R46), and what no command's body writes. -/

namespace Sys2Proof.Machine

/-! ## What every body leaves alone -/

/-- What no completed body writes: STATUS.state, the error registers, IN and IN_LEN, and what is not the block's own. -/
structure KeepsHost (s u : State) : Prop where
  seq : u.seq = s.seq
  err : u.err = s.err
  errInfo : u.errInfo = s.errInfo
  inBuf : u.inBuf = s.inBuf
  inLen : u.inLen = s.inLen
  cfg : u.cfg = s.cfg
  inputs : u.inputs = s.inputs
  portData : u.portData = s.portData

theorem KeepsHost.trans {s u v : State} (h : KeepsHost s u) (h' : KeepsHost u v) : KeepsHost s v :=
  ⟨h'.seq.trans h.seq, h'.err.trans h.err, h'.errInfo.trans h.errInfo, h'.inBuf.trans h.inBuf, h'.inLen.trans h.inLen,
    h'.cfg.trans h.cfg, h'.inputs.trans h.inputs, h'.portData.trans h.portData⟩

theorem keepsHost_flags (s : State) (f : Flags) : KeepsHost s { s with flags := f } := by constructor <;> rfl

/-- The commands that are one body, not a sequence of them. -/
def isSingle : Instr → Bool
  | .compress | .decompress => false
  | .reset | .count | .build | .assign | .encode | .serialize | .deserialize | .decode | .nop => true

theorem keepsHost_single {i : Instr} {s u : State} (hi : isSingle i = true) (hb : bodyOf i s = .ok u) :
    KeepsHost s u := by
  cases i with
  | reset | nop => cases hb; constructor <;> rfl
  | count => obtain ⟨-, _, -, rfl⟩ := countBody_ok hb; constructor <;> rfl
  | build => obtain ⟨-, -, rfl⟩ := buildBody_ok hb; constructor <;> rfl
  | assign => obtain ⟨-, _, -, rfl⟩ := assignBody_ok hb; constructor <;> rfl
  | encode => obtain ⟨-, -, _, -, -, -, rfl⟩ := encodeBody_ok hb; constructor <;> rfl
  | serialize => obtain ⟨-, -, _, -, -, rfl⟩ := serializeBody_ok hb; constructor <;> rfl
  | deserialize => obtain ⟨-, _, _, -, -, rfl⟩ := deserializeBody_ok hb; constructor <;> rfl
  | decode => obtain ⟨-, -, _, _, -, -, rfl⟩ := decodeBody_ok hb; constructor <;> rfl
  | compress | decompress => cases hi

theorem keepsHost_body {i : Instr} {s u : State} (hb : bodyOf i s = .ok u) : KeepsHost s u := by
  by_cases hi : isSingle i = true
  · exact keepsHost_single hi hb
  · cases i with
    | compress =>
      obtain ⟨s1, s2, s3, s4, h1, h2, h3, h4, h5⟩ := compressBody_ok hb
      exact (keepsHost_flags s _).trans <| (keepsHost_single (i := .count) rfl h1).trans <|
        (keepsHost_single (i := .build) rfl h2).trans <| (keepsHost_single (i := .assign) rfl h3).trans <|
        (keepsHost_single (i := .encode) rfl h4).trans (keepsHost_single (i := .serialize) rfl h5)
    | decompress =>
      obtain ⟨s1, h1, h2⟩ := decompressBody_ok hb
      exact (keepsHost_flags s _).trans <| (keepsHost_single (i := .deserialize) rfl h1).trans
        (keepsHost_single (i := .decode) rfl h2)
    | _ => exact absurd rfl hi

/-! ## The bodies of a whole call, one after another -/

/-- A completed command of one body keeps the invariant. -/
theorem inv_single {i : Instr} {s u : State} (hi : isSingle i = true) (h : Inv s) (he : s.err = 0 ∧ s.errInfo = 0)
    (hb : bodyOf i { s with seq := .busy } = .ok u) : Inv { u with seq := .done } := by
  cases i with
  | reset | nop => cases hb; exact inv_done (s := s) h he
  | count => exact inv_count h he hb
  | build => exact inv_build h he hb
  | assign => exact inv_assign h he hb
  | encode => exact inv_encode h he hb
  | serialize => exact inv_serialize h he hb
  | deserialize => exact inv_deserialize h he hb
  | decode => exact inv_decode h he hb
  | compress | decompress => cases hi

/-- What holds between the bodies of a whole call: BUSY, no error standing, and the invariant but for BUSY. -/
structure Running (s : State) : Prop where
  busy : s.seq = .busy
  noError : s.err = 0 ∧ s.errInfo = 0
  inv : Inv { s with seq := .done }

/-- Each completed body hands what holds between bodies on to the next. -/
theorem Running.next {i : Instr} {s u : State} (hi : isSingle i = true) (h : Running s) (hb : bodyOf i s = .ok u) :
    Running u := by
  have hk := keepsHost_single hi hb
  rw [← busy_done_busy h.busy] at hb
  obtain ⟨herr, hinfo⟩ := h.noError
  exact ⟨hk.seq.trans h.busy, ⟨hk.err.trans herr, hk.errInfo.trans hinfo⟩, inv_single hi h.inv h.noError hb⟩

/-- Clearing all five flags keeps the invariant: none promises anything then. -/
theorem inv_clearFlags {s : State} (h : Inv s) : Inv { s with flags := Flags.clear } where
  params := h.params
  inBuf := h.inBuf
  outBuf := h.outBuf
  node := h.node
  bits := h.bits
  queue := h.queue
  notBusy := h.notBusy
  noError := h.noError
  inError := fun he =>
    let ⟨hpos, hle, _, hout⟩ := h.inError he
    ⟨hpos, hle, rfl, hout⟩
  widths := h.widths
  ranges := h.ranges
  freqWidth := h.freqWidth
  codeWidth := h.codeWidth
  freqValid := nofun
  treeValid := nofun
  codeValid := nofun
  codeOfTree := nofun
  bitsValid := nofun
  outValid := nofun

theorem Flags.without_all (f : Flags) : f.without Flags.all = Flags.clear := by
  simp [Flags.without, Flags.all, Flags.clear]

/-- A whole call starts running: BUSY, and its first act clears all five flags (R34, R193, R195). -/
theorem running_start {s : State} (h : Inv s) (he : s.err = 0 ∧ s.errInfo = 0) :
    Running { s with seq := .busy, flags := s.flags.without Flags.all } := by
  rw [Flags.without_all]
  exact ⟨rfl, he, inv_done (s := { s with flags := Flags.clear }) (inv_clearFlags h) he⟩

/-- A completed COMPRESS keeps the invariant, since its five bodies do (R193). -/
theorem inv_compress {s u : State} (h : Inv s) (he : s.err = 0 ∧ s.errInfo = 0)
    (hb : compressBody { s with seq := .busy } = .ok u) : Inv { u with seq := .done } := by
  obtain ⟨s1, s2, s3, s4, h1, h2, h3, h4, h5⟩ := compressBody_ok hb
  have r1 := (running_start h he).next (i := .count) rfl h1
  have r2 := r1.next (i := .build) rfl h2
  have r3 := r2.next (i := .assign) rfl h3
  have r4 := r3.next (i := .encode) rfl h4
  exact (r4.next (i := .serialize) rfl h5).inv

/-- A completed DECOMPRESS keeps the invariant, since its two bodies do (R195). -/
theorem inv_decompress {s u : State} (h : Inv s) (he : s.err = 0 ∧ s.errInfo = 0)
    (hb : decompressBody { s with seq := .busy } = .ok u) : Inv { u with seq := .done } := by
  obtain ⟨s1, h1, h2⟩ := decompressBody_ok hb
  have r1 := (running_start h he).next (i := .deserialize) rfl h1
  exact (r1.next (i := .decode) rfl h2).inv

/-! ## Commands and steps -/

/-- Whatever body a completed command ran, the invariant holds after it. -/
theorem inv_body {i : Instr} {s u : State} (h : Inv s) (hr : Ready s) (hb : bodyOf i { s with seq := .busy } = .ok u) :
    Inv { u with seq := .done } := by
  have he := ready_noError h hr
  by_cases hi : isSingle i = true
  · exact inv_single hi h he hb
  · cases i with
    | compress => exact inv_compress h he hb
    | decompress => exact inv_decompress h he hb
    | _ => exact absurd rfl hi

/-- A command keeps the invariant: RESET recovers, in ERROR nothing happens, else it completes or aborts. -/
theorem inv_exec {i : Instr} {s t : State} (h : Inv s) (hx : exec i s = .next t) : Inv t := by
  rcases exec_eq_next hx with ⟨-, -, rfl⟩ | ⟨-, -, rfl⟩ | ⟨-, hr, u, hb, rfl⟩ | ⟨-, -, e, info, -, rfl⟩
  · exact inv_recover h
  · exact h
  · exact inv_body h hr hb
  · exact inv_abort h e info

/-- An illegal word keeps the invariant: in ERROR nothing happens, else it aborts (R202). -/
theorem inv_illegalCommand {w : Word} {s t : State} (h : Inv s) (hx : illegalCommand w s = .next t) : Inv t := by
  rcases runCommand_eq_next hx with ⟨-, rfl⟩ | ⟨-, u, hb, -⟩ | ⟨-, e, info, -, rfl⟩
  · exact h
  · cases hb
  · exact inv_abort h e info

theorem inv_takeWrite {s : State} (h : Inv s) (rest : List HostInput) : Inv (takeWrite s rest) :=
  inv_port h rest s.portData (s.draw + 1)

/-- A host write other than a CMD write keeps the invariant: the value fits IN_LEN, and an element of IN is written
inside the buffer only. -/
theorem inv_hostWrite {s : State} {a : HostAccess} (h : Inv s) (hf : a.fits s.cfg = true) : Inv (hostWrite s a) := by
  cases a with
  | writeReg n v =>
    show Inv (writeRegister s n v)
    unfold writeRegister
    split
    · exact inv_inLen h (of_decide_eq_true hf)
    · exact h
  | writeIn i b =>
    show Inv (writeInput s i b)
    unfold writeInput
    split
    · next hi => exact inv_inBuf h (Store.wf_set h.inBuf hi)
    · exact h
  | read | writeOut | writeFreq | writeNode | writeCode | writeBits => exact h

/-- Settles O58: each thing a step can do (`step_eq_next`) keeps the invariant. -/
theorem everyStepKeepsTheInvariant : Obligations.EveryStepKeepsTheInvariant := by
  intro s t h hs
  rcases step_eq_next hs with ⟨-, rfl⟩ | ⟨rest, -, rfl⟩ | ⟨a, rest, -, -, rfl⟩ | ⟨sp, i, rest, -, -, rfl⟩ |
    ⟨v, rest, i, -, -, -, -, hx⟩ | ⟨v, rest, -, -, -, -, hx⟩ | ⟨a, rest, -, -, hf, -, -, rfl⟩
  · exact h
  · exact inv_hardwareReset (inv_takeWrite h rest)
  · exact h
  · exact inv_port h rest (some (hostRead s sp i)) s.draw
  · exact inv_exec (inv_takeWrite h rest) hx
  · exact inv_illegalCommand (inv_takeWrite h rest) hx
  · exact inv_hostWrite (inv_takeWrite h rest) hf

end Sys2Proof.Machine
end

section
/-! PROOFS. What a command writes: the flag table (spec/10_state.md R34) and the homes of spec/30_encoding.md R82. -/

namespace Sys2Proof.Machine

/-! ## The flag table -/

/-- COMPRESS's flags are those its five bodies set, one after another. -/
theorem compressBody_flags {s t : State} (h : compressBody s = .ok t) : t.flags = ⟨true, true, true, true, true⟩ := by
  obtain ⟨s1, s2, s3, s4, -, h2, h3, h4, h5⟩ := compressBody_ok h
  obtain ⟨-, -, rfl⟩ := buildBody_ok h2
  obtain ⟨-, codes, -, rfl⟩ := assignBody_ok h3
  obtain ⟨-, -, input, -, -, -, rfl⟩ := encodeBody_ok h4
  obtain ⟨-, -, p, -, -, rfl⟩ := serializeBody_ok h5
  rfl

theorem decompressBody_flags {s t : State} (h : decompressBody s = .ok t) :
    t.flags = ⟨false, false, true, true, true⟩ := by
  obtain ⟨s1, h1, h2⟩ := decompressBody_ok h
  obtain ⟨-, input, r, -, -, rfl⟩ := deserializeBody_ok h1
  obtain ⟨-, -, p, out, -, -, rfl⟩ := decodeBody_ok h2
  rfl

@[simp] theorem hostWrite_flags (s : State) (a : HostAccess) : (hostWrite s a).flags = s.flags := by
  cases a with
  | writeReg n v => simp only [hostWrite, writeRegister]; split <;> rfl
  | writeIn i b => simp only [hostWrite, writeInput]; split <;> rfl
  | read | writeOut | writeFreq | writeNode | writeCode | writeBits => rfl

/-- What a host write can come to: held while BUSY, else taken. -/
theorem step_hostWrite_eq_next {s t : State} {a : HostAccess} {rest : List HostInput}
    (hin : s.inputs = .access a :: rest) (hc : ∀ v, a ≠ .writeReg 0 v) (hr : ∀ sp i, a ≠ .read sp i)
    (h : step s = .next t) : t = s ∨ t = hostWrite (takeWrite s rest) a := by
  rcases step_eq_next h with ⟨-, ht⟩ | ⟨_, hin', -⟩ | ⟨_, _, -, -, ht⟩ | ⟨sp, i, _, hin', -⟩ | ⟨v, _, _, hin', -⟩ |
    ⟨v, _, hin', -⟩ | ⟨_, _, hin', -, -, -, -, rfl⟩
  · exact .inl ht
  · rw [hin] at hin'; cases hin'
  · exact .inl ht
  · rw [hin] at hin'; cases hin'; exact absurd rfl (hr sp i)
  · rw [hin] at hin'; cases hin'; exact absurd rfl (hc v)
  · rw [hin] at hin'; cases hin'; exact absurd rfl (hc v)
  · rw [hin] at hin'; cases hin'; exact .inr rfl

/-- Settles O16: the flags each body leaves (`countBody_ok` and its like), the abort's, and a host write's. -/
theorem flagTableOfAllCommands : Obligations.FlagTableOfAllCommands := by
  refine ⟨fun i s t hx hs ht => ?completed, fun i s t hx hs ht => ?aborted, fun s t rest a hin ha hx => ?hostWrite⟩
  case completed =>
    rcases exec_eq_next hx with ⟨rfl, -, rfl⟩ | ⟨-, he, -⟩ | ⟨hi, -, u, hb, rfl⟩ | ⟨-, -, e, info, -, rfl⟩
    · rfl
    · exact absurd he hs
    · cases i with
      | reset => exact absurd rfl hi
      | count => obtain ⟨-, input, -, rfl⟩ := countBody_ok hb; rfl
      | build => obtain ⟨hf, -, rfl⟩ := buildBody_ok hb; simp only [show s.flags.freqValid = true from hf]
      | assign => obtain ⟨hf, codes, -, rfl⟩ := assignBody_ok hb; simp only [show s.flags.treeValid = true from hf]
      | encode => obtain ⟨-, -, input, -, -, -, rfl⟩ := encodeBody_ok hb; rfl
      | serialize => obtain ⟨-, -, p, -, -, rfl⟩ := serializeBody_ok hb; rfl
      | deserialize => obtain ⟨-, input, r, -, -, rfl⟩ := deserializeBody_ok hb; rfl
      | decode => obtain ⟨-, -, p, out, -, -, rfl⟩ := decodeBody_ok hb; rfl
      | compress => exact compressBody_flags (t := u) hb
      | decompress => exact decompressBody_flags (t := u) hb
      | nop => cases hb; rfl
    · exact absurd rfl ht
  case aborted =>
    rcases exec_eq_next hx with ⟨-, -, rfl⟩ | ⟨-, he, -⟩ | ⟨-, -, u, -, rfl⟩ | ⟨-, -, e, info, -, rfl⟩
    · cases ht
    · exact absurd he hs
    · cases ht
    · rfl
  case hostWrite =>
    obtain ⟨hc, hr⟩ : (∀ v, a ≠ .writeReg 0 v) ∧ ∀ sp i, a ≠ .read sp i := by
      rcases ha with ⟨k, b, rfl⟩ | ⟨v, rfl⟩ <;> exact ⟨nofun, nofun⟩
    rcases step_hostWrite_eq_next hin hc hr hx with rfl | rfl
    · rfl
    · rw [hostWrite_flags, takeWrite_flags]

/-! ## The homes -/

/-- DECOMPRESS writes neither FREQ nor the tree, since DESERIALIZE and DECODE do not (R194). -/
theorem decompressBody_keeps_tree {s t : State} (h : decompressBody s = .ok t) :
    t.freq = s.freq ∧ t.node = s.node ∧ t.nodeCount = s.nodeCount ∧ t.root = s.root ∧ t.pq = s.pq := by
  obtain ⟨s1, h1, h2⟩ := decompressBody_ok h
  obtain ⟨-, input, r, -, -, rfl⟩ := deserializeBody_ok h1
  obtain ⟨-, -, p, out, -, -, rfl⟩ := decodeBody_ok h2
  exact ⟨rfl, rfl, rfl, rfl, rfl⟩

/-- Settles O21: no body writes the host's homes (`keepsHost_body`), and each one's result names all it wrote. -/
theorem commandsWriteOnlyTheirHomes : Obligations.CommandsWriteOnlyTheirHomes := by
  intro i s t hr hx hd
  have hi : i ≠ .reset := by
    rintro rfl
    rw [exec_reset s (by rcases hr with h | h <;> rw [h] <;> nofun)] at hx
    cases hx
    cases hd
  obtain ⟨u, hb, rfl⟩ := body_of_done hi hr hx hd
  have hk := keepsHost_body hb
  refine ⟨hk.inBuf, hk.inLen, hk.err, hk.errInfo, hk.cfg, hk.inputs, hk.portData, ?_⟩
  cases i with
  | reset => exact absurd rfl hi
  | count => obtain ⟨-, input, -, rfl⟩ := countBody_ok hb; simp
  | build => obtain ⟨-, -, rfl⟩ := buildBody_ok hb; simp
  | assign => obtain ⟨-, codes, -, rfl⟩ := assignBody_ok hb; simp
  | encode => obtain ⟨-, -, input, -, -, -, rfl⟩ := encodeBody_ok hb; simp
  | serialize => obtain ⟨-, -, p, -, -, rfl⟩ := serializeBody_ok hb; simp
  | deserialize => obtain ⟨-, input, r, -, -, rfl⟩ := deserializeBody_ok hb; simp
  | decode => obtain ⟨-, -, p, out, -, -, rfl⟩ := decodeBody_ok hb; simp
  | compress => simp
  | decompress => simpa using decompressBody_keeps_tree hb
  | nop => cases hb; simp

end Sys2Proof.Machine
end

section
/-! PROOFS. The statements of spec/20_memory.md: host reads (R60, R61), the idle and the BUSY port (R67, R216), byte
packing (R64, R106), and that a call depends on its input alone (R72, R241). -/

namespace Sys2Proof.Machine

/-! ## The host port -/

/-- Settles O10: with no input a step changes nothing (`step_idle`), and in BUSY an access is held (`step_busy`). -/
theorem blockIdlesAndHoldsTheBusyPort : Obligations.BlockIdlesAndHoldsTheBusyPort :=
  fun _ => ⟨step_idle, fun _ _ hb hin => step_busy hin hb⟩

/-- Inside the space, a read meets the value the store has. -/
theorem readCell?_of_get? {α : Type} {m : Store α} {cap i : Nat} {v : α} (hi : i < cap) (hv : m.get? i = some v) :
    readCell? m cap i = some v :=
  (if_pos hi).trans hv

/-- Settles O13: `step_read` answers `hostRead`, which is the element where there is one (`readCell?_of_get?` in the
four buffers, the index check in the two tables). -/
theorem hostReadsReturnTheElement : Obligations.HostReadsReturnTheElement := by
  intro s rest sp i hs hin
  refine ⟨hostRead s sp i, step_read hin hs, ?inBuf, ?outBuf, ?node, ?bits, ?freq, ?code⟩
  case inBuf => rintro b rfl hi hb; rw [hostRead, readCell?_of_get? hi hb, Option.getD_some]
  case outBuf => rintro b rfl hi hb; rw [hostRead, readCell?_of_get? hi hb, Option.getD_some]
  case node => rintro e rfl hi he; rw [hostRead, readCell?_of_get? (cap := Config.nodeCap) hi he, Option.getD_some]
  case bits => rintro b rfl hi hb; rw [hostRead, readCell?_of_get? hi hb, Option.getD_some]
  case freq => rintro rfl hi; rw [hostRead, if_pos hi]
  case code => rintro rfl hi; rw [hostRead, if_pos hi]

/-! ## Byte packing -/

/-- Settles O47: packing and unpacking undo each other, and the bits of a byte stand most significant first. -/
theorem bytePackingIsABijection : Obligations.BytePackingIsABijection := by
  refine ⟨fun l => ?bytes, fun b hb => ?bits, fun l i w hw => ?position⟩
  case bytes => exact bsToBytes_bsFromBytes l
  case bits => exact bsFromBytes_bsToBytes hb
  case position => exact bsFromBytes_getElem? hw

/-! ## Independent calls -/

/-- What two calls answer alike, however they end; `same` is what they have in common when both complete. -/
def Agree (t t' : State) (same : Prop) : Prop :=
  t.seq = t'.seq ∧ t.flags = t'.flags ∧ t.outLen = t'.outLen ∧
    (t.seq = .error → t.err = t'.err ∧ t.errInfo = t'.errInfo) ∧ (t.seq = .done → same)

/-- Where a command's body raises the same error from two states, with a number that fits ERR_INFO, the aborts agree. -/
theorem agree_of_raise {i : Instr} {s s' t t' : State} {e : Err} {info : Nat} {same : Prop} (hi : i ≠ .reset)
    (hr : Ready s) (hr' : Ready s') (hcfg : s.cfg = s'.cfg) (hlt : info < 2 ^ s.cfg.bitposW)
    (hb : bodyOf i { s with seq := .busy } = .error (.raise e info))
    (hb' : bodyOf i { s' with seq := .busy } = .error (.raise e info))
    (hx : exec i s = .next t) (hx' : exec i s' = .next t') : Agree t t' same := by
  cases (exec_of_raise hi hr hb).symm.trans hx
  cases (exec_of_raise hi hr' hb').symm.trans hx'
  have hinfo : errInfoValue s.cfg s.draw info = errInfoValue s'.cfg s'.draw info := by
    rw [errInfoValue_of_lt hlt, errInfoValue_of_lt (hcfg ▸ hlt)]
  exact ⟨rfl, rfl, rfl, fun _ => ⟨rfl, hinfo⟩, nofun⟩

/-- Settles O56: a whole call is a function of the input and the parameters (`compressBody_cases`,
`decompressBody_cases`): it raises the same error in both states, or leaves the same results, `compressed` and
`decompressed`, which differ only in what the call does not write and in the seeds of its buffers. -/
theorem wholeCallsDependOnlyOnTheInput : Obligations.WholeCallsDependOnlyOnTheInput := by
  intro s s' t t' input hr hr' hcfg hin hin' hlen
  have fits {info : Nat} (h : info ≤ 8 * input.length) : info < 2 ^ s.cfg.bitposW :=
    lt_bitposW_of_inLen hlen (by rw [hin.1]; exact h)
  refine ⟨fun hx hx' => ?compress, fun hx hx' => ?decompress⟩
  case compress =>
    rcases compressBody_cases s.cfg input with ⟨e, info, hle, -, hb⟩ | ⟨-, -, codes, -, -, -, -, -, hb⟩
    · exact agree_of_raise (i := .compress) nofun hr hr' hcfg (fits (by omega)) (hb _ rfl hin)
        (hb _ hcfg.symm hin') hx hx'
    · cases (exec_of_ok (i := .compress) nofun hr (hb _ rfl hin)).symm.trans hx
      cases (exec_of_ok (i := .compress) nofun hr' (hb _ hcfg.symm hin')).symm.trans hx'
      exact ⟨rfl, rfl, rfl, nofun, fun _ => ⟨rfl, rfl, rfl, rfl, rfl, rfl, rfl, rfl, rfl, rfl, rfl⟩⟩
  case decompress =>
    rcases decompressBody_cases s.cfg input with ⟨e, info, hle, -, hb⟩ | ⟨-, r, out, -, -, hb⟩
    · exact agree_of_raise (i := .decompress) nofun hr hr' hcfg (fits hle) (hb _ rfl hin)
        (hb _ hcfg.symm hin') hx hx'
    · cases (exec_of_ok (i := .decompress) nofun hr (hb _ rfl hin)).symm.trans hx
      cases (exec_of_ok (i := .decompress) nofun hr' (hb _ hcfg.symm hin')).symm.trans hx'
      exact ⟨rfl, rfl, rfl, nofun, fun _ => ⟨rfl, rfl, rfl, rfl, rfl, rfl⟩⟩

end Sys2Proof.Machine
end

section
/-! PROOFS. The statements of spec/30_encoding.md: the command word and its decoder (R80, R81, R83), the illegal word
(R202), and the blob (R86 to R93). -/

namespace Sys2Proof.Machine

/-! ## The opcode map (R81) -/

theorem decodeOpcode_opcodeOf (i : Instr) : decodeOpcode (opcodeOf i) = .ok i := by cases i <;> rfl

theorem opcodeOf_of_decodeOpcode_ok {op : BitVec 8} {i : Instr} (h : decodeOpcode op = .ok i) : op = opcodeOf i := by
  unfold decodeOpcode at h
  split at h <;> cases h
  all_goals exact BitVec.eq_of_toNat_eq ‹_›

/-- Reading the map undoes writing it. -/
theorem decodeOpcode_eq_ok {op : BitVec 8} {i : Instr} : decodeOpcode op = .ok i ↔ op = opcodeOf i := by
  refine ⟨opcodeOf_of_decodeOpcode_ok, ?_⟩
  rintro rfl
  exact decodeOpcode_opcodeOf i

/-- The map names the opcodes 0x01 to 0x0B, without a gap (R83). -/
theorem decodeOpcode_toOption_eq_none {op : BitVec 8} :
    (decodeOpcode op).toOption = none ↔ op = 0 ∨ 0x0B < op.toNat := by
  rw [show op = 0 ↔ op.toNat = 0 from BitVec.toNat_inj.symm]
  unfold decodeOpcode
  split
  case h_12 => simp only [imp_false] at *; exact ⟨fun _ => by omega, fun _ => rfl⟩
  all_goals exact ⟨nofun, by omega⟩

/-! ## The command word (R80, R83) -/

/-- A command's word is its opcode with zeros above it. -/
theorem eq_encode_iff {w : Word} {i : Instr} : w = encode i ↔ zeroField w = 0 ∧ opcodeField w = opcodeOf i := by
  have hw := w.isLt
  have hop := (opcodeOf i).isLt
  simp only [encode, zeroField, opcodeField, ← BitVec.toNat_inj, BitVec.toNat_setWidth, BitVec.extractLsb'_toNat,
    Nat.shiftRight_eq_div_pow, BitVec.ofNat_eq_ofNat, BitVec.toNat_ofNat]
  omega

theorem decode_eq_ok {w : Word} {i : Instr} : decode w = .ok i ↔ w = encode i := by
  rw [eq_encode_iff]
  unfold decode
  split
  case isTrue hz => rw [decodeOpcode_eq_ok]; exact (and_iff_right hz).symm
  case isFalse hz => exact ⟨nofun, fun h => absurd h.1 hz⟩

theorem decode_encode (i : Instr) : decode (encode i) = .ok i := decode_eq_ok.mpr rfl

/-- The decoder refuses R83's illegal words and no others. -/
theorem decode_toOption_eq_none {w : Word} :
    (decode w).toOption = none ↔
      w.extractLsb 31 8 ≠ 0 ∨ w.extractLsb 7 0 = 0 ∨ 0x0B < (w.extractLsb 7 0).toNat := by
  show _ ↔ zeroField w ≠ 0 ∨ opcodeField w = 0 ∨ 0x0B < (opcodeField w).toNat
  unfold decode
  split
  case isTrue hz => rw [decodeOpcode_toOption_eq_none]; exact (or_iff_right (not_not_intro hz)).symm
  case isFalse hz => exact ⟨fun _ => .inl hz, fun _ => rfl⟩

/-- Settles O1: each of the eleven words is its command's (`decode_encode`), and each of the others breaks a clause of
R83 (`decode_toOption_eq_none`). -/
theorem opcodeWordsDecodeToTheirCommands : Obligations.OpcodeWordsDecodeToTheirCommands :=
  ⟨decode_encode .reset, decode_encode .count, decode_encode .build, decode_encode .assign, decode_encode .encode,
    decode_encode .serialize, decode_encode .deserialize, decode_encode .decode, decode_encode .compress,
    decode_encode .decompress, decode_encode .nop, decode_toOption_eq_none.mpr (by decide),
    decode_toOption_eq_none.mpr (by decide), decode_toOption_eq_none.mpr (by decide),
    decode_toOption_eq_none.mpr (by decide)⟩

/-- Settles O2: the two answers of the decoder, `decode_eq_ok` and `decode_toOption_eq_none`. -/
theorem decodeAcceptsExactlyTheElevenWords : Obligations.DecodeAcceptsExactlyTheElevenWords :=
  ⟨fun _ _ => decode_eq_ok, fun _ => decode_toOption_eq_none⟩

/-! ## An illegal word (R202) -/

theorem illegalCommand_ready (w : Word) {s : State} (h : Ready s) :
    illegalCommand w s = .next (abort .illegalCommand w.toNat s) := runCommand_ready h

/-- A CMD write of a word that is no command (R190). -/
theorem step_illegalWord {s : State} {w : Word} {rest : List HostInput}
    (hin : s.inputs = .access (.writeReg 0 w.toNat) :: rest) (hs : s.seq ≠ .busy) (hd : (decode w).toOption = none) :
    step s = illegalCommand w (takeWrite s rest) := by
  rw [step_cmdWrite hin hs w.isLt, BitVec.ofNat_toNat, BitVec.setWidth_eq]
  cases h : decode w with
  | ok i => rw [h] at hd; cases hd
  | error e => rfl

theorem Ready.ne_busy {s : State} (h : Ready s) : s.seq ≠ .busy := by
  rcases h with h | h <;> rw [h] <;> nofun

/-- Settles O7: the decoder refuses the word, so the step is the abort of IllegalCommand. Its ERR_INFO is the word where
that fits the register (`errInfoValue_of_lt`), and fits it in any case (`errInfoValue_lt`). -/
theorem illegalWordRaisesIllegalCommand : Obligations.IllegalWordRaisesIllegalCommand := by
  intro s w rest hin hr hw
  have hr' : Ready (takeWrite s rest) := hr
  have hstep : step s = .next (abort .illegalCommand w.toNat (takeWrite s rest)) :=
    (step_illegalWord hin hr.ne_busy (decode_toOption_eq_none.mpr hw)).trans (illegalCommand_ready w hr')
  refine ⟨_, hstep, ?aborted, fun hfit => ?info, ?width⟩
  case aborted => exact ⟨rfl, rfl, rfl, rfl, rfl, rfl, rfl, rfl, rfl, rfl⟩
  case info => exact errInfoValue_of_lt hfit _
  case width => exact errInfoValue_lt _ _ _

/-! ## The blob (R86 to R93) -/

/-- Settles O35: the blob's length field by field (`blobBits_length`), with the pad of R87. -/
theorem blobLengthFormula : Obligations.BlobLengthFormula := by
  intro codes p
  exact ⟨blobBits_mod codes p, blobPad codes p, blobPad_le codes p, blobBits_length codes p⟩

/-- Settles O36: the blob parses to its fields (`parseBlob_ok`), which DESERIALIZE writes (`deserializeBody_eq`);
SYM_COUNT holds the count, since a table has at most 256 entries. -/
theorem deserializeReadsTheFields : Obligations.DeserializeReadsTheFields := by
  intro s input es p padBits hr hin hcap hes hone hpad hblob hp
  have hparse := parseBlob_ok hes hone hpad hp
  rw [← hblob] at hparse
  have hbody := deserializeBody_eq (s := { s with seq := .busy }) hin hcap hparse
  have hcount := hes.length_le
  refine ⟨_, exec_of_ok (i := .deserialize) nofun hr hbody, rfl, ?payload, ?only, ?count, ?pad, rfl⟩
  case payload => exact ⟨rfl, (Store.holdsOnly_ofList p _).holds⟩
  case only => exact Store.holdsOnly_ofList p _
  case count => exact toNat_ofNat9 (show es.length < 512 by omega)
  case pad => exact Nat.mod_eq_of_lt (show padBits.length < 2 ^ 3 by omega)

end Sys2Proof.Machine
end

section
/-! PROOFS. The statements of spec/41_frequency.md: COUNT (R110, R111), and the empty input (R112). -/

namespace Sys2Proof.Machine

/-- COUNT of a written input within IN_CAP completes, with the input's table and the number of its symbols (R111). -/
theorem exec_count {s : State} {input : List Byte} (hr : Ready s) (hin : InputIs s input)
    (hcap : s.inLen ≤ s.cfg.inCap) :
    exec .count s = .next { s with
      seq := .done
      flags := { Flags.clear with freqValid := true }
      freq := freqOf input
      symCount := BitVec.ofNat 9 (distinctSymbols (freqOf input)) } :=
  exec_of_ok (i := .count) nofun hr (countBody_eq (s := { s with seq := .busy }) hin hcap)

/-- BUILD of a table with no symbol in it raises EmptyInput (R126). -/
theorem exec_build_noSymbol {s : State} (hr : Ready s) (hf : s.flags.freqValid = true)
    (hd : distinctSymbols s.freq = 0) : exec .build s = .next (abort .emptyInput 0 s) := by
  have hcovers : s.flags.covers (flagsNeeded .build) = true := by simp [Flags.covers, flagsNeeded, Flags.clear, hf]
  exact exec_of_raise (i := .build) nofun hr (stage_eq_error.mpr (.inr ⟨hcovers, buildEffect_eq_error.mpr ⟨hd, rfl⟩⟩))

theorem inputIs_nil {s : State} (h : s.inLen = 0) : InputIs s [] := ⟨h, nofun⟩

/-- Settles O22: COUNT leaves `freqOf` of the input (`exec_count`), and the counts are what that table's own laws say. -/
theorem countTabulatesTheInput : Obligations.CountTabulatesTheInput := by
  intro s input hr hin hcap
  refine ⟨_, exec_count hr hin hcap, fun b => ?counts, ?total, ?symbols, rfl⟩
  case counts => exact tableGet_freqOf input b
  case total => exact (freqTotal_freqOf input).trans hin.1.symm
  case symbols => exact (toNat_ofNat_distinctSymbols _).trans (distinctSymbols_freqOf input)

/-- Settles O23: an empty input is written and fits whatever IN holds, so COUNT completes (`exec_count`); its table has
no symbol, which stops BUILD (`exec_build_noSymbol`). -/
theorem emptyInputIsBuildsError : Obligations.EmptyInputIsBuildsError := by
  intro s hr hlen
  have hd : distinctSymbols (freqOf []) = 0 := distinctSymbols_freqOf []
  refine ⟨_, exec_count hr (inputIs_nil hlen) (by omega), rfl, fun b => ?counts, ?symbols, rfl, _,
    exec_build_noSymbol (.inr rfl) rfl hd, ?aborted⟩
  case counts => exact tableGet_freqOf [] b
  case symbols => exact congrArg (BitVec.ofNat 9) hd
  case aborted => exact aborted_abort (Nat.two_pow_pos _)

end Sys2Proof.Machine
end

section
/-! PROOFS. The statements of spec/42_tree_builder.md about EXTRACT_MIN (R122) and BUILD (R125 to R129). -/

namespace Sys2Proof.Machine

/-- Settles O48: `extractMin_spec`; the others left are the queue filtered by `≠ m`. -/
theorem extractMinReturnsTheLeastKey : Obligations.ExtractMinReturnsTheLeastKey := by
  intro nodes pq hne
  obtain ⟨m, hextract, hmem, hleast⟩ := extractMin_spec nodes hne
  refine ⟨m, _, hextract, hmem, fun j => ?others, hleast⟩
  case others => rw [List.mem_filter, decide_eq_true_eq]

/-! ## What BUILD leaves -/

/-- BUILD of a table with a symbol in it completes, with the forest of that table (R126). -/
theorem exec_build {s : State} (hr : Ready s) (hf : s.flags.freqValid = true) (hd : 0 < distinctSymbols s.freq) :
    exec .build s = .next { s with
      seq := .done
      flags := { Flags.clear with freqValid := true, treeValid := true }
      node := Store.ofList (buildForest s.freq).nodes s.draw
      nodeCount := BitVec.ofNat 10 (buildForest s.freq).nodes.length
      root := BitVec.ofNat 9 ((buildForest s.freq).pq.headD 0)
      pq := (buildForest s.freq).pq
      draw := s.draw + 1 } :=
  exec_of_ok (i := .build) nofun hr (buildBody_eq (s := { s with seq := .busy }) hf hd)

/-- A BUILD that ended in DONE had a symbol to build from, and NODE holds the forest of FREQ. -/
theorem nodes_of_build_done {s t : State} {nodes : List NodeEntry} (hr : Ready s) (hx : exec .build s = .next t)
    (hdone : t.seq = .done) (hnodes : t.node.HoldsOnly nodes) :
    0 < distinctSymbols s.freq ∧ nodes = (buildForest s.freq).nodes := by
  obtain ⟨u, hb, rfl⟩ := body_of_done (i := .build) nofun hr hx hdone
  obtain ⟨-, hd, rfl⟩ := buildBody_ok hb
  exact ⟨hd, hnodes.unique (Store.holdsOnly_ofList _ _)⟩

/-- Settles O24: BUILD leaves the forest of FREQ (`exec_build`); its size and its queue are what `buildForest_ok` says,
and its leaves and internal nodes what the loop's invariant `ForestOk` says. -/
theorem buildWritesLeavesThenInternalNodes : Obligations.BuildWritesLeavesThenInternalNodes := by
  intro s hr hf hd
  obtain ⟨hok, hlen, hpq⟩ := buildForest_ok hd
  refine ⟨_, (buildForest s.freq).nodes, exec_build hr hf hd, Store.holdsOnly_ofList _ _, hlen, ?count,
    buildForest_root hd, hpq, hok.leaves, fun k e hk he => ?inner, rfl⟩
  case count => exact (buildForest_registers hd).1.trans hlen.symm
  case inner =>
    have hi := hok.inner k e hk he
    exact ⟨hi.kind, hi.sym⟩

/-- Settles O26: NODE holds the forest of FREQ (`nodes_of_build_done`), and the loop's invariant keeps for each internal
node that its children were the two least keys left when it was made. -/
theorem buildCombinesTheTwoLeastNodes : Obligations.BuildCombinesTheTwoLeastNodes := by
  intro s t nodes hr _ hx hdone hnodes k e he hk
  obtain ⟨hd, rfl⟩ := nodes_of_build_done hr hx hdone hnodes
  have hi := buildForest_internal hd he hk
  exact ⟨hi.fresh, hi.leastLeft, hi.leastRight⟩

/-! ## BUILD then ASSIGN -/

theorem exec_build_treeIsBuilt {s : State} (hr : Ready s) (hf : s.flags.freqValid = true)
    (hd : 0 < distinctSymbols s.freq) :
    ∃ t, exec .build s = .next t ∧ Ready t ∧ t.flags.treeValid = true ∧ TreeIsBuilt t :=
  ⟨_, exec_build hr hf hd, .inr rfl, rfl, treeIsBuilt_of (freq := s.freq) (d := s.draw) hd rfl rfl rfl rfl rfl⟩

/-- ASSIGN completes with the code table of the tree in NODE (R142). -/
theorem exec_assign {s : State} {codes : Table CodeEntry} (hr : Ready s) (hf : s.flags.treeValid = true)
    (hc : assignCodes s = .ok codes) :
    exec .assign s = .next { s with
      seq := .done
      flags := { Flags.clear with freqValid := s.flags.freqValid, treeValid := true, codeValid := true }
      code := codes } := by
  have hbusy : assignCodes { s with seq := .busy } = assignCodes s := assignCodes_congr (fun _ => rfl) rfl
  exact exec_of_ok (i := .assign) nofun hr (assignBody_eq (s := { s with seq := .busy }) hf (hbusy.trans hc))

/-- Settles O29: BUILD leaves the tree of FREQ (`exec_build_treeIsBuilt`), and ASSIGN of such a tree answers a
table with `PrefixFree` and `CodesInRange` (`assignCodes_ok`), so it raises nothing. -/
theorem buildThenAssignIsPrefixFree : Obligations.BuildThenAssignIsPrefixFree := by
  intro s hr hf hd
  obtain ⟨t, hbuild, hready, hvalid, htree⟩ := exec_build_treeIsBuilt hr hf hd
  obtain ⟨codes, hcodes, -, hrange, hfree, -⟩ := assignCodes_ok htree
  exact ⟨t, _, hbuild, exec_assign hready hvalid hcodes, rfl, hfree, hrange⟩

end Sys2Proof.Machine
end

section
/-! PROOFS. The statements of spec/43_code_table.md: ASSIGN (R140 to R145); and what follows from its codes being 1 to
255 bits long: COMPRESS completes where the capacities allow (R193), and every command ends (R240). -/

namespace Sys2Proof.Machine

/-! ## ASSIGN -/

/-- Settles O27: ASSIGN completes with the codes of the tree (`exec_assign`), which `assignCodes_ok` describes; a code
that leads to its symbol's leaf (`LeafAt`) is the path the statement asks for. -/
theorem assignCodesAreRootToLeafPaths : Obligations.AssignCodesAreRootToLeafPaths := by
  intro s hr hf htree
  obtain ⟨codes, hcodes, hcoded, -, -, hpath⟩ := assignCodes_ok htree
  exact ⟨_, (buildForest s.freq).nodes, exec_assign hr hf hcodes, htree.nodes, hcoded, hpath, rfl⟩

/-- The code table of a single-leaf tree (R143). -/
theorem assignCodes_of_leaf {s : State} {e : NodeEntry} (he : s.node.get? s.root.toNat = some e) (hk : e.kind = .leaf) :
    assignCodes s = .ok (tableSet noCodes e.sym (some [false])) := by
  have hread : readNode s s.root.toNat = .ok e := by rw [readNode, he]
  exact bind_eq_ok.mpr ⟨e, hread, by simp only [hk]⟩

/-- Settles O28: where ROOT is a leaf, the one entry ASSIGN sets is its symbol's (`assignCodes_of_leaf`). -/
theorem singleLeafGetsTheCodeZero : Obligations.SingleLeafGetsTheCodeZero := by
  intro s e hr hf he hk
  refine ⟨_, exec_assign hr hf (assignCodes_of_leaf he hk), rfl, ?leaf, fun b hb => ?others⟩
  case leaf => exact (tableGet_tableSet _ _ _ _).trans (if_pos rfl)
  case others =>
    exact ((tableGet_tableSet _ _ _ _).trans (if_neg hb.symm)).trans (tableGet_noCodes b)

/-! ## COMPRESS within the capacities -/

/-- The codes in a blob take at most 255 bits each, and there are at most 256 of them. -/
theorem sum_entryLengths_le {codes : Table CodeEntry} (hrange : CodesInRange codes) :
    ((entriesOf codes).map fun e => e.2.length).sum ≤ 256 * 255 := by
  have hcode : ∀ n ∈ (entriesOf codes).map fun e => e.2.length, n ≤ 255 := by
    intro n hn
    obtain ⟨e, he, rfl⟩ := List.mem_map.mp hn
    exact (codeWellFormed_iff.mp (hrange e.1 e.2 (mem_entriesOf.mp he))).2
  have hsum := List.sum_le_card_nsmul _ 255 hcode
  rw [List.length_map, entriesOf_length, smul_eq_mul] at hsum
  exact hsum.trans (Nat.mul_le_mul_right 255 (entryCount_le codes))

/-- No blob of a table of codes in range is longer than this (R93). -/
theorem blobBytes_le {codes : Table CodeEntry} (hrange : CodesInRange codes) {p : Bits} {n : Nat}
    (hp : p.length ≤ 255 * n) : (blobBits codes p).length / 8 ≤ 8674 + 32 * n := by
  have hlen := blobBits_length codes p
  have hsum := sum_entryLengths_le hrange
  have hcount := entryCount_le codes
  have hpad := blobPad_le codes p
  rw [entriesOf_length] at hlen
  omega

theorem distinctSymbols_freqOf_pos {input : List Byte} (h : input ≠ []) : 0 < distinctSymbols (freqOf input) := by
  obtain ⟨b, hb⟩ := List.exists_mem_of_ne_nil input h
  exact distinctSymbols_pos.mpr ⟨b, by rw [tableGet_freqOf]; exact List.count_pos_iff.mpr hb⟩

/-- ENCODE's body on bytes that have codes and whose payload fits (R150). -/
theorem encodeBody_eq_ok {s : State} {input : List Byte} (hin : InputIs s input) (hf : s.flags.codeValid = true)
    (hcap : s.inLen ≤ s.cfg.inCap) (hall : AllCoded s.code input)
    (hbits : (encodeBytes s.code input).length ≤ s.cfg.bitsCap) :
    encodeBody s = .ok { s with
      flags := { s.flags with bitsValid := true, outValid := false }
      bits := Store.ofList (encodeBytes s.code input) s.draw
      bitsLen := (encodeBytes s.code input).length
      draw := s.draw + 1 } :=
  encodeBody_eq hin hf hcap (packList_ok hall (by omega))

/-- SERIALIZE's body on a payload whose blob fits (R171). -/
theorem serializeBody_eq_ok {s : State} {p : Bits} (hp : PayloadIs s p) (hf : s.flags.codeValid = true)
    (hf' : s.flags.bitsValid = true) (hout : (blobBits s.code p).length / 8 ≤ s.cfg.outCap) :
    serializeBody s = .ok { s with
      flags := { s.flags with outValid := true }
      outBuf := Store.ofList (bsToBytes (blobBits s.code p)) s.draw
      outLen := (blobBits s.code p).length / 8
      padLen := BitVec.ofNat 3 (blobPad s.code p)
      draw := s.draw + 1 } :=
  (serializeBody_eq hp hf hf').trans (if_neg (Nat.not_lt.mpr hout))

/-- COMPRESS's five bodies one after another, where the payload and the blob fit (R193). -/
theorem compressBody_eq_ok {s : State} {input : List Byte} {codes : Table CodeEntry} (hin : InputIs s input)
    (hcap : s.inLen ≤ s.cfg.inCap) (hne : input ≠ []) (hall : AllCoded codes input)
    (hcodes : ∀ u : State, u.freq = freqOf input → TreeIsBuilt u → assignCodes u = .ok codes)
    (hbits : (encodeBytes codes input).length ≤ s.cfg.bitsCap)
    (hout : (blobBits codes (encodeBytes codes input)).length / 8 ≤ s.cfg.outCap) :
    compressBody s = .ok (compressed codes input s) := by
  have hd := distinctSymbols_freqOf_pos hne
  refine bind_eq_ok.mpr ⟨_, countBody_eq hin hcap, bind_eq_ok.mpr ⟨_, buildBody_eq rfl hd, bind_eq_ok.mpr ⟨_,
    assignBody_eq rfl (hcodes _ rfl (treeIsBuilt_of hd rfl rfl rfl rfl rfl)), bind_eq_ok.mpr ⟨_,
    encodeBody_eq_ok (input := input) ?written rfl ?fits ?coded ?bits, ?serialize⟩⟩⟩⟩
  case written => exact hin
  case fits => exact hcap
  case coded => exact hall
  case bits => exact hbits
  case serialize => exact serializeBody_eq_ok ⟨rfl, (Store.holdsOnly_ofList _ _).holds⟩ rfl rfl hout

/-- Settles O51: the input's codes are at most 255 bits long (`exists_codes`), so its payload has at most 255n bits
(`encodeBytes_length_le`) and its blob at most 8674 + 32n bytes (`blobBytes_le`), and the five bodies complete
(`compressBody_eq_ok`). -/
theorem compressCompletesWithinCapacity : Obligations.CompressCompletesWithinCapacity := by
  intro s input hr hin hcap hne hbits hout
  obtain ⟨codes, hcoded, hrange, -, hcodes⟩ := exists_codes (distinctSymbols_freqOf_pos hne)
  have hpayload := encodeBytes_length_le (fun b c hbc => (codeWellFormed_iff.mp (hrange b c hbc)).2) input
  have hbody : compressBody { s with seq := .busy } = .ok (compressed codes input { s with seq := .busy }) :=
    compressBody_eq_ok (s := { s with seq := .busy }) hin hcap hne (allCoded_input hcoded) hcodes (hpayload.trans hbits)
      ((blobBytes_le hrange hpayload).trans hout)
  refine ⟨_, encodeBytes codes input, exec_of_ok (i := .compress) nofun hr hbody, rfl, rfl, tableGet_freqOf input, rfl,
    ?payload, ?output, rfl, rfl⟩
  case payload => exact ⟨rfl, (Store.holdsOnly_ofList _ _).holds⟩
  case output => exact ⟨(bsToBytes_length (blobBits_mod _ _)).symm, (Store.holdsOnly_ofList _ _).holds⟩

/-! ## Every command ends (R240) -/

/-- What R240 and R144 allow a computation to answer: a result, or an error to raise that is not CodeLengthOverflow; no
fault. -/
def Ends {α : Type} : Except Stop α → Prop
  | .ok _ => True
  | .error (.raise e _) => e ≠ .codeLengthOverflow
  | .error (.fault _) => False

/-- One computation after another ends where both do. -/
theorem Ends.bind {α β : Type} {x : Except Stop α} {f : α → Except Stop β} (hx : Ends x)
    (hf : ∀ a, x = .ok a → Ends (f a)) : Ends (x >>= f) := by
  cases x with
  | ok a => exact hf a rfl
  | error e => cases e <;> exact hx

/-- A body ends where its effect does; the flag check raises BadSequence (R203). -/
theorem ends_stage {i : Instr} {effect : State → Except Stop State} {s : State}
    (h : s.flags.covers (flagsNeeded i) = true → Ends (effect { s with flags := s.flags.without (flagsCleared i) })) :
    Ends (stage i effect s) := by
  unfold stage
  split
  · next hc => exact (h hc).bind fun _ _ => trivial
  · exact nofun

/-! ### The operands -/

theorem ends_checkInputLength (s : State) : Ends (checkInputLength s) := by
  unfold checkInputLength
  split
  · exact nofun
  · trivial

theorem ends_readFrom {α : Type} {m : Store α} {f : Nat → Fault} {n : Nat} (h : m.Specified n) :
    Ends (readFrom m f 0 n) := by
  obtain ⟨l, hl⟩ := readFrom_ok_of_specified (f := f) h
  rw [hl]
  trivial

/-! ### What each effect computes -/

theorem ends_assignCodes {s : State} (h : TreeIsBuilt s) : Ends (assignCodes s) := by
  obtain ⟨codes, hc, -⟩ := assignCodes_ok h
  rw [hc]
  trivial

theorem ends_packFrom {s : State} (h : s.inBuf.Specified s.inLen) : Ends (packFrom s s.inLen 0 0) := by
  obtain ⟨input, hin⟩ := exists_list_of_specified h
  rw [packFrom_input hin]
  rcases packList_cases s.code s.cfg.bitsCap 0 0 input with ⟨-, hp, -⟩ | ⟨_, -, -, -, hp⟩ | ⟨_, -, -, hp⟩ <;> rw [hp]
  · trivial
  · exact nofun
  · exact nofun

theorem ends_parseBlob (bitsCap : Nat) (b : Bits) : Ends (parseBlob bitsCap b) := by
  rcases parseBlob_cases bitsCap b with ⟨r, hp, -⟩ | ⟨_, -, hp⟩ | ⟨_, -, hp⟩ <;> rw [hp]
  · trivial
  · exact nofun
  · exact nofun

/-- DECODE's loop ends within as many turns as there are bits, since no code is empty. -/
theorem ends_unpackFrom {codes : Table CodeEntry} (hr : CodesInRange codes) (b : Bits) (outCap : Nat) :
    Ends (unpackFrom codes b outCap b.length 0 0) := by
  rcases unpackFrom_cases (outCap := outCap) (k := 0) hr (Nat.zero_le b.length) (Nat.sub_le _ 0) with
    ⟨_, ho, -⟩ | ⟨_, -, -, ho⟩ | ⟨_, -, -, ho⟩ <;> rw [ho]
  · trivial
  · exact nofun
  · exact nofun

/-! ### The commands -/

/-- The commands that read IN (R82). -/
def readsInput : List Instr := [.count, .encode, .deserialize, .compress, .decompress]

/-- The flags SERIALIZE and DECODE need (R34). -/
theorem payload_flags_of_covers {f : Flags} (h : f.covers (flagsNeeded .decode) = true) :
    f.codeValid = true ∧ f.bitsValid = true := by
  simpa [Flags.covers, flagsNeeded, Flags.clear] using h

/-- A command of one body ends from every state that holds what its flags promise (R34, R46), with the bytes of IN
written if it reads them. -/
theorem ends_single {i : Instr} {s : State} (hi : isSingle i = true) (h : Running s)
    (hin : i ∈ readsInput → s.inBuf.Specified s.inLen) : Ends (bodyOf i s) := by
  cases i with
  | reset | nop => trivial
  | count =>
    exact ends_stage fun _ => (ends_checkInputLength _).bind fun _ _ =>
      (ends_readFrom (hin (by decide))).bind fun _ _ => trivial
  | build =>
    refine ends_stage fun _ => ?_
    unfold buildEffect
    split
    · exact nofun
    · trivial
  | assign =>
    refine ends_stage fun hc => Ends.bind (ends_assignCodes ?_) fun _ _ => trivial
    have hf : s.flags.treeValid = true := by simpa [Flags.covers, flagsNeeded, Flags.clear] using hc
    exact (h.inv.treeValid hf).2.congr rfl rfl rfl rfl rfl
  | encode =>
    refine ends_stage fun _ => (ends_checkInputLength _).bind fun _ _ =>
      Ends.bind (ends_packFrom ?_) fun _ _ => trivial
    exact hin (by decide)
  | serialize =>
    refine ends_stage fun hc => Ends.bind (ends_readFrom ?_) fun _ _ => ?_
    · exact (h.inv.bitsValid (payload_flags_of_covers hc).2).1
    · dsimp only
      split
      · exact nofun
      · trivial
  | deserialize =>
    exact ends_stage fun _ => (ends_checkInputLength _).bind fun _ _ =>
      (ends_readFrom (hin (by decide))).bind fun _ _ => (ends_parseBlob _ _).bind fun _ _ => trivial
  | decode =>
    refine ends_stage fun hc => ?_
    obtain ⟨hcode, hbits⟩ := payload_flags_of_covers hc
    refine Ends.bind (ends_readFrom (h.inv.bitsValid hbits).1) fun p hp => Ends.bind ?_ fun _ _ => trivial
    rw [(readPayload_eq_ok.mp hp).1]
    exact ends_unpackFrom (h.inv.codeValid hcode).1 p _
  | compress | decompress => cases hi

/-- A body of a whole call with the rest of the call behind it: what follows runs on with the same input. -/
theorem ends_single_bind {i : Instr} {s : State} {rest : State → Except Stop State} (hi : isSingle i = true)
    (h : Running s) (hin : s.inBuf.Specified s.inLen)
    (hrest : ∀ u, Running u → u.inBuf.Specified u.inLen → Ends (rest u)) : Ends (bodyOf i s >>= rest) := by
  refine (ends_single hi h fun _ => hin).bind fun u hu => ?_
  have hk := keepsHost_single hi hu
  exact hrest u (h.next hi hu) (by rwa [hk.inBuf, hk.inLen])

theorem ends_compress {s : State} (h : Running { s with flags := s.flags.without Flags.all })
    (hin : s.inBuf.Specified s.inLen) : Ends (compressBody s) :=
  ends_single_bind (i := .count) rfl h hin fun _ h1 hin1 =>
    ends_single_bind (i := .build) rfl h1 hin1 fun _ h2 hin2 =>
      ends_single_bind (i := .assign) rfl h2 hin2 fun _ h3 hin3 =>
        ends_single_bind (i := .encode) rfl h3 hin3 fun _ h4 hin4 =>
          ends_single (i := .serialize) rfl h4 fun _ => hin4

theorem ends_decompress {s : State} (h : Running { s with flags := s.flags.without Flags.all })
    (hin : s.inBuf.Specified s.inLen) : Ends (decompressBody s) :=
  ends_single_bind (i := .deserialize) rfl h hin fun _ h1 hin1 => ends_single (i := .decode) rfl h1 fun _ => hin1

/-- Every command's body ends, run from a ready state that meets the invariant. -/
theorem ends_body {i : Instr} {s : State} (h : Inv s) (hr : Ready s)
    (hin : i ∈ readsInput → s.inBuf.Specified s.inLen) : Ends (bodyOf i { s with seq := .busy }) := by
  have he := ready_noError h hr
  have hstart := running_start h he
  by_cases hi : isSingle i = true
  · exact ends_single hi ⟨rfl, he, inv_done (s := s) h he⟩ hin
  · cases i with
    | compress => exact ends_compress hstart (hin (by decide))
    | decompress => exact ends_decompress hstart (hin (by decide))
    | _ => exact absurd rfl hi

theorem Ready.ne_error {s : State} (h : Ready s) : s.seq ≠ .error := by
  rcases h with h | h <;> rw [h] <;> nofun

theorem Err.code_ne_four {e : Err} (h : e ≠ .codeLengthOverflow) : e.code ≠ 4 := by
  cases e with
  | codeLengthOverflow => exact absurd rfl h
  | _ => decide

/-- Settles O59: RESET recovers (`exec_reset`), in ERROR nothing happens, and otherwise the body ends (`ends_body`): in
DONE with ERR kept, or in the abort of an error that is not CodeLengthOverflow. -/
theorem everyCommandEnds : Obligations.EveryCommandEnds := by
  intro i s h hin
  by_cases hi : i = .reset
  · subst hi
    exact ⟨_, exec_reset s h.notBusy, fun _ => rfl, (absurd rfl ·), (absurd rfl ·), fun _ => nofun⟩
  rcases ready_or s with hr | he | hb
  · have hends := ends_body h hr hin
    cases hbody : bodyOf i { s with seq := .busy } with
    | ok u =>
      have herr : u.err = s.err := (keepsHost_body hbody).err
      exact ⟨_, exec_of_ok hi hr hbody, (absurd · hi), fun _ _ => .inl rfl, fun _ => (absurd · hr.ne_error),
        fun h4 => by rwa [herr]⟩
    | error stop =>
      rw [hbody] at hends
      cases stop with
      | raise e info =>
        exact ⟨_, exec_of_raise hi hr hbody, (absurd · hi), fun _ _ => .inr rfl, fun _ => (absurd · hr.ne_error),
          fun _ => Err.code_ne_four hends⟩
      | fault f => exact hends.elim
  · refine ⟨s, ?_, (absurd · hi), fun _ hs => absurd he hs, fun _ _ => he, id⟩
    rw [exec_eq_runCommand hi, runCommand_error he]
  · exact absurd hb h.notBusy

end Sys2Proof.Machine
end

section
/-! PROOFS. The statements of spec/44_packer.md: ENCODE (R150 to R152), and the errors its loop meets (R204, R205). -/

namespace Sys2Proof.Machine

/-! ## ENCODE completes -/

/-- ENCODE of bytes that have codes and whose payload fits completes, with the codes in input order (R150). -/
theorem exec_encode {s : State} {input : List Byte} (hr : Ready s) (hf : s.flags.codeValid = true)
    (hin : InputIs s input) (hcap : s.inLen ≤ s.cfg.inCap) (hall : AllCoded s.code input)
    (hbits : (encodeBytes s.code input).length ≤ s.cfg.bitsCap) :
    exec .encode s = .next { s with
      seq := .done
      flags := { s.flags with bitsValid := true, outValid := false }
      bits := Store.ofList (encodeBytes s.code input) s.draw
      bitsLen := (encodeBytes s.code input).length
      draw := s.draw + 1 } :=
  exec_of_ok (i := .encode) nofun hr (encodeBody_eq_ok (s := { s with seq := .busy }) hin hf hcap hall hbits)

/-- Settles O30: ENCODE leaves the codes in input order in BITS and their number in BITS_LEN (`exec_encode`). -/
theorem encodeConcatenatesTheCodes : Obligations.EncodeConcatenatesTheCodes := by
  intro s input hr hf hin hcap hall hbits
  have honly : (Store.ofList (encodeBytes s.code input) s.draw).HoldsOnly (encodeBytes s.code input) :=
    Store.holdsOnly_ofList _ _
  exact ⟨_, exec_encode hr hf hin hcap hall hbits, ⟨rfl, honly.holds⟩, honly, rfl⟩

/-! ## ENCODE stops at a byte -/

section
variable {codes : Table CodeEntry} {cap : Nat} {before after : List Byte} {b : Byte}

/-- The loop stops at a byte without a code, where the bytes before it are packed (R204). -/
theorem packList_missingCode (hall : AllCoded codes before) (hfit : (encodeBytes codes before).length ≤ cap)
    (hb : tableGet codes b = none) :
    packList codes cap 0 0 (before ++ b :: after) = .error (.raise .missingCode before.length) := by
  rw [packList_append hall (by omega), packList, hb, Nat.zero_add]
  rfl

/-- The loop stops at a byte whose code does not fit, where the bytes before it are packed (R205). -/
theorem packList_bufferOverflow {c : Bits} (hall : AllCoded codes before)
    (hfit : (encodeBytes codes before).length ≤ cap) (hb : tableGet codes b = some c)
    (hover : cap < (encodeBytes codes before).length + c.length) :
    packList codes cap 0 0 (before ++ b :: after) = .error (.raise .bufferOverflow before.length) := by
  rw [packList_append hall (by omega), packList, hb, Nat.zero_add, Nat.zero_add]
  dsimp only
  rw [if_pos hover]
  rfl

end

/-- An error the loop raises on the input is ENCODE's, with the index in ERR_INFO (R207, R208): an index fits there. -/
theorem encode_aborted {s : State} {input : List Byte} {e : Err} {info : Nat} (hr : Ready s)
    (hf : s.flags.codeValid = true) (hin : InputIs s input) (hcap : s.inLen ≤ s.cfg.inCap)
    (hw : s.inLen < 2 ^ s.cfg.lenW) (hpack : packList s.code s.cfg.bitsCap 0 0 input = .error (.raise e info)) :
    ∃ t, exec .encode s = .next t ∧ Aborted e.code info s t := by
  have hbody : encodeBody { s with seq := .busy } = .error (.raise e info) :=
    encodeBody_eq (s := { s with seq := .busy }) hin hf hcap hpack
  have hfits : info < 2 ^ s.cfg.bitposW :=
    body_raise_lt (i := .encode) (s := { s with seq := .busy }) nofun nofun hw nofun hbody
  exact ⟨_, exec_of_raise (i := .encode) nofun hr hbody, aborted_abort hfits⟩

/-- Settles O31: the loop raises MissingCode at that byte (`packList_missingCode`), which aborts ENCODE. -/
theorem encodeReportsTheFirstMissingCode : Obligations.EncodeReportsTheFirstMissingCode := by
  intro s before after b hr hf hin hcap hw hall hfit hb
  exact encode_aborted hr hf hin hcap hw (packList_missingCode hall hfit hb)

/-- Settles O32: the byte's code is what the payload grows by, so the loop raises BufferOverflow at that byte
(`packList_bufferOverflow`), which aborts ENCODE. -/
theorem encodeOverflowsAtTheFirstByteTooMany : Obligations.EncodeOverflowsAtTheFirstByteTooMany := by
  intro s before after b hr hf hin hcap hw hall hfit hover
  obtain ⟨hbefore, hlast⟩ := AllCoded.append.mp hall
  obtain ⟨⟨c, hc⟩, -⟩ := hlast.cons
  have hgrow : (encodeBytes s.code (before ++ [b])).length = (encodeBytes s.code before).length + c.length := by
    rw [encodeBytes_append, List.length_append, encodeBytes_cons hc, List.length_append]
    rfl
  exact encode_aborted hr hf hin hcap hw (packList_bufferOverflow hbefore hfit hc (hgrow ▸ hover))

end Sys2Proof.Machine
end

section
/-! PROOFS. The statements of spec/45_unpacker.md: MATCH (R161), DECODE (R162, R163), and the errors its loop meets
(R164, R205). -/

namespace Sys2Proof.Machine

/-! ## MATCH -/

/-- Settles O41: the two answers of MATCH, `matchAt_eq_some` and `matchAt_eq_none`. -/
theorem matchTakesShortestThenLowest : Obligations.MatchTakesShortestThenLowest := by
  intro codes b cur hr hcur
  exact ⟨fun _ _ => matchAt_eq_some hr hcur, matchAt_eq_none hr hcur⟩

/-- On a prefix-free table MATCH after MATCH gives back the bytes the packer wrote, whatever stands around their codes
(R163). -/
theorem matchRun_encodeBytes {codes : Table CodeEntry} (hr : CodesInRange codes) (hpf : PrefixFree codes)
    {input : List Byte} (h : AllCoded codes input) (before rest : Bits) :
    MatchRun codes (before ++ (encodeBytes codes input ++ rest)) before.length input
      (before.length + (encodeBytes codes input).length) := by
  induction input generalizing before with
  | nil => rfl
  | cons x input ih =>
    obtain ⟨⟨c, hc⟩, hinput⟩ := h.cons
    rw [encodeBytes_cons hc, List.append_assoc c]
    refine ⟨c.length, matchAt_of_prefixFree hr hpf (by simp) hc ?standsThere, ?run⟩
    case standsThere => rw [List.drop_left]; exact List.prefix_append _ _
    case run => simpa only [List.append_assoc, List.length_append, Nat.add_assoc] using ih hinput (before ++ c)

/-- The run of matches over a payload that begins with the codes of `input`. -/
theorem matchRun_payload {codes : Table CodeEntry} (hr : CodesInRange codes) (hpf : PrefixFree codes)
    {input : List Byte} (h : AllCoded codes input) (rest : Bits) :
    MatchRun codes (encodeBytes codes input ++ rest) 0 input (encodeBytes codes input).length := by
  simpa using matchRun_encodeBytes hr hpf h [] rest

/-! ## Where DECODE's loop ends -/

section
variable {codes : Table CodeEntry} {p : Bits} {outCap fuel cur k : Nat}

/-- The whole loop follows a run of matches from the payload's start; a turn is left for every bit behind it (R240). -/
theorem unpackFrom_run_start {out : List Byte} (hr : CodesInRange codes) (hrun : MatchRun codes p 0 out cur)
    (hfit : out.length ≤ outCap) :
    ∃ fuel, cur ≤ p.length ∧ p.length - cur ≤ fuel ∧
      unpackFrom codes p outCap p.length 0 0 = (unpackFrom codes p outCap fuel cur out.length).map (out ++ ·) := by
  rw [← Nat.zero_add out.length] at hfit ⊢
  exact unpackFrom_run hr hrun (Nat.zero_le _) hfit (Nat.sub_le _ 0)

/-- The loop is over at the payload's end (R162). -/
theorem unpackFrom_at_end : unpackFrom codes p outCap fuel p.length k = .ok [] := by
  cases fuel <;> rw [unpackFrom, if_neg (Nat.lt_irrefl _)]

/-- Inside the payload a turn begins, since a turn is left for every bit. -/
theorem exists_turn (hlt : cur < p.length) (hf : p.length - cur ≤ fuel) : ∃ f, fuel = f + 1 :=
  Nat.exists_eq_add_one.mpr (by omega)

/-- The loop stops where bits are left and none of the codes matches (R164). -/
theorem unpackFrom_no_match (hlt : cur < p.length) (hf : p.length - cur ≤ fuel) (hm : matchAt codes p cur = none) :
    unpackFrom codes p outCap fuel cur k = .error (.raise .unknownCode cur) := by
  obtain ⟨f, rfl⟩ := exists_turn hlt hf
  rw [unpackFrom, if_pos hlt, hm]

/-- The loop stops where there is a match and OUT is full (R205). -/
theorem unpackFrom_full {b : Byte} {n : Nat} (hlt : cur < p.length) (hf : p.length - cur ≤ fuel)
    (hm : matchAt codes p cur = some (b, n)) (hk : outCap ≤ k) :
    unpackFrom codes p outCap fuel cur k = .error (.raise .bufferOverflow cur) := by
  obtain ⟨f, rfl⟩ := exists_turn hlt hf
  rw [unpackFrom, if_pos hlt, hm]
  exact if_pos hk

end

/-! ## DECODE -/

section
variable {s : State} {p : Bits} {out : List Byte} {cur : Nat}

/-- DECODE of a payload that matches to its end completes, with the symbols of the matches in OUT (R162). -/
theorem exec_decode (hr : Ready s) (hf : s.flags.codeValid = true) (hf' : s.flags.bitsValid = true)
    (hrange : CodesInRange s.code) (hp : PayloadIs s p) (hrun : MatchesTo s.code p 0 out)
    (hfit : out.length ≤ s.cfg.outCap) :
    exec .decode s = .next { s with
      seq := .done
      flags := { s.flags with outValid := true }
      outBuf := Store.ofList out s.draw
      outLen := out.length
      draw := s.draw + 1 } := by
  obtain ⟨fuel, -, -, hloop⟩ := unpackFrom_run_start hrange hrun hfit
  rw [unpackFrom_at_end] at hloop
  have hbody := decodeBody_eq (s := { s with seq := .busy }) hp hf hf' hloop
  rw [Except.map, Except.map, List.append_nil] at hbody
  exact exec_of_ok (i := .decode) nofun hr hbody

/-- An error the loop raises where a run of matches has brought it is DECODE's, with the cursor in ERR_INFO (R206,
R207): a cursor inside the payload fits there. -/
theorem decode_aborted {e : Err} (hr : Ready s) (hf : s.flags.codeValid = true) (hf' : s.flags.bitsValid = true)
    (hw : s.bitsLen < 2 ^ s.cfg.bitposW) (hrange : CodesInRange s.code) (hp : PayloadIs s p)
    (hrun : MatchRun s.code p 0 out cur) (hfit : out.length ≤ s.cfg.outCap)
    (hstop : ∀ fuel, cur ≤ p.length → p.length - cur ≤ fuel →
      unpackFrom s.code p s.cfg.outCap fuel cur out.length = .error (.raise e cur)) :
    ∃ t, exec .decode s = .next t ∧ Aborted e.code cur s t := by
  obtain ⟨fuel, hcur, hfuel, hloop⟩ := unpackFrom_run_start hrange hrun hfit
  rw [hstop fuel hcur hfuel] at hloop
  have hbody : decodeBody { s with seq := .busy } = .error (.raise e cur) :=
    decodeBody_eq (s := { s with seq := .busy }) hp hf hf' hloop
  have hinfo : cur < 2 ^ s.cfg.bitposW := hcur.trans_lt (hp.1 ▸ hw)
  exact ⟨_, exec_of_raise (i := .decode) nofun hr hbody, aborted_abort hinfo⟩

/-- DECODE stops with UnknownCode where matches have come to bits that begin with no code (R164). -/
theorem decode_unknownCode (hr : Ready s) (hf : s.flags.codeValid = true) (hf' : s.flags.bitsValid = true)
    (hw : s.bitsLen < 2 ^ s.cfg.bitposW) (hrange : CodesInRange s.code) (hp : PayloadIs s p)
    (hrun : MatchRun s.code p 0 out cur) (hlt : cur < p.length)
    (hnone : ∀ b c, tableGet s.code b = some c → ¬ c <+: p.drop cur) (hfit : out.length ≤ s.cfg.outCap) :
    ∃ t, exec .decode s = .next t ∧ Aborted 3 cur s t :=
  decode_aborted (e := .unknownCode) hr hf hf' hw hrange hp hrun hfit fun _ hcur hfuel =>
    unpackFrom_no_match hlt hfuel ((matchAt_eq_none hrange hcur).mpr hnone)

/-- DECODE stops with BufferOverflow where matches have filled OUT and there is a further one (R205). -/
theorem decode_bufferOverflow {b : Byte} {n : Nat} (hr : Ready s) (hf : s.flags.codeValid = true)
    (hf' : s.flags.bitsValid = true) (hw : s.bitsLen < 2 ^ s.cfg.bitposW) (hrange : CodesInRange s.code)
    (hp : PayloadIs s p) (hrun : MatchRun s.code p 0 out cur) (hm : matchAt s.code p cur = some (b, n))
    (hfull : out.length = s.cfg.outCap) : ∃ t, exec .decode s = .next t ∧ Aborted 8 cur s t := by
  refine decode_aborted (e := .bufferOverflow) hr hf hf' hw hrange hp hrun hfull.le fun _ hcur hfuel => ?_
  obtain ⟨hpos, hend⟩ := matchAt_bounds hrange hcur hm
  exact unpackFrom_full (by omega) hfuel hm hfull.ge

end

/-- Settles O42: DECODE leaves the symbols of the matches in OUT and their number in OUT_LEN (`exec_decode`). -/
theorem decodeFollowsTheMatches : Obligations.DecodeFollowsTheMatches := by
  intro s p out hr hf hf' hrange hp hrun hfit
  have honly : (Store.ofList out s.draw).HoldsOnly out := Store.holdsOnly_ofList _ _
  exact ⟨_, exec_decode hr hf hf' hrange hp hrun hfit, ⟨rfl, honly.holds⟩, honly, rfl⟩

/-- Settles O43: the matches over the codes of `input` give `input` and come to the payload's end (`matchRun_payload`),
so DECODE completes with it (`decodeFollowsTheMatches`). -/
theorem decodeInvertsEncode : Obligations.DecodeInvertsEncode := by
  intro s input hr hf hf' hrange hpf hall hp hfit
  have hrun : MatchesTo s.code (encodeBytes s.code input) 0 input := by
    simpa [MatchesTo] using matchRun_payload hrange hpf hall []
  exact decodeFollowsTheMatches s _ input hr hf hf' hrange hp hrun hfit

/-- Settles O44: `decode_unknownCode`; on a prefix-free table the matches come to the bits behind the codes of `input`
(`matchRun_payload`). -/
theorem decodeRejectsWhatNoCodeMatches : Obligations.DecodeRejectsWhatNoCodeMatches := by
  refine ⟨fun s p out cur => decode_unknownCode, ?prefixFree⟩
  intro s input rest hr hf hf' hw hrange hpf hall hp hne hnone hfit
  have hlt : (encodeBytes s.code input).length < (encodeBytes s.code input ++ rest).length := by
    simpa [List.length_pos_iff] using hne
  exact decode_unknownCode hr hf hf' hw hrange hp (matchRun_payload hrange hpf hall rest) hlt
    (by rwa [List.drop_left]) hfit

/-- Settles O45: `decode_bufferOverflow`; on a prefix-free table the matches give `input` and then the code of the byte
after it (`matchRun_payload`, `matchAt_of_prefixFree`). -/
theorem decodeOverflowsOutCap : Obligations.DecodeOverflowsOutCap := by
  refine ⟨fun s p out cur b n => decode_bufferOverflow, ?prefixFree⟩
  intro s input b rest hr hf hf' hw hrange hpf hall hp hfull
  obtain ⟨hinput, hlast⟩ := AllCoded.append.mp hall
  obtain ⟨⟨c, hc⟩, -⟩ := hlast.cons
  have hpayload : encodeBytes s.code (input ++ [b]) ++ rest = encodeBytes s.code input ++ (c ++ rest) := by
    rw [encodeBytes_append, encodeBytes_cons hc, List.append_assoc, List.append_assoc]
    rfl
  rw [hpayload] at hp
  have hm : matchAt s.code (encodeBytes s.code input ++ (c ++ rest)) (encodeBytes s.code input).length =
      some (b, c.length) :=
    matchAt_of_prefixFree hrange hpf (by simp) hc (by rw [List.drop_left]; exact List.prefix_append _ _)
  exact decode_bufferOverflow hr hf hf' hw hrange hp (matchRun_payload hrange hpf hinput _) hm hfull

end Sys2Proof.Machine
end


section
/-! PROOFS. The statements of spec/46_container.md: SERIALIZE (R170 to R172), what DESERIALIZE refuses (R175 to R179,
R205), and the round trip of the two (R181). -/

namespace Sys2Proof.Machine

/-! ## SERIALIZE -/

/-- SERIALIZE of a payload whose blob fits OUT completes, with the bytes of the one expression (R172). -/
theorem exec_serialize {s : State} {p : Bits} (hr : Ready s) (hf : s.flags.codeValid = true)
    (hf' : s.flags.bitsValid = true) (hp : PayloadIs s p) (hfit : (blobBits s.code p).length / 8 ≤ s.cfg.outCap) :
    exec .serialize s = .next { s with
      seq := .done
      flags := { s.flags with outValid := true }
      outBuf := Store.ofList (bsToBytes (blobBits s.code p)) s.draw
      outLen := (blobBits s.code p).length / 8
      padLen := BitVec.ofNat 3 (blobPad s.code p)
      draw := s.draw + 1 } :=
  exec_of_ok (i := .serialize) nofun hr (serializeBody_eq_ok (s := { s with seq := .busy }) hp hf hf' hfit)

/-- PAD_LEN holds a blob's pad length, which is at most 7 (R31). -/
theorem toNat_ofNat_blobPad (codes : Table CodeEntry) (p : Bits) :
    (BitVec.ofNat 3 (blobPad codes p)).toNat = blobPad codes p :=
  Nat.mod_eq_of_lt (Nat.lt_succ_of_le (blobPad_le codes p))

theorem blobBytes_length (codes : Table CodeEntry) (p : Bits) :
    (bsToBytes (blobBits codes p)).length = (blobBits codes p).length / 8 :=
  bsToBytes_length (blobBits_mod codes p)

theorem bsFromBytes_blobBytes (codes : Table CodeEntry) (p : Bits) :
    bsFromBytes (bsToBytes (blobBits codes p)) = blobBits codes p :=
  bsFromBytes_bsToBytes (blobBits_mod codes p)

/-- Settles O33: SERIALIZE leaves the bytes of the one expression (`exec_serialize`), whose length is a multiple of 8,
so that no bit of it is lost (`bsFromBytes_blobBytes`), and whose first three bits spell the pad. -/
theorem serializeWritesTheBlobExpression : Obligations.SerializeWritesTheBlobExpression := by
  intro s p hr hf hf' hp hfit
  have honly : (Store.ofList (bsToBytes (blobBits s.code p)) s.draw).HoldsOnly (bsToBytes (blobBits s.code p)) :=
    Store.holdsOnly_ofList _ _
  refine ⟨_, exec_serialize hr hf hf' hp hfit, ⟨?length, honly.holds⟩, honly, bsFromBytes_blobBytes _ _, ?pad, rfl⟩
  case length => exact (blobBytes_length s.code p).symm
  case pad => exact (toNat_ofNat_blobPad s.code p).trans (val_take_blobBits s.code p).symm

/-- Settles O34: SERIALIZE's body raises BufferOverflow(0) where the blob does not fit (`serializeBody_eq`). -/
theorem serializeOverflowsOutCap : Obligations.SerializeOverflowsOutCap := by
  intro s p hr hf hf' hp hover
  have hbody : serializeBody { s with seq := .busy } = .error (.raise .bufferOverflow 0) :=
    (serializeBody_eq (s := { s with seq := .busy }) hp hf hf').trans (if_pos hover)
  exact ⟨_, exec_of_raise (i := .serialize) nofun hr hbody, aborted_abort (e := .bufferOverflow) (Nat.two_pow_pos _)⟩

/-! ## DESERIALIZE gives back what SERIALIZE wrote (R181) -/

/-- A completed SERIALIZE of the payload `p` left the blob of the table and `p`, and its pad (R172). -/
theorem output_of_serialize_done {s t : State} {p : Bits} {out : List Byte} (hr : Ready s) (hp : PayloadIs s p)
    (hrun : exec .serialize s = .next t) (hdone : t.seq = .done) (hout : OutputIs t out) :
    out = bsToBytes (blobBits s.code p) ∧ t.padLen = BitVec.ofNat 3 (blobPad s.code p) := by
  obtain ⟨u, hbody, rfl⟩ := body_of_done (i := .serialize) nofun hr hrun hdone
  obtain ⟨-, -, q, hq, -, rfl⟩ := serializeBody_ok (s := { s with seq := .busy }) hbody
  obtain rfl : q = p := PayloadIs.unique hq hp
  exact ⟨hout.unique ⟨(blobBytes_length s.code q).symm, (Store.holdsOnly_ofList _ s.draw).holds⟩, rfl⟩

/-- Settles O40: the blob SERIALIZE wrote is a header with the table's entries, the payload and a pad of zeros
(`blobBits_eq`), whose fields DESERIALIZE reads back (`deserializeReadsTheFields`); the table of the entries of a table is
that table (`tableOfEntries_entriesOf`). -/
theorem deserializeInvertsSerialize : Obligations.DeserializeInvertsSerialize := by
  intro s t u p out hr hp hrange hone hrun hdone hout hru hin hcap hbits
  obtain ⟨rfl, hpad⟩ := output_of_serialize_done hr hp hrun hdone hout
  have hzeros : (zeros (blobPad s.code p)).length = blobPad s.code p := zeros_length _
  have hblob := (bsFromBytes_blobBytes s.code p).trans (blobBits_eq s.code p)
  obtain ⟨v, hv, hcode, hpayload, -, hcount, hvpad, hframe⟩ :=
    deserializeReadsTheFields u _ (entriesOf s.code) p (zeros (blobPad s.code p)) hru hin (hin.1.le.trans hcap)
      (entriesOk_entriesOf hrange) (hone.trans_eq (entriesOf_length _).symm) (hzeros.trans_le (blobPad_le _ _))
      (by rw [hzeros]; exact hblob) hbits
  refine ⟨v, hv, congrArg State.seq hframe, ?table, hpayload, ?pad, ?count⟩
  case table => rw [hcode, tableOfEntries_entriesOf]
  case pad => rw [← BitVec.toNat_inj, hpad, toNat_ofNat_blobPad, hvpad, hzeros]
  case count => rw [hcount, entriesOf_length]

/-! ## An error of the parse is DESERIALIZE's -/

section
variable {s : State} {input : List Byte} {e : Err} {info : Nat}

/-- ERR_INFO is a bit index inside the blob or its end (R206). -/
theorem parseBlob_raise_le {bitsCap : Nat} {b : Bits} (h : parseBlob bitsCap b = .error (.raise e info)) :
    info ≤ b.length := by
  rcases parseBlob_cases bitsCap b with ⟨r, hok, -⟩ | ⟨c, hle, hmal⟩ | ⟨c, hle, hover⟩
  · rw [hok] at h; cases h
  · rw [hmal] at h; cases h; exact hle
  · rw [hover] at h; cases h; exact hle

/-- The blob's parse raises an error, and DESERIALIZE ends in it (R207), where ERR_INFO's register holds the bit. -/
theorem deserialize_aborted_of_fits (hr : Ready s) (hin : InputIs s input) (hcap : s.inLen ≤ s.cfg.inCap)
    (hinfo : info < 2 ^ s.cfg.bitposW)
    (hparse : parseBlob s.cfg.bitsCap (bsFromBytes input) = .error (.raise e info)) :
    ∃ t, exec .deserialize s = .next t ∧ Aborted e.code info s t := by
  have hbody : deserializeBody { s with seq := .busy } = .error (.raise e info) :=
    deserializeBody_eq (s := { s with seq := .busy }) hin hcap hparse
  exact ⟨_, exec_of_raise (i := .deserialize) nofun hr hbody, aborted_abort hinfo⟩

/-- The register holds every bit of a blob whose length fits IN_LEN (R45). -/
theorem deserialize_aborted (hr : Ready s) (hin : InputIs s input) (hcap : s.inLen ≤ s.cfg.inCap)
    (hw : s.inLen < 2 ^ s.cfg.lenW)
    (hparse : parseBlob s.cfg.bitsCap (bsFromBytes input) = .error (.raise e info)) :
    ∃ t, exec .deserialize s = .next t ∧ Aborted e.code info s t := by
  have hle : info ≤ 8 * s.inLen := by
    rw [hin.1, ← bsFromBytes_length]
    exact parseBlob_raise_le hparse
  exact deserialize_aborted_of_fits hr hin hcap (lt_bitposW_of_inLen hw hle) hparse

end

/-- Settles O38: the parse raises BufferOverflow at the payload's start (`parseBlob_overflow`). -/
theorem deserializeOverflowsBitsCap : Obligations.DeserializeOverflowsBitsCap := by
  intro s input es p padBits hr hin hcap hw hes hone hpad hblob hover
  refine deserialize_aborted (e := .bufferOverflow) hr hin hcap hw ?_
  rw [hblob]
  exact parseBlob_overflow hes hone hpad hover

/-! ## Blobs without a whole header -/

/-- There is no room for the pad field (R175). -/
theorem parseBlob_noPadField {bitsCap : Nat} {b : Bits} (h : b.length < 3) :
    parseBlob bitsCap b = .error (.raise .malformedContainer 0) := by
  rw [parseBlob, readField_short (by omega)]
  rfl

/-- There is room for the pad field and none for the count field behind it (R175). -/
theorem parseBlob_noCountField {bitsCap : Nat} {b : Bits} (h3 : 3 ≤ b.length) (h : b.length < 11) :
    parseBlob bitsCap b = .error (.raise .malformedContainer 3) := by
  obtain ⟨-, w, -, hpad⟩ | ⟨hshort, -⟩ := readField_cases b 0 3
  · have hcount : readField b (0 + 3) 8 = .error (.raise .malformedContainer 3) := readField_short (by omega)
    rw [parseBlob, hpad]
    simp only [Bind.bind, Except.bind, hcount]
  · omega

/-- Settles O39: 0 bits hold no pad field (`parseBlob_noPadField`), 8 bits one but no count field
(`parseBlob_noCountField`); ERR_INFO holds 0 and 3 whatever its width is. -/
theorem deserializeRejectsTinyBlobs : Obligations.DeserializeRejectsTinyBlobs := by
  intro s input hr hin hcap
  refine ⟨fun h0 => ?noByte, fun h1 => ?oneByte⟩
  case noByte =>
    exact deserialize_aborted_of_fits (e := .malformedContainer) hr hin hcap (lt_bitposW (by omega))
      (parseBlob_noPadField (by rw [bsFromBytes_length]; omega))
  case oneByte =>
    exact deserialize_aborted_of_fits (e := .malformedContainer) hr hin hcap (lt_bitposW (by omega))
      (parseBlob_noCountField (by rw [bsFromBytes_length]; omega) (by rw [bsFromBytes_length]; omega))

/-! ## An entry that is malformed (R175, R177)

The cursor stands behind the bits `a`. -/

/-- The rest of one turn of the entry loop, behind the symbol field of a new symbol, and the turns after it (R176). -/
def readCodeThenEntries (b : Bits) (k cur : Nat) (codes : Table CodeEntry) (sym : Byte) :
    Except Stop (Nat × Table CodeEntry) := do
  let (wl, c2) ← readField b cur 8
  if val wl = 0 then .error (.raise .malformedContainer cur)
  else do
    let (w, c3) ← readField b c2 (val wl)
    readEntries b k c3 (tableSet codes sym (some w))

section
variable {a rest : Bits} {k : Nat} {codes : Table CodeEntry} {sym : Byte}

/-- A turn of the entry loop at a symbol field: a symbol that has an entry stops it (R177 (a)), any other goes on. -/
theorem readEntries_symbol (a rest : Bits) (k : Nat) (codes : Table CodeEntry) (sym : Byte) :
    readEntries (a ++ (bitsN 8 sym.toNat ++ rest)) (k + 1) a.length codes =
      if (tableGet codes sym).isSome then .error (.raise .malformedContainer a.length)
      else readCodeThenEntries (a ++ bitsN 8 sym.toNat ++ rest) k (a ++ bitsN 8 sym.toNat).length codes sym := by
  have hfield : readField (a ++ (bitsN 8 sym.toNat ++ rest)) a.length 8 = .ok (bitsN 8 sym.toNat, a.length + 8) :=
    readField_append' (bitsN_length 8 _)
  have hsym : BitVec.ofNat 8 (val (bitsN 8 sym.toNat)) = sym := by
    rw [val_bitsN sym.isLt, BitVec.ofNat_toNat, BitVec.setWidth_eq]
  rw [readEntries, hfield, List.append_assoc, List.length_append, bitsN_length]
  simp only [Bind.bind, Except.bind, hsym]
  rfl

/-- A repeated symbol (R177 (a)). -/
theorem readEntries_repeatedSymbol (h : (tableGet codes sym).isSome = true) :
    readEntries (a ++ (bitsN 8 sym.toNat ++ rest)) (k + 1) a.length codes =
      .error (.raise .malformedContainer a.length) :=
  (readEntries_symbol a rest k codes sym).trans (if_pos h)

/-- A new symbol. -/
theorem readEntries_newSymbol (h : tableGet codes sym = none) :
    readEntries (a ++ (bitsN 8 sym.toNat ++ rest)) (k + 1) a.length codes =
      readCodeThenEntries (a ++ bitsN 8 sym.toNat ++ rest) k (a ++ bitsN 8 sym.toNat).length codes sym :=
  (readEntries_symbol a rest k codes sym).trans (if_neg (by simp [h]))

/-- The length field does not fit (R175). -/
theorem readCodeThenEntries_noLengthField (h : rest.length < 8) :
    readCodeThenEntries (a ++ rest) k a.length codes sym = .error (.raise .malformedContainer a.length) := by
  rw [readCodeThenEntries, readField_short (by rw [List.length_append]; omega)]
  rfl

/-- The length field says `len`: 0 stops the loop (R177 (b)), and so does a code that does not fit (R175). -/
theorem readCodeThenEntries_length {len : Nat} (hlen : len ≤ 255) :
    readCodeThenEntries (a ++ (bitsN 8 len ++ rest)) k a.length codes sym =
      if len = 0 then .error (.raise .malformedContainer a.length)
      else (readField (a ++ (bitsN 8 len ++ rest)) (a.length + 8) len).bind fun r =>
        readEntries (a ++ (bitsN 8 len ++ rest)) k r.2 (tableSet codes sym (some r.1)) := by
  have hfield : readField (a ++ (bitsN 8 len ++ rest)) a.length 8 = .ok (bitsN 8 len, a.length + 8) :=
    readField_append' (bitsN_length 8 _)
  have hval : val (bitsN 8 len) = len := val_bitsN (by omega)
  rw [readCodeThenEntries, hfield]
  simp only [Bind.bind, Except.bind, hval]

/-- A code length of 0 (R177 (b)). -/
theorem readCodeThenEntries_zeroLength :
    readCodeThenEntries (a ++ (bitsN 8 0 ++ rest)) k a.length codes sym =
      .error (.raise .malformedContainer a.length) :=
  (readCodeThenEntries_length (Nat.zero_le _)).trans (if_pos rfl)

/-- The code does not fit (R175). -/
theorem readCodeThenEntries_noCodeField {len : Nat} (hlen : len ≤ 255) (h : rest.length < len) :
    readCodeThenEntries (a ++ (bitsN 8 len ++ rest)) k a.length codes sym =
      .error (.raise .malformedContainer (a.length + 8)) := by
  have hshort : (a ++ (bitsN 8 len ++ rest)).length < a.length + 8 + len := by
    simp only [List.length_append, bitsN_length]
    omega
  rw [readCodeThenEntries_length hlen, if_neg (by omega), readField_short hshort]
  rfl

end

/-! ## A malformed blob -/

theorem tableGet_tableOfEntries_eq_none {es : List (Byte × Bits)} (h : (es.map (·.1)).Nodup) {b : Byte} :
    tableGet (tableOfEntries es) b = none ↔ b ∉ es.map (·.1) := by
  rw [Option.eq_none_iff_forall_ne_some]
  constructor
  · intro hnone hb
    obtain ⟨⟨b, c⟩, hmem, rfl⟩ := List.mem_map.mp hb
    exact hnone c ((tableGet_tableOfEntries h).mpr hmem)
  · intro hb c hc
    exact hb (List.mem_map.mpr ⟨_, (tableGet_tableOfEntries h).mp hc, rfl⟩)

section
variable {bitsCap pad count : Nat} {es : List (Byte × Bits)} {rest : Bits}

/-- An error of the entry loop behind fewer good entries than the blob declares is the parse's (R176). -/
theorem parseBlob_entry_error {stop : Stop} (hes : EntriesOk es) (hpad : pad ≤ 7) (hcount : count ≤ 255)
    (hmore : es.length < declared count)
    (hstop : ∀ k, readEntries (headerBits pad count es ++ rest) (k + 1) (headerBits pad count es).length
      (tableOfEntries es) = .error stop) :
    parseBlob bitsCap (headerBits pad count es ++ rest) = .error stop := by
  obtain ⟨k, hk⟩ := Nat.exists_eq_add_of_lt hmore
  have hleft : declared count - es.length = k + 1 := by omega
  rw [parseBlob_header hes hpad hcount hmore.le, hleft, hstop]
  rfl

/-- All the entries the blob declares are there and the pad is longer than what is left (R179). -/
theorem parseBlob_padTooLong (hes : EntriesOk es) (hpad : pad ≤ 7) (hcount : count ≤ 255)
    (hall : es.length = declared count) (hshort : rest.length < pad) :
    parseBlob bitsCap (headerBits pad count es ++ rest) =
      .error (.raise .malformedContainer (headerBits pad count es).length) := by
  rw [parseBlob_header hes hpad hcount hall.le, hall, Nat.sub_self, readEntries]
  exact if_pos (by rw [List.length_append]; omega)

end

/-- Settles O37: where more entries are declared, the entry loop stands behind the header with the table of its entries
(`parseBlob_entry_error`) and stops at the next entry's field that is wrong; where all are there, the pad does not fit
(`parseBlob_padTooLong`). -/
theorem deserializeRejectsMalformedBlobs : Obligations.DeserializeRejectsMalformedBlobs := by
  intro s input es pad count rest hr hin hcap hw hes hpad hcount hblob
  have haborted : ∀ {info : Nat},
      parseBlob s.cfg.bitsCap (headerBits pad count es ++ rest) = .error (.raise .malformedContainer info) →
      ∃ t, exec .deserialize s = .next t ∧ Aborted 2 info s t :=
    fun hparse => deserialize_aborted (e := .malformedContainer) hr hin hcap hw (hblob ▸ hparse)
  have hnew : ∀ {b : Byte}, b ∉ es.map (·.1) → tableGet (tableOfEntries es) b = none :=
    (tableGet_tableOfEntries_eq_none hes.1).mpr
  refine ⟨fun hmore => ?entries, fun hall hshort => haborted (parseBlob_padTooLong hes hpad hcount hall hshort)⟩
  case entries =>
  have hstops : ∀ {info : Nat},
      (∀ k, readEntries (headerBits pad count es ++ rest) (k + 1) (headerBits pad count es).length
        (tableOfEntries es) = .error (.raise .malformedContainer info)) →
      ∃ t, exec .deserialize s = .next t ∧ Aborted 2 info s t :=
    fun hstop => haborted (parseBlob_entry_error hes hpad hcount hmore hstop)
  refine ⟨fun hshort => hstops fun k => ?noSymbolField, fun b rest' hb hrest => hstops fun k => ?repeated,
    fun b rest' hb hrest hshort => hstops fun k => ?noLengthField, fun b rest' hb hrest => hstops fun k => ?zeroLength,
    fun b len rest' hb hlen hrest hshort => hstops fun k => ?noCodeField⟩
  case noSymbolField => exact readEntries_short k.succ_pos (by rw [List.length_append]; omega)
  case repeated =>
    rw [hrest]
    exact readEntries_repeatedSymbol (Option.isSome_iff_ne_none.mpr
      fun hnone => (tableGet_tableOfEntries_eq_none hes.1).mp hnone hb)
  case noLengthField =>
    rw [hrest, readEntries_newSymbol (hnew hb), readCodeThenEntries_noLengthField hshort, List.length_append,
      bitsN_length]
  case zeroLength =>
    rw [hrest, List.append_assoc, readEntries_newSymbol (hnew hb), readCodeThenEntries_zeroLength,
      List.length_append, bitsN_length]
  case noCodeField =>
    rw [hrest, List.append_assoc, readEntries_newSymbol (hnew hb), readCodeThenEntries_noCodeField hlen hshort,
      List.length_append, bitsN_length]

end Sys2Proof.Machine
end

section
/-! PROOFS. The statements of spec/47_top_level.md: NOP (R197), COMPRESS and DECOMPRESS as their staged bodies (R193,
R195), the errors they raise, and the round trip (R196). -/

namespace Sys2Proof.Machine

/-- Settles O9: NOP's body leaves the state as it is, so completing it only ends in DONE. -/
theorem nopOnlyMovesToDone : Obligations.NopOnlyMovesToDone :=
  fun s hr => exec_of_ok (i := .nop) (u := { s with seq := .busy }) nofun hr rfl

/-! ## Bodies one after another -/

/-- The bodies of the commands, each run on what the one before it left; the first that stops ends the run. -/
def runBodies (is : List Instr) (s : State) : Except Stop State := is.foldlM (fun u i => bodyOf i u) s

theorem runBodies_append (is js : List Instr) (s : State) :
    runBodies (is ++ js) s = runBodies is s >>= runBodies js :=
  List.foldlM_append

theorem runBodies_cons (i : Instr) (is : List Instr) (s : State) :
    runBodies (i :: is) s = bodyOf i s >>= runBodies is :=
  List.foldlM_cons

theorem keepsHost_runBodies {is : List Instr} {s t : State} (h : runBodies is s = .ok t) : KeepsHost s t := by
  induction is generalizing s with
  | nil => cases h; constructor <;> rfl
  | cons i is ih =>
    obtain ⟨u, hi, his⟩ := bind_eq_ok.mp ((runBodies_cons i is s).symm.trans h)
    exact (keepsHost_body hi).trans (ih his)

/-- Commands that complete one after another ran their bodies one after another: between two of them only STATUS.state
differs from what it is between two bodies. -/
theorem runBodies_of_runStages {is : List Instr} {s t : State} (hi : .reset ∉ is) (hr : Ready s)
    (h : RunStages is s t) :
    Ready t ∧ runBodies is { s with seq := .busy } = .ok { t with seq := .busy } := by
  induction is generalizing s with
  | nil => cases h; exact ⟨hr, rfl⟩
  | cons i is ih =>
    obtain ⟨hhead, htail⟩ := not_or.mp (mt List.mem_cons.mpr hi)
    obtain ⟨_, hx, hdone, hrest⟩ := h
    obtain ⟨u, hb, rfl⟩ := body_of_done (Ne.symm hhead) hr hx hdone
    obtain ⟨ht, hrun⟩ := ih htail (.inr rfl) hrest
    rw [busy_done_busy (keepsHost_body hb).seq] at hrun
    exact ⟨ht, (runBodies_cons i is _).trans (bind_eq_ok.mpr ⟨u, hb, hrun⟩)⟩

theorem RunStages.seq_done {i : Instr} {is : List Instr} {s t : State} (h : RunStages (i :: is) s t) :
    t.seq = .done := by
  induction is generalizing i s with
  | nil => obtain ⟨u, -, hdone, rfl⟩ := h; exact hdone
  | cons j is ih => obtain ⟨u, -, -, hrest⟩ := h; exact ih hrest

/-! ## A whole call is its stages (R193, R195) -/

/-- The command's body is the bodies of these commands, one after another, each of one body itself. -/
structure WholeCall (whole : Instr) (stages : List Instr) : Prop where
  ne_reset : whole ≠ .reset
  reset_notMem : .reset ∉ stages
  single : ∀ i ∈ stages, isSingle i = true
  ne_nil : stages ≠ []
  body : ∀ s, bodyOf whole s = runBodies stages s

/-- A stage that needs no flag and clears all of them does not depend on the flags it finds. -/
theorem stage_with_flags {i : Instr} {effect : State → Except Stop State} (hneed : flagsNeeded i = Flags.clear)
    (hclear : flagsCleared i = Flags.all) (f : Flags) (s : State) :
    stage i effect { s with flags := f } = stage i effect s := by
  simp only [stage, hneed, hclear, covers_clear, Flags.without_all, if_true]

theorem wholeCall_compress : WholeCall .compress compressStages where
  ne_reset := nofun
  reset_notMem := by decide
  single := by decide
  ne_nil := nofun
  body s := by
    show (countBody { s with flags := s.flags.without (flagsCleared .compress) } >>= _) = _
    rw [countBody, stage_with_flags rfl rfl]
    simp only [compressStages, runBodies, List.foldlM_cons, List.foldlM_nil, bind_pure]
    rfl

theorem wholeCall_decompress : WholeCall .decompress decompressStages where
  ne_reset := nofun
  reset_notMem := by decide
  single := by decide
  ne_nil := nofun
  body s := by
    show (deserializeBody { s with flags := s.flags.without (flagsCleared .decompress) } >>= _) = _
    rw [deserializeBody, stage_with_flags rfl rfl]
    simp only [decompressStages, runBodies, List.foldlM_cons, List.foldlM_nil, bind_pure]
    rfl

section
variable {whole i : Instr} {stages before after : List Instr} {s s' t : State}

/-- Where all the stages complete, the whole call ends in the state they end in. -/
theorem WholeCall.exec_of_runStages (h : WholeCall whole stages) (hr : Ready s) (hrun : RunStages stages s t) :
    exec whole s = .next t := by
  have hbody := (h.body _).trans (runBodies_of_runStages h.reset_notMem hr hrun).2
  have hdone : t.seq = .done := by
    obtain ⟨i, is, rfl⟩ := List.exists_cons_of_ne_nil h.ne_nil
    exact hrun.seq_done
  rw [exec_of_ok h.ne_reset hr hbody, ← hdone]

/-- Where a stage aborts, the whole call aborts with its error. The two record the same ERR_INFO because it fits the
register, as IN_LEN does and, where the stage is DECODE, BITS_LEN. -/
theorem WholeCall.exec_of_abort (h : WholeCall whole stages) (hr : Ready s) (hlen : s.inLen < 2 ^ s.cfg.lenW)
    (hstages : stages = before ++ i :: after) (hrun : RunStages before s s') (hx : exec i s' = .next t)
    (herr : t.seq = .error) (hdecode : i = .decode → s'.bitsLen < 2 ^ s'.cfg.bitposW) :
    ∃ u, exec whole s = .next u ∧ SameError t u := by
  subst hstages
  have hi : i ∈ before ++ i :: after := by simp
  have hreset : i ≠ .reset := fun hir => h.reset_notMem (hir ▸ hi)
  have hsingle := h.single i hi
  obtain ⟨hr', hbefore⟩ := runBodies_of_runStages (fun hm => h.reset_notMem (List.mem_append_left _ hm)) hr hrun
  obtain ⟨e, info, hraise, rfl⟩ := body_of_error hreset hr' hx herr
  have hk := keepsHost_runBodies hbefore
  have hcfg : s'.cfg = s.cfg := hk.cfg
  have hinLen : s'.inLen = s.inLen := hk.inLen
  have hinfo : info < 2 ^ s'.cfg.bitposW :=
    body_raise_lt (s := { s' with seq := .busy }) (by rintro rfl; cases hsingle) (by rintro rfl; cases hsingle)
      (by show s'.inLen < 2 ^ s'.cfg.lenW; rwa [hcfg, hinLen]) hdecode hraise
  have hbody : bodyOf whole { s with seq := .busy } = .error (.raise e info) := by
    rw [h.body, runBodies_append, hbefore]
    exact (runBodies_cons i after _).trans (bind_eq_error.mpr (.inl hraise))
  refine ⟨_, exec_of_raise h.ne_reset hr hbody, rfl, rfl, ?_⟩
  rw [abort_errInfo, abort_errInfo, errInfoValue_of_lt hinfo, errInfoValue_of_lt (hcfg ▸ hinfo)]

end

/-- The payload of a blob that IN_LEN can count has a length that fits BITS_LEN (R45). -/
theorem deserializeBody_bitsLen_lt {s t : State} (hlen : s.inLen < 2 ^ s.cfg.lenW) (h : deserializeBody s = .ok t) :
    t.bitsLen < 2 ^ t.cfg.bitposW := by
  obtain ⟨-, input, r, hin, hparse, rfl⟩ := deserializeBody_ok h
  refine lt_bitposW_of_inLen (s := s) hlen ?_
  rw [hin.1, ← bsFromBytes_length]
  rcases parseBlob_cases s.cfg.bitsCap (bsFromBytes input) with
    ⟨_, hok, -, -, -, -, -, -, hle⟩ | ⟨_, -, hmal⟩ | ⟨_, -, hover⟩
  · cases hok.symm.trans hparse; exact hle
  · cases hmal.symm.trans hparse
  · cases hover.symm.trans hparse

/-- Settles O49: COMPRESS's body is its five stages' (`wholeCall_compress`), so it ends as they do. -/
theorem compressIsTheFiveStages : Obligations.CompressIsTheFiveStages := by
  refine fun s hr => ⟨fun t => wholeCall_compress.exec_of_runStages hr, ?abort⟩
  intro before after i s' t hlen hstages hrun hx herr
  refine wholeCall_compress.exec_of_abort hr hlen hstages hrun hx herr fun hi => ?_
  have hmem : Instr.decode ∈ compressStages := by rw [hstages, hi]; simp
  exact absurd hmem (by decide)

/-- Settles O50: DECOMPRESS's body is its two stages' (`wholeCall_decompress`); where DECODE is the one that aborts,
DESERIALIZE alone has run, and its payload's length fits BITS_LEN (`deserializeBody_bitsLen_lt`). -/
theorem decompressIsTheTwoStages : Obligations.DecompressIsTheTwoStages := by
  refine fun s hr => ⟨fun t => wholeCall_decompress.exec_of_runStages hr, ?abort⟩
  intro before after i s' t hlen hstages hrun hx herr
  refine wholeCall_decompress.exec_of_abort hr hlen hstages hrun hx herr fun hi => ?_
  subst hi
  obtain rfl : before = [.deserialize] := by
    unfold decompressStages at hstages
    rcases before with _ | ⟨j, _ | ⟨k, rest⟩⟩
    · simp at hstages
    · obtain ⟨rfl, -⟩ := List.cons.inj hstages; rfl
    · simp at hstages
  obtain ⟨_, hdes, hdone, rfl⟩ := hrun
  obtain ⟨u, hbody, rfl⟩ := body_of_done (i := .deserialize) nofun hr hdes hdone
  exact deserializeBody_bitsLen_lt (s := { s with seq := .busy }) (t := u) hlen hbody

/-! ## The errors of the whole calls -/

/-- An empty input stops COMPRESS in BUILD, whose table has no symbol (R112, R126). -/
theorem compressBody_empty {s : State} (h : s.inLen = 0) : compressBody s = .error (.raise .emptyInput 0) := by
  have hd : distinctSymbols (freqOf []) = 0 := distinctSymbols_freqOf []
  refine bind_eq_error.mpr (.inr ⟨_, countBody_eq (inputIs_nil h) ?fits, bind_eq_error.mpr (.inl ?build)⟩)
  case fits => exact h.trans_le (Nat.zero_le _)
  case build => exact stage_eq_error.mpr (.inr ⟨rfl, buildEffect_eq_error.mpr ⟨hd, rfl⟩⟩)

/-- COMPRESS raises EmptyInput on an empty input and BufferOverflow on any other: beyond COUNT's own check the input is
there, and every byte of it has a code of at most 255 bits (`compressBody_cases`). -/
theorem compressBody_raise_cases {s : State} {e : Err} {info : Nat} (h : compressBody s = .error (.raise e info)) :
    (e = .emptyInput ∧ s.inLen = 0) ∨ e = .bufferOverflow := by
  by_cases hzero : s.inLen = 0
  · cases (compressBody_empty hzero).symm.trans h; exact .inl ⟨rfl, hzero⟩
  refine .inr ?_
  rcases bind_eq_error.mp h with hcount | ⟨_, hcount, -⟩
  · exact countEffect_raise (stage_raise (covers_clear _) hcount)
  obtain ⟨-, input, hin, -⟩ := countBody_ok hcount
  have hin : InputIs s input := hin
  have hne : input ≠ [] := by rintro rfl; exact hzero hin.1
  rcases compressBody_cases s.cfg input with ⟨_, _, -, hover, hraise⟩ | ⟨-, -, _, -, -, -, -, -, hok⟩
  · cases (hraise s rfl hin).symm.trans h; exact hover hne
  · cases (hok s rfl hin).symm.trans h

/-- Settles O52: the abort of `compressBody_empty`. -/
theorem compressOfNothingIsEmptyInput : Obligations.CompressOfNothingIsEmptyInput := by
  intro s hr hlen
  have hbody : compressBody { s with seq := .busy } = .error (.raise .emptyInput 0) := compressBody_empty hlen
  exact ⟨_, exec_of_raise (i := .compress) nofun hr hbody, aborted_abort (e := .emptyInput) (Nat.two_pow_pos _)⟩

/-- Settles O53: an error state is the abort of what the body raised (`compressBody_raise_cases`,
`decompressBody_raise`). -/
theorem wholeCallsRaiseOnlyTheirErrors : Obligations.WholeCallsRaiseOnlyTheirErrors := by
  refine fun s t hr herr => ⟨fun hx => ?compress, fun hx => ?decompress⟩
  case compress =>
    obtain ⟨e, info, hraise, rfl⟩ := body_of_error (i := .compress) nofun hr hx herr
    rcases compressBody_raise_cases hraise with ⟨rfl, hlen⟩ | rfl
    · exact .inl ⟨rfl, hlen⟩
    · exact .inr rfl
  case decompress =>
    obtain ⟨e, info, hraise, rfl⟩ := body_of_error (i := .decompress) nofun hr hx herr
    rcases decompressBody_raise hraise with rfl | rfl | rfl
    · exact .inl rfl
    · exact .inr (.inl rfl)
    · exact .inr (.inr rfl)

/-! ## The round trip (R196) -/

/-- Settles O54: the blob parses to its fields (`parseBlob_ok`), whose payload decodes to the output
(`unpackFrom_encodeBytes`); so DECOMPRESS ends in `decompressed`, which leaves the tree alone. -/
theorem decompressReadsABlob : Obligations.DecompressReadsABlob := by
  intro s input output es padBits hr hin hcap hes hone hpad hpf hall hblob hbits hout
  have hparse := parseBlob_ok hes hone hpad hbits
  rw [← hblob] at hparse
  have hloop := unpackFrom_encodeBytes (codesInRange_tableOfEntries hes) hpf hall hout
  have hbody := decompressBody_eq (s := { s with seq := .busy }) hin hcap hparse
  simp only [Except.bind, hloop, Except.map] at hbody
  refine ⟨_, exec_of_ok (i := .decompress) nofun hr hbody, rfl, ⟨rfl, ?holds⟩, rfl, rfl, rfl, rfl, rfl, rfl, rfl, rfl, rfl⟩
  exact (Store.holdsOnly_ofList _ _).holds

/-- A completed COMPRESS left in OUT the blob of a prefix-free table that has a code for each byte of the input, with
the input's payload (R193). -/
theorem output_of_compress_done {s t : State} {input blob : List Byte} (hr : Ready s) (hin : InputIs s input)
    (hrun : exec .compress s = .next t) (hdone : t.seq = .done) (hout : OutputIs t blob) :
    CodesInRange t.code ∧ PrefixFree t.code ∧ AllCoded t.code input ∧ 1 ≤ entryCount t.code ∧
      t.bitsLen = (encodeBytes t.code input).length ∧
      blob = bsToBytes (blobBits t.code (encodeBytes t.code input)) := by
  obtain ⟨u, hbody, rfl⟩ := body_of_done (i := .compress) nofun hr hrun hdone
  rcases compressBody_cases s.cfg input with ⟨_, _, -, -, hraise⟩ | ⟨-, hne, codes, hcoded, hrange, hpf, -, -, hok⟩
  · cases (hraise { s with seq := .busy } rfl hin).symm.trans hbody
  cases (hok { s with seq := .busy } rfl hin).symm.trans hbody
  refine ⟨hrange, hpf, allCoded_input hcoded, ?entries, rfl, hout.unique ⟨(blobBytes_length _ _).symm, ?holds⟩⟩
  case entries => exact (distinctSymbols_freqOf_pos hne).trans_eq (entryCount_eq hcoded).symm
  case holds => exact (Store.holdsOnly_ofList _ _).holds

/-- Settles O55: COMPRESS's blob (`output_of_compress_done`) is a header with the entries of its table, the input's
payload and a pad of zeros (`blobBits_eq`), which DECOMPRESS reads (`decompressReadsABlob`); the table of the entries of
a table is that table (`tableOfEntries_entriesOf`). -/
theorem decompressInvertsCompress : Obligations.DecompressInvertsCompress := by
  intro s t u input blob hr hin _ _ hrun hdone hout hru hinu hcap hbits hfit
  obtain ⟨hrange, hpf, hall, hone, hbitsLen, rfl⟩ := output_of_compress_done hr hin hrun hdone hout
  have hzeros (p : Bits) : (zeros (blobPad t.code p)).length = blobPad t.code p := zeros_length _
  have htable : tableOfEntries (entriesOf t.code) = t.code := tableOfEntries_entriesOf _
  have hblob := (bsFromBytes_blobBytes t.code (encodeBytes t.code input)).trans (blobBits_eq _ _)
  obtain ⟨v, hv, hvdone, hvout, -⟩ :=
    decompressReadsABlob u _ input (entriesOf t.code) (zeros (blobPad t.code (encodeBytes t.code input))) hru hinu
      (hinu.1.le.trans hcap) (entriesOk_entriesOf hrange) (hone.trans_eq (entriesOf_length _).symm)
      ((hzeros _).trans_le (blobPad_le _ _)) (htable.symm ▸ hpf) (htable.symm ▸ hall)
      (by rw [hzeros, htable]; exact hblob) (by rw [htable, ← hbitsLen]; exact hbits) hfit
  exact ⟨v, hv, hvdone, hvout⟩

end Sys2Proof.Machine
end

section
/-! PROOFS. The statements of spec/60_exceptions.md: BadSequence (R203), BufferOverflow at IN (R205), the abort (R207)
and the error state (R209); and the unwritten input byte (spec/70_reset_and_hazards.md R232). -/

namespace Sys2Proof.Machine

/-! ## The error state (R209) -/

/-- In ERROR no command but RESET does anything. -/
theorem exec_of_seq_error {i : Instr} {s : State} (hi : i ≠ .reset) (hs : s.seq = .error) : exec i s = .next s := by
  rw [exec_eq_runCommand hi, runCommand_error hs]

/-- In ERROR a CMD write of a word other than RESET's is taken and does nothing, whether it names a command or not. -/
theorem step_cmdWrite_of_seq_error {s : State} {w : Word} {rest : List HostInput} (hs : s.seq = .error)
    (hw : w ≠ 0x00000001#32) (hin : s.inputs = .access (.writeReg 0 w.toNat) :: rest) :
    step s = .next (takeWrite s rest) := by
  have hbusy : s.seq ≠ .busy := by rw [hs]; nofun
  have hs' : (takeWrite s rest).seq = .error := hs
  cases hd : decode w with
  | ok i =>
    have hi : i ≠ .reset := by rintro rfl; exact hw (decode_eq_ok.mp hd)
    rw [stepRunsTheDecodedCommand s w i rest hin hbusy hd]
    exact exec_of_seq_error hi hs'
  | error e =>
    rw [step_illegalWord hin hbusy (by rw [hd]; rfl)]
    exact runCommand_error hs'

/-- Settles O8: no command runs (`exec_of_seq_error`), whatever is written to CMD (`step_cmdWrite_of_seq_error`), and
the port serves every other access as in any state but BUSY (`step_read`, `step_write`). -/
theorem errorStateIgnoresAllButReset : Obligations.ErrorStateIgnoresAllButReset := by
  intro s rest hs
  have hbusy : s.seq ≠ .busy := by rw [hs]; nofun
  refine ⟨fun i hi => exec_of_seq_error hi hs, fun w hw hin => step_cmdWrite_of_seq_error hs hw hin,
    fun n hin => step_read hin hbusy, fun i b hin hi hb => ?readIn, fun i b hin hi => ?writeIn,
    fun v hin hv => ?writeInLen⟩
  case readIn => rw [step_read hin hbusy, hostRead, readCell?_of_get? hi hb, Option.getD_some]
  case writeIn =>
    rw [step_write hin hbusy rfl nofun nofun]
    exact congrArg Host.Outcome.next (if_pos hi)
  case writeInLen => exact step_write hin hbusy (decide_eq_true hv) nofun nofun

/-! ## The abort (R207) -/

/-- The codes of R200 and R201 are 1 to 8. -/
theorem Err.code_bounds (e : Err) : 1 ≤ e.code.toNat ∧ e.code.toNat ≤ 8 := by
  cases e <;> decide

/-- A ready command that ended in ERROR is not RESET, and its body raised. -/
theorem body_of_abort {i : Instr} {s t : State} (hr : Ready s) (hx : exec i s = .next t) (herr : t.seq = .error) :
    ∃ e info, bodyOf i { s with seq := .busy } = .error (.raise e info) ∧ t = abort e info s := by
  refine body_of_error ?notReset hr hx herr
  rintro rfl
  cases (exec_reset s hr.ne_busy).symm.trans hx
  cases herr

/-- Settles O17: the state is the abort of what the body raised (`body_of_abort`). -/
theorem everyAbortLeavesTheErrorState : Obligations.EveryAbortLeavesTheErrorState := by
  intro i s t hr hx herr
  obtain ⟨e, info, -, rfl⟩ := body_of_abort hr hx herr
  obtain ⟨hlow, hhigh⟩ := e.code_bounds
  exact ⟨hlow, hhigh, rfl, rfl, rfl, rfl, rfl, rfl, rfl⟩

/-! ## BadSequence (R203) -/

theorem Err.eq_badSequence_of_code {e : Err} (h : e.code = 6) : e = .badSequence := by
  cases e with
  | badSequence => rfl
  | _ => exact absurd h (by decide)

/-- R34's column "needs set", command by command. -/
theorem flagsNeeded_missing_iff {i : Instr} {f : Flags} :
    f.covers (flagsNeeded i) = false ↔
      (i = .build ∧ f.freqValid = false) ∨ (i = .assign ∧ f.treeValid = false) ∨
      (i = .encode ∧ f.codeValid = false) ∨
      ((i = .serialize ∨ i = .decode) ∧ (f.codeValid = false ∨ f.bitsValid = false)) := by
  cases i with
  | build | assign | encode | serialize | decode =>
    simp [Flags.covers, flagsNeeded, Flags.clear, Bool.and_eq_false_iff, -Bool.and_eq_false_imp]
  | reset | count | deserialize | compress | decompress | nop => simp [flagsNeeded, covers_clear]

/-- Where the effect never raises BadSequence, the flag check alone does. -/
theorem stage_badSequence_iff {i : Instr} {effect : State → Except Stop State} {s : State} {info : Nat}
    (heff : ∀ {u}, effect u ≠ .error (.raise .badSequence info)) :
    stage i effect s = .error (.raise .badSequence info) ↔
      s.flags.covers (flagsNeeded i) = false ∧ info = (opcodeOf i).toNat := by
  rw [stage_eq_error, or_iff_left fun h => heff h.2, Stop.raise.injEq, and_iff_right rfl]

/-- A body raises BadSequence exactly where a flag it needs is 0, with its opcode. The whole calls need none, and the
flags of each of their stages are set by the stages before it (`compressBody_raise`, `decompressBody_raise`). -/
theorem body_badSequence_iff {i : Instr} {s : State} {info : Nat} :
    bodyOf i s = .error (.raise .badSequence info) ↔
      s.flags.covers (flagsNeeded i) = false ∧ info = (opcodeOf i).toNat := by
  have hnone {i : Instr} (hneed : flagsNeeded i = Flags.clear) :
      ¬ (s.flags.covers (flagsNeeded i) = false ∧ info = (opcodeOf i).toNat) := by
    rw [hneed, covers_clear]
    exact fun h => nomatch h.1
  cases i with
  | reset | nop => exact iff_of_false nofun (hnone rfl)
  | count => exact stage_badSequence_iff fun h => nomatch countEffect_raise h
  | build => exact stage_badSequence_iff fun h => nomatch buildEffect_raise h
  | assign => exact stage_badSequence_iff fun h => nomatch assignEffect_raise h
  | encode => exact stage_badSequence_iff fun h => by rcases encodeEffect_raise h with h | h <;> cases h
  | serialize => exact stage_badSequence_iff fun h => nomatch serializeEffect_raise h
  | deserialize => exact stage_badSequence_iff fun h => by rcases deserializeEffect_raise h with h | h <;> cases h
  | decode => exact stage_badSequence_iff fun h => by rcases decodeEffect_raise h with h | h <;> cases h
  | compress => exact iff_of_false (fun h => by rcases compressBody_raise h with h | h | h | h <;> cases h) (hnone rfl)
  | decompress => exact iff_of_false (fun h => by rcases decompressBody_raise h with h | h | h <;> cases h) (hnone rfl)

/-- A ready command with a flag missing aborts with its opcode. -/
theorem exec_badSequence {i : Instr} {s : State} (hi : i ≠ .reset) (hr : Ready s)
    (hmiss : s.flags.covers (flagsNeeded i) = false) :
    ∃ t, exec i s = .next t ∧ Aborted 6 (opcodeOf i).toNat s t := by
  have hbody := (body_badSequence_iff (s := { s with seq := .busy })).mpr ⟨hmiss, rfl⟩
  have hinfo : (opcodeOf i).toNat < 2 ^ s.cfg.bitposW := lt_bitposW (opcodeOf i).isLt
  exact ⟨_, exec_of_raise hi hr hbody, aborted_abort hinfo⟩

/-- Settles O18: a body raises BadSequence exactly where a flag it needs is 0 (`body_badSequence_iff`), and
`flagsNeeded_missing_iff` says which flags those are. -/
theorem badSequenceExactlyInStagedCommands : Obligations.BadSequenceExactlyInStagedCommands := by
  refine ⟨fun s hr => ⟨fun h => ?build, fun h => ?assign, fun h => ?encode, fun h => ⟨?serialize, ?decode⟩⟩,
    fun i s t hr hx herr hcode => ?only⟩
  case build => exact exec_badSequence nofun hr (flagsNeeded_missing_iff.mpr (.inl ⟨rfl, h⟩))
  case assign => exact exec_badSequence nofun hr (flagsNeeded_missing_iff.mpr (.inr (.inl ⟨rfl, h⟩)))
  case encode => exact exec_badSequence nofun hr (flagsNeeded_missing_iff.mpr (.inr (.inr (.inl ⟨rfl, h⟩))))
  case serialize =>
    exact exec_badSequence nofun hr (flagsNeeded_missing_iff.mpr (.inr (.inr (.inr ⟨.inl rfl, h⟩))))
  case decode => exact exec_badSequence nofun hr (flagsNeeded_missing_iff.mpr (.inr (.inr (.inr ⟨.inr rfl, h⟩))))
  case only =>
    obtain ⟨e, info, hraise, rfl⟩ := body_of_abort hr hx herr
    obtain rfl := Err.eq_badSequence_of_code hcode
    exact flagsNeeded_missing_iff.mp (body_badSequence_iff.mp hraise).1

/-! ## Taking the input (R205, R232) -/

/-- What stops a command that reads all of IN first: IN_LEN above IN_CAP, else a byte with no value. -/
def InputStops (s : State) (stop : Stop) : Prop :=
  (s.cfg.inCap < s.inLen ∧ stop = .raise .bufferOverflow 0) ∨ (s.inLen ≤ s.cfg.inCap ∧ readInput s = .error stop)

/-- The commands that read all of IN before they do anything else with it. -/
def ReadsInputFirst (i : Instr) : Prop := i = .count ∨ i = .deserialize ∨ i = .compress ∨ i = .decompress

theorem ReadsInputFirst.ne_reset {i : Instr} (h : ReadsInputFirst i) : i ≠ .reset := by
  rintro rfl
  exact absurd h (by simp [ReadsInputFirst])

theorem countBody_of_inputStops {s : State} {stop : Stop} (h : InputStops s stop) : countBody s = .error stop :=
  stage_eq_error.mpr (.inr ⟨covers_clear _, countEffect_eq_error.mpr h⟩)

theorem deserializeBody_of_inputStops {s : State} {stop : Stop} (h : InputStops s stop) :
    deserializeBody s = .error stop := by
  refine stage_eq_error.mpr (.inr ⟨covers_clear _, ?effect⟩)
  rcases h with ⟨hover, rfl⟩ | ⟨hcap, hread⟩
  · exact deserializeEffect_over hover
  · exact deserializeEffect_unread hcap hread

/-- COUNT and DESERIALIZE stop so, and a whole call stops where its first body does. -/
theorem ReadsInputFirst.body_of_inputStops {i : Instr} {s : State} {stop : Stop} (hi : ReadsInputFirst i)
    (h : InputStops s stop) : bodyOf i s = .error stop := by
  rcases hi with rfl | rfl | rfl | rfl
  · exact countBody_of_inputStops h
  · exact deserializeBody_of_inputStops h
  · exact bind_eq_error.mpr (.inl (countBody_of_inputStops h))
  · exact bind_eq_error.mpr (.inl (deserializeBody_of_inputStops h))

/-- ENCODE with its flag set stops where its effect does. -/
theorem encodeBody_of_effect {s : State} {stop : Stop} (hf : s.flags.codeValid = true)
    (h : encodeEffect { s with flags := s.flags.without (flagsCleared .encode) } = .error stop) :
    encodeBody s = .error stop :=
  stage_eq_error.mpr (.inr ⟨by simp [Flags.covers, flagsNeeded, Flags.clear, hf], h⟩)

/-- Settles O19: the length check stops the body before anything is read (`InputStops`, `encodeEffect_over`). -/
theorem inputLongerThanBufferOverflows : Obligations.InputLongerThanBufferOverflows := by
  intro i s hr hover hi
  have haborts (hreset : i ≠ .reset) (hbody : bodyOf i { s with seq := .busy } = .error (.raise .bufferOverflow 0)) :
      ∃ t, exec i s = .next t ∧ Aborted 8 0 s t :=
    ⟨_, exec_of_raise hreset hr hbody, aborted_abort (e := .bufferOverflow) (Nat.two_pow_pos _)⟩
  have hkinds : ReadsInputFirst i ∨ (i = .encode ∧ s.flags.codeValid = true) := by
    simpa only [ReadsInputFirst, or_assoc] using hi
  rcases hkinds with hfirst | ⟨rfl, hf⟩
  · exact haborts hfirst.ne_reset (hfirst.body_of_inputStops (.inl ⟨hover, rfl⟩))
  · exact haborts nofun (encodeBody_of_effect hf (encodeEffect_over hover))

/-- Settles O20: reading IN stops at the first byte with no value (`readFrom_eq_error`), and so does the loop of ENCODE
where the bytes before it are packed (`encodeEffect_unread`). -/
theorem unwrittenInputByteFaults : Obligations.UnwrittenInputByteFaults := by
  refine ⟨fun i s k hr hcap hk hnone hbefore hi => ?readsAll,
    fun s before hr hf hcap hlt hholds hnone hall hfit => ?encode⟩
  case readsAll =>
    have hread : readInput { s with seq := .busy } = .error (.fault (.unwrittenInput k)) :=
      readFrom_eq_error.mpr ⟨k, hk, by simpa using hnone, by simpa using hbefore, by rw [Nat.zero_add]⟩
    have hfirst : ReadsInputFirst i := hi
    exact exec_of_fault hfirst.ne_reset hr (hfirst.body_of_inputStops (.inr ⟨hcap, hread⟩))
  case encode =>
    exact exec_of_fault (i := .encode) nofun hr
      (encodeBody_of_effect hf (encodeEffect_unread hcap hlt hholds hnone hall hfit))

end Sys2Proof.Machine
end
